-- ==== Sys2Proof/Word.lean ====
section
/-! DEFINITION. The words the spec treats as bits, and the named values of its two display registers. -/

namespace Sys2Proof

/-- A byte (R8): framebuffer bytes, asset bytes, wire bytes, the `v` field. -/
abbrev Byte := BitVec 8

/-- A 4-bit brightness level (R54). -/
abbrev Nibble := BitVec 4

/-- A coordinate, size or radius operand: `COORD_BITS` = 16 (R7, R118). -/
abbrev Coord := BitVec 16

/-- The 32-bit fields `n` and `p` (R81). -/
abbrev Word32 := BitVec 32

/-- One operation's descriptor: exactly 112 bits (R80). -/
abbrev Descriptor := BitVec 112

/-- The protocol state `PSTATE` (R26); the fourth 2-bit value is never produced. -/
inductive PState where
  | reset | asleep | awake
  deriving DecidableEq, Repr, Inhabited

/-- The display sub-mode `MODE` (R27). -/
inductive Mode where
  | normal | inverted | forceOn | forceOff
  deriving DecidableEq, Repr, Inhabited

end Sys2Proof
end

