-- ==== Sys2Proof/Machine/Memory.lean ====
section
/-! DEFINITION. The framebuffer memory FB (R34, R52): a list of cells in one canonical form, addresses strictly rising
and no cell equal to what an unlisted address reads as. -/

namespace Sys2Proof.Machine

/-- The framebuffer's bytes. -/
abbrev Memory := List Host.Cell

/-- What a byte of FB reads as that no cell lists. DESIGN CHOICE (log 6): R67 leaves the power-on content arbitrary. -/
def unlistedByte : Byte := 0

/-- Every address of the list is above `lo`, addresses rise strictly, and no cell holds the unlisted byte. -/
def Memory.wfFrom : Nat → Memory → Bool
  | _, [] => true
  | lo, (a, v) :: m => lo ≤ a && v != unlistedByte && Memory.wfFrom (a + 1) m

/-- The canonical form. -/
def Memory.wf (m : Memory) : Bool := Memory.wfFrom 0 m

/-- The byte at an address. -/
def Memory.read : Memory → Nat → Byte
  | [], _ => unlistedByte
  | (b, v) :: m, a => if a = b then v else Memory.read m a

/-- A cell in front of a list, unless it says what an unlisted address reads as. -/
def Memory.cons (a : Nat) (v : Byte) (m : Memory) : Memory :=
  if v = unlistedByte then m else (a, v) :: m

/-- The memory after one byte is written. -/
def Memory.write : Memory → Nat → Byte → Memory
  | [], a, v => Memory.cons a v []
  | (b, u) :: m, a, v =>
    if a < b then Memory.cons a v ((b, u) :: m)
    else if a = b then Memory.cons a v m
    else (b, u) :: Memory.write m a v

/-- The memory after every byte below `n` is set to `v`: the `n` writes of a linear fill, in one pass
(`Laws/Memory.lean` proves it equal to the writes one by one). -/
def Memory.fill (m : Memory) (n : Nat) (v : Byte) : Memory :=
  (if v = unlistedByte then [] else (List.range n).map (fun a => (a, v))) ++ m.dropWhile (fun c => c.1 < n)

end Sys2Proof.Machine
end

