-- ==== Sys2Proof/Config.lean ====
section
/-! DEFINITION. What whoever instantiates the block fixes (R7), as plain data, and the free values the spec leaves open.

The parameters are a record that State carries and no step changes (log 2), so a statement about every state holds
for every value of every OPEN parameter. The `opaque` constants have no body: nothing can be proved of their values. -/

namespace Sys2Proof

/-- One glyph record (R59). The two offsets are signed 8-bit values. -/
structure Glyph where
  width        : Byte
  height       : Byte
  xAdvance     : Byte
  xOffset      : BitVec 8
  yOffset      : BitVec 8
  bitmapOffset : BitVec 16
  deriving DecidableEq, Repr

/-- One font record of `FONT_ROM` (R59). `bitmapLen` is the length of `bitmap`; `yAdvance` is read by no operation. -/
structure Font where
  first    : BitVec 16
  last     : BitVec 16
  yAdvance : Byte
  glyphs   : List Glyph
  bitmap   : List Byte
  deriving DecidableEq, Repr

/-- The topics of the initialisation body that R210 orders. -/
inductive InitTopic where
  | unlock | clockDivider | multiplexRatio | offsets | remapDualCom
  | vsl | contrast | precharge | vcomh | normalMode | fullPanel
  deriving DecidableEq, Repr

/-- One item of `INIT_BODY`: `CMD(byte)` or `DAT(byte)` (R210), with the topic it belongs to, if it is one of the
spec's topics (R211's third column; log 19). -/
structure InitItem where
  isData : Bool
  byte   : Byte
  topic  : Option InitTopic
  deriving DecidableEq, Repr

/-- The wire command bytes whose values the source does not print (R97). -/
structure CmdBytes where
  writeRam        : Byte
  modeNormal      : Byte
  modeInverted    : Byte
  modeForceOn     : Byte
  modeForceOff    : Byte
  sleepOn         : Byte
  sleepOff        : Byte
  displayOn       : Byte
  setContrast     : Byte
  setBrightness   : Byte
  setGrayTable    : Byte
  enableGrayTable : Byte
  defaultGray     : Byte
  exitPartial     : Byte
  deriving DecidableEq, Repr

/-- The four window values PUSH programs (`FULL_WINDOW`, R7, R240). -/
structure WindowBytes where
  startCol : Byte
  endCol   : Byte
  startRow : Byte
  endRow   : Byte
  deriving DecidableEq, Repr

/-- Which `AA_LINE_FN` the hardware has (R140): the reference instance of R141, or any instance at all, of which
R140 (b) and (f) are assumed and nothing else (log 12). -/
inductive AaInstance where
  | reference | anyInstance
  deriving DecidableEq, Repr

/-- The parameters of R7 that are not fixed by the source. `ASSET_BYTES` is the length of `asset`, `N_FONTS` that of
`fontRom`. -/
structure Config where
  fbBytes    : Nat
  asset      : List Byte
  fontRom    : List Font
  panelWPx   : Nat
  panelHPx   : Nat
  fullWindow : WindowBytes
  tStabMs    : Nat
  cmd        : CmdBytes
  initBody   : List InitItem
  hasAaLine  : Bool
  aaLine     : AaInstance
  deriving DecidableEq, Repr

/-- FREE VALUE. `PSTATE` after the n-th free draw: "any one of RESET, ASLEEP, AWAKE" after a failed transmit
(R203, U8; log 10). -/
opaque Config.freePState : Nat → PState

/-- FREE VALUE. `MODE` after the n-th free draw: "any one of the four modes" after a failed transmit (R203, U8; log 10). -/
opaque Config.freeMode : Nat → Mode

/-- The five arguments of `AA_LINE_FN` and the two registers it may depend on (R140 (f)). -/
structure AaArgs where
  x0 : Nat
  y0 : Nat
  x1 : Nat
  y1 : Nat
  b  : Nibble
  w  : Nat
  h  : Nat
  deriving DecidableEq, Repr

/-- A pixel and the level written there. -/
abbrev LevelPixel := (Int × Int) × Nibble

/-- R140 (f): given its arguments, a function of the framebuffer depends on no byte but those its own pixel writes lie
in, that is on the bytes it overwrites. A framebuffer is given by how it reads. -/
def readsOnlyWhatItOverwrites (writes : AaArgs → (Nat → Byte) → List LevelPixel) : Prop :=
  ∀ (a : AaArgs) (f g : Nat → Byte),
    (∀ (x y : Nat) (b : Nibble), x < a.w → y < a.h → (((x : Int), (y : Int)), b) ∈ writes a f →
      f ((y * a.w + x) / 2) = g ((y * a.w + x) / 2)) →
    writes a f = writes a g

/-- An instance of `AA_LINE_FN` (R140): the pixel writes it makes through `plot`, in order, of which (f) holds. What (b)
asks is in the type, since the writes are pixels with 4-bit levels. -/
structure AaLineFn where
  writes : AaArgs → (Nat → Byte) → List LevelPixel := fun _ _ => []
  readsOnly : readsOnlyWhatItOverwrites writes := by intro _ _ _ _; rfl
  deriving Inhabited

/-- FREE VALUE. An arbitrary instance of `AA_LINE_FN` (R140, U16; log 12). -/
opaque Config.aaLineFn : AaLineFn

end Sys2Proof
end

