-- ==== Sys2Proof/Syntax.lean ====
section
/-! DEFINITION. The operations (R84), one constructor per row of spec/opcode_table.json. A constructor holds exactly
the operand bits its operation reads (R83, R85; log 17), in the order of the source call. -/

namespace Sys2Proof

/-- The 28 operations. A brightness or a wire byte is the whole `v` field; R114 masks brightness where it is used. -/
inductive Instr where
  | configure (width height : Coord)
  | clear (v : Byte)
  | setPixel (x y : Coord) (v : Byte)
  | drawVLine (x y0 y1 : Coord) (v : Byte)
  | drawHLine (y x0 x1 : Coord) (v : Byte)
  | drawLine (x0 y0 x1 y1 : Coord) (v : Byte)
  | drawAaLine (x0 y0 x1 y1 : Coord) (v : Byte)
  | drawRect (x0 y0 x1 y1 : Coord) (v : Byte)
  | drawRectFilled (x0 y0 x1 y1 : Coord) (v : Byte)
  | drawCircle (x0 y0 r : Coord) (v : Byte)
  | drawBitmap8bpp (x0 y0 w h : Coord) (p : Word32)
  | drawBitmap4bpp (x0 y0 w h : Coord) (p : Word32)
  | selectFont (p : Word32)
  | drawChar (c : Byte) (x y : Coord) (v : Byte)
  | drawText (p : Word32) (x y : Coord) (v : Byte)
  | sendCommand (v : Byte)
  | sendData (v : Byte)
  | initDisplay
  | setMode (m : BitVec 2)
  | sleepOn
  | sleepOff
  | setContrast (v : Byte)
  | setBrightness (v : Byte)
  | uploadGrayscale (p : Word32)
  | resetGrayscale
  | setWindow (startCol endCol startRow endRow : Byte)
  | transfer (p n : Word32)
  | push (originX originY : Coord)
  deriving DecidableEq, Repr

end Sys2Proof
end

