-- ==== Sys2Proof/WellFormed.lean ====
section
/-! DEFINITION. The checks the spec asks for when an instruction or a configuration is given: the optional operation
(R6, R86), the font table (R187), the initialisation body (R210), the panel width (R240). -/

namespace Sys2Proof

/-- An operation the hardware has: all of them, DRAW_AA_LINE only with `HAS_AA_LINE` (R86, R138). No field value makes
a defined opcode illegal (R83). -/
def Instr.wf (hasAaLine : Bool) : Instr → Bool
  | .drawAaLine .. => hasAaLine
  | .configure .. | .clear .. | .setPixel .. | .drawVLine .. | .drawHLine .. | .drawLine .. | .drawRect ..
  | .drawRectFilled .. | .drawCircle .. | .drawBitmap8bpp .. | .drawBitmap4bpp .. | .selectFont .. | .drawChar ..
  | .drawText .. | .sendCommand .. | .sendData .. | .initDisplay | .setMode .. | .sleepOn | .sleepOff
  | .setContrast .. | .setBrightness .. | .uploadGrayscale .. | .resetGrayscale | .setWindow .. | .transfer ..
  | .push .. => true

/-- A well-formed font: `first <= last` and one glyph record per code between them (R59, R187). -/
def Font.wf (f : Font) : Bool :=
  f.first ≤ f.last && f.glyphs.length == f.last.toNat - f.first.toNat + 1

/-- The place of a topic in R210's order. -/
def InitTopic.rank : InitTopic → Nat
  | .unlock => 0
  | .clockDivider => 1
  | .multiplexRatio => 2
  | .offsets => 3
  | .remapDualCom => 4
  | .vsl => 5
  | .contrast => 6
  | .precharge => 7
  | .vcomh => 8
  | .normalMode => 9
  | .fullPanel => 10

/-- Every topic R210 lists. -/
def InitTopic.all : List InitTopic :=
  [.unlock, .clockDivider, .multiplexRatio, .offsets, .remapDualCom, .vsl, .contrast, .precharge, .vcomh,
   .normalMode, .fullPanel]

/-- A list of naturals that never decreases. -/
def ascending : List Nat → Bool
  | a :: b :: l => a ≤ b && ascending (b :: l)
  | _ => true

/-- The constraint of R210 on `INIT_BODY`: its first command is the command-unlock, the topics come in R210's order and
none is missing (log 19), and the last two items are `CMD(CMD_MODE_NORMAL)` and `CMD(CMD_EXIT_PARTIAL)`. -/
def initBodyWf (cmd : CmdBytes) (body : List InitItem) : Bool :=
  let topics := body.filterMap InitItem.topic
  ((body.find? fun i => !i.isData).map fun i => i.topic == some .unlock) == some true
    && ascending (topics.map InitTopic.rank)
    && InitTopic.all.all topics.contains
    && body.drop (body.length - 2)
        == [⟨false, cmd.modeNormal, some .normalMode⟩, ⟨false, cmd.exitPartial, some .fullPanel⟩]

/-- ASSET has no byte beyond its 32-bit addresses (R57). DEDUCED: R7 leaves `ASSET_BYTES` open and names no bound, and
R118 and R185 have every address beyond `2^32 − 1` fault (log 23). -/
def assetAddressable (asset : List Byte) : Bool := asset.length ≤ 4294967296

/-- A configuration the model accepts (R187, R210, R240, and the bound of log 23); any other is refused (log 15). -/
def Config.wf (c : Config) : Bool :=
  c.fontRom.all Font.wf && initBodyWf c.cmd c.initBody && c.panelWPx % 2 == 0 && assetAddressable c.asset

end Sys2Proof
end

