-- ==== Sys2Proof/Machine/Params.lean ====
section
/-! DEFINITION. The parameters R7 gives a fixed value, and the defaults of the OPEN ones (log 3, 4). -/

namespace Sys2Proof.Machine

/-- `COL_BIAS` (R7, R221). -/
def colBias : Byte := 28
/-- `GRAY_MAX` (R7, R217). -/
def grayMax : Nat := 180
/-- `CMD_SET_COLUMN` (R97). -/
def cmdSetColumn : Byte := 0x15
/-- `CMD_SET_ROW` (R97). -/
def cmdSetRow : Byte := 0x75
/-- `T_RESET_LOW_MS` (R7, R209). -/
def tResetLowMs : Nat := 1
/-- `T_SETTLE_MS` (R7, R209). -/
def tSettleMs : Nat := 50
/-- `T_POST_MS` (R7, R209). -/
def tPostMs : Nat := 50

/-- The default wire command bytes of R97. PRESUMED: from general knowledge, not in the source (log 4). -/
def defaultCmd : CmdBytes where
  writeRam        := 0x5C
  modeNormal      := 0xA6
  modeInverted    := 0xA7
  modeForceOn     := 0xA5
  modeForceOff    := 0xA4
  sleepOn         := 0xAE
  sleepOff        := 0xAF
  displayOn       := 0xAF
  setContrast     := 0xC1
  setBrightness   := 0xC7
  setGrayTable    := 0xB8
  enableGrayTable := 0x00
  defaultGray     := 0xB9
  exitPartial     := 0xA9

/-- A command item of `INIT_BODY`. -/
def initCmd (b : Byte) (t : Option InitTopic) : InitItem := ⟨false, b, t⟩
/-- A data item of `INIT_BODY`. -/
def initDat (b : Byte) (t : Option InitTopic) : InitItem := ⟨true, b, t⟩

/-- Rows 1 to 9 of R211's table. -/
def defaultInitBodyA : List InitItem :=
  [initCmd 0xFD (some .unlock), initDat 0x12 (some .unlock),
   initCmd 0xAE none,
   initCmd 0xB3 (some .clockDivider), initDat 0x91 (some .clockDivider),
   initCmd 0xCA (some .multiplexRatio), initDat 0x3F (some .multiplexRatio),
   initCmd 0xA2 (some .offsets), initDat 0x00 (some .offsets),
   initCmd 0xA1 (some .offsets), initDat 0x00 (some .offsets),
   initCmd 0xA0 (some .remapDualCom), initDat 0x14 (some .remapDualCom), initDat 0x11 (some .remapDualCom),
   initCmd 0xB5 none, initDat 0x00 none,
   initCmd 0xAB none, initDat 0x01 none]

/-- Rows 10 to 20 of R211's table. -/
def defaultInitBodyB : List InitItem :=
  [initCmd 0xB4 (some .vsl), initDat 0xA0 (some .vsl), initDat 0xFD (some .vsl),
   initCmd 0xC1 (some .contrast), initDat 0xFF (some .contrast),
   initCmd 0xC7 (some .contrast), initDat 0x0F (some .contrast),
   initCmd 0xB9 none,
   initCmd 0xB1 (some .precharge), initDat 0xE2 (some .precharge),
   initCmd 0xD1 none, initDat 0x82 none, initDat 0x20 none,
   initCmd 0xBB (some .precharge), initDat 0x1F (some .precharge),
   initCmd 0xB6 (some .precharge), initDat 0x08 (some .precharge),
   initCmd 0xBE (some .vcomh), initDat 0x07 (some .vcomh),
   initCmd 0xA6 (some .normalMode),
   initCmd 0xA9 (some .fullPanel)]

/-- The default `INIT_BODY` of R211. PRESUMED: from general knowledge, not in the source (log 4). -/
def defaultInitBody : List InitItem := defaultInitBodyA ++ defaultInitBodyB

/-- The defaults of R7 for the OPEN parameters; where R7 gives no default (ASSET, FONT_ROM, AA_LINE_FN) the choice is
the model's (log 3). -/
def defaultConfig : Config where
  fbBytes    := 8192
  asset      := []
  fontRom    := []
  panelWPx   := 256
  panelHPx   := 64
  fullWindow := ⟨0, 63, 0, 127⟩
  tStabMs    := 10
  cmd        := defaultCmd
  initBody   := defaultInitBody
  hasAaLine  := false
  aaLine     := .anyInstance

end Sys2Proof.Machine
end

