-- ==== Sys2Proof/Machine/State.lean ====
section
/-! DEFINITION. The state of the block (R20), plain data, and its value right after reset (R38). -/

namespace Sys2Proof.Machine

/-- The nine calls of the Transport Interface (R200). -/
inductive TransportEvent where
  | pinSelectLow
  | pinSelectHigh
  | pinModeCommand
  | pinModeData
  | pinResetLow
  | pinResetHigh
  | transmitByte (b : Byte)
  | transmitArray (bytes : List Byte) (count : Nat)
  | delayMs (count : Nat)
  deriving DecidableEq, Repr

/-- Everything the spec gives the machine (R20), the host's inputs, and the counter of free draws. -/
structure State where
  /-- `OP`, the operand latch (R21). -/
  op : Descriptor
  /-- `W` (R22). -/
  w : Coord
  /-- `H` (R23). -/
  h : Coord
  /-- `FONT_VALID` (R24). -/
  fontValid : Bool
  /-- `FONT_SEL` (R25). -/
  fontSel : Word32
  /-- `PSTATE` (R26). -/
  pstate : PState
  /-- `MODE` (R27). -/
  mode : Mode
  /-- `STATUS` (R28). -/
  status : Byte
  /-- `FAULTED` (R29). -/
  faulted : Bool
  /-- `FCAUSE` (R29). -/
  fcause : Byte
  /-- `CS`: true is 1, deselected (R30). -/
  cs : Bool
  /-- `DC`: true is 1, data (R30). -/
  dc : Bool
  /-- `RST`: true is 1, not in reset (R30). -/
  rst : Bool
  /-- `FB` (R34). -/
  fb : Memory
  /-- `WIRE`, oldest first (R33). -/
  wire : List TransportEvent
  /-- `TXCOUNT` (R33). -/
  txCount : Nat
  /-- The host's list of descriptors (R32; not hardware state). -/
  program : List Descriptor
  /-- The position in that list (R32; not hardware state). -/
  pos : Nat
  /-- The reset input, asserted between operations (R280; log 13). -/
  resetIn : Bool
  /-- The reset input is asserted during the next operation, when it has come to this many of its writes to FB
  (R280, R281; log 13). -/
  resetDuring : Option Nat
  /-- The transmits that fail: `tx_ok(k)` is false exactly for these k (R203; log 5). -/
  txFails : List Nat
  /-- The model's own: how many free values have been drawn (log 10). -/
  draws : Nat
  /-- The parameters (R7; log 2). -/
  cfg : Config
  deriving DecidableEq, Repr

/-- Why the machine stops. -/
inductive Fault where
  /-- Raised by the step when `FAULTED` is 1: the block is stuck until reset and the run has ended by a fault
  (R253, U18). Safe: no behaviour of the hardware is left out, since it has none. -/
  | blockFaulted (cause : Byte)
  deriving DecidableEq, Repr

/-- Why the model gives no meaning. -/
inductive Refusal where
  /-- Raised by an arm of `exec` whose instruction has no meaning yet. Safe: nothing can be proved of it. -/
  | notModelled (mnemonic : String)
  /-- Raised by the step when a descriptor is accepted under a configuration that R187, R210 or R240 rules out.
  Safe: the spec tells the model to refuse it. -/
  | illFormedConfiguration
  /-- Raised by DRAW_CHAR and DRAW_TEXT when `FONT_SEL` names no record of `FONT_ROM`, which no run reaches (R25).
  Safe: no effect is made up. -/
  | noSuchFont
  /-- Raised by DRAW_CHAR and DRAW_TEXT when the active font lacks the glyph record of a code in its range, an
  ill-formed font (R59, R187). Safe: the spec tells the model to refuse it. -/
  | noSuchGlyph
  deriving DecidableEq, Repr

/-- The machine right after reset (R38, R280), with the defaults of the OPEN parameters (log 3, 4), no descriptor
presented (log 1) and no transmit failing (log 5). `OP`, `FONT_SEL` and `FCAUSE` are unspecified by the spec and 0
here (log 7, 8, 9). -/
def State.reset : State where
  op        := 0
  w         := 0
  h         := 0
  fontValid := false
  fontSel   := 0
  pstate    := .reset
  mode      := .normal
  status    := 0
  faulted   := false
  fcause    := 0
  cs        := true
  dc        := true
  rst       := true
  fb        := []
  wire      := []
  txCount   := 0
  program   := []
  pos       := 0
  resetIn   := false
  resetDuring := none
  txFails   := []
  draws     := 0
  cfg       := defaultConfig

end Sys2Proof.Machine
end

