-- ==== Sys2Proof/Machine/Flags.lean ====
section
/-! DEFINITION. Status codes, fault causes and the codes of the display registers. The block has no condition codes
(R118): `STATUS`, `FAULTED` and `FCAUSE` are all an operation reports. -/

namespace Sys2Proof.Machine

/-- The status codes that are ever produced (R251). -/
inductive StatusCode where
  | ok | errGrayRange | errBus | errIllegal
  deriving DecidableEq, Repr

/-- The value of `STATUS` for a status code (R251). -/
def statusByte : StatusCode → Byte
  | .ok => 0
  | .errGrayRange => 1
  | .errBus => 2
  | .errIllegal => 3

/-- The fault causes (R254). -/
inductive Cause where
  | storageOverrun | assetOverrun | fontOverrun
  deriving DecidableEq, Repr

/-- The value of `FCAUSE` for a cause (R254). -/
def causeByte : Cause → Byte
  | .storageOverrun => 1
  | .assetOverrun => 2
  | .fontOverrun => 3

/-- The 2-bit encoding of `PSTATE` (R26). -/
def pstateCode : PState → BitVec 2
  | .reset => 0
  | .asleep => 1
  | .awake => 2

/-- The 2-bit encoding of `MODE` (R27). -/
def modeCode : Mode → BitVec 2
  | .normal => 0
  | .inverted => 1
  | .forceOn => 2
  | .forceOff => 3

/-- The sub-mode that `v[1:0]` of SET_MODE names (R27, R212). -/
def modeOf (m : BitVec 2) : Mode :=
  match m.toNat with
  | 0 => .normal
  | 1 => .inverted
  | 2 => .forceOn
  | _ => .forceOff

/-- The command byte SET_MODE sends for a sub-mode (R212). -/
def modeCommand (c : CmdBytes) : Mode → Byte
  | .normal => c.modeNormal
  | .inverted => c.modeInverted
  | .forceOn => c.modeForceOn
  | .forceOff => c.modeForceOff

/-- `complete(code)`: the operation is over and `STATUS` holds its code (R250). -/
def complete (code : StatusCode) (s : State) : State := { s with status := statusByte code }

end Sys2Proof.Machine
end

