-- ==== Sys2Proof/Machine/Operands.lean ====
section
/-! DEFINITION. Operand forms: brightness masks, nibble packing, pixel addressing, source formats, and the bytes the
wire operations make of their operands (R53, R58, R60, R98, R114, R118, R119). -/

namespace Sys2Proof.Machine

/-- Bits 3:0 of a byte: the low nibble (R8), and the brightness of a brightness operand (R114). -/
def lowNibble (b : Byte) : Nibble := b.extractLsb' 0 4

/-- Bits 7:4 of a byte: the high nibble (R8), and the brightness of an 8-bit source pixel (R58, R118). -/
def highNibble (b : Byte) : Nibble := b.extractLsb' 4 4

/-- `CLEAR`'s fill byte: the brightness in both nibbles (R111). -/
def fillByte (v : Byte) : Byte := lowNibble v ++ lowNibble v

/-- The nibble index `y·W + x` of a pixel (R53). -/
def nibbleIndex (w : Coord) (x y : Nat) : Nat := y * w.toNat + x

/-- The byte address of a pixel (R53, R119). -/
def pixelAddress (w : Coord) (x y : Nat) : Nat := nibbleIndex w x y / 2

/-- A byte with one nibble replaced: the low one for an even nibble index, the high one for an odd (R112). -/
def putNibble (n : Nat) (old : Byte) (b : Nibble) : Byte :=
  if n % 2 = 0 then highNibble old ++ b else b ++ lowNibble old

/-- The nibble of a byte that a nibble index names (R53). -/
def getNibble (n : Nat) (b : Byte) : Nibble := if n % 2 = 0 then lowNibble b else highNibble b

/-- The number of bytes that hold pixels, `ceil(W·H/2)` (R51, R118). -/
def pixelBytes (w h : Coord) : Nat := (w.toNat * h.toNat + 1) / 2

/-- The nibble a packed 4-bit source byte holds for pixel number `k`: the high one for an even `k` (R58, R171). -/
def sourceNibble (k : Nat) (b : Byte) : Nibble := if k % 2 = 0 then highNibble b else lowNibble b

/-- The bit of a glyph's stream with number `k`, in its blob byte: most significant first (R60). -/
def glyphBit (k : Nat) (b : Byte) : Bool := b.getLsbD (7 - k % 8)

/-- A window column as it is sent: biased by 28, modulo 256 (R221). -/
def biasedColumn (c : Byte) : Byte := c + colBias

/-- The data byte of SET_BRIGHTNESS: `v[3:0]`, zero-extended (R216). -/
def brightnessByte (v : Byte) : Byte := (lowNibble v).setWidth 8

/-- `PANEL_STRIDE` (R240). -/
def panelStride (c : Config) : Nat := c.panelWPx / 2

/-- `PANEL_BYTES` (R240). -/
def panelBytes (c : Config) : Nat := c.panelWPx * c.panelHPx / 2

/-- The byte offset of PUSH (R241). -/
def pushOffset (c : Config) (originX originY : Coord) : Nat := originY.toNat * panelStride c + originX.toNat

/-- The integers `lo .. hi`, ascending; none when `lo > hi` (R10). -/
def upTo (lo hi : Nat) : List Nat := List.range' lo (hi + 1 - lo)

/-- The pairs (row, column) of a `w` by `h` rectangle, row by row (R58, R60). -/
def rowMajor (w h : Nat) : List (Nat × Nat) :=
  (List.range h).flatMap fun j => (List.range w).map fun i => (j, i)

end Sys2Proof.Machine
end

