-- ==== Sys2Proof/Machine/Ops.lean ====
section
/-! DEFINITION. The operations every meaning shares: the ending of an operation, faults and the block reset, the three
memories, the pixel write, the transport events and framings. -/

namespace Sys2Proof.Machine

/-- How a running operation ends before its pseudocode does. -/
inductive Stop where
  /-- By `raise Fault` or by a `complete` with a code of its own; the state is final for the operation (R250). -/
  | ended
  /-- The model has no meaning for what the configuration asks. -/
  | refused (r : Refusal)
  deriving DecidableEq, Repr

/-- A piece of an operation's pseudocode: it changes the state and answers a value, or stops; what it did before it
stopped stays done (R253). -/
abbrev Op := EStateM Stop State

/-- One piece of pseudocode for each item of a list, in order. -/
def forEach {α : Type} : List α → (α → Op Unit) → Op Unit
  | [], _ => pure ()
  | a :: l, f => do
    f a
    forEach l f

/-- A whole operation: its pseudocode, then `complete(OK)` (R250). -/
def finish (m : Op Unit) (s : State) : Host.Outcome State Fault Refusal :=
  match m s with
  | .ok _ t => .next (complete .ok t)
  | .error .ended t => .next t
  | .error (.refused r) _ => .refused r

/-- `complete(code)` for a code that ends the operation early (R250). -/
def endWith {α : Type} (code : StatusCode) : Op α := fun s => .error .ended (complete code s)

/-- The model refuses (R187). -/
def refuse {α : Type} (r : Refusal) : Op α := fun s => .error (.refused r) s

/-! Faults, and the only way back from one -/

/-- What `raise Fault(cause)` does to the state: the latch and its cause, and nothing else (R253). -/
def latchFault (cause : Cause) (s : State) : State := { s with faulted := true, fcause := causeByte cause }

/-- `raise Fault(cause)`: the operation stops here; `STATUS` is not written and nothing is rolled back (R253). -/
def raiseFault {α : Type} (cause : Cause) : Op α := fun s => .error .ended (latchFault cause s)

/-- The block reset (R280, R281), the only exit from a fault: the registers take their reset values, `WIRE` and
`TXCOUNT` start again, `FB` is not written and no event is emitted. The host's side (its list, its position, the
bus answers, the parameters) is not the block's to change (log 13). -/
def blockReset (s : State) : State :=
  { State.reset with
    fb := s.fb, program := s.program, pos := s.pos, txFails := s.txFails, draws := s.draws, cfg := s.cfg }

/-! The three memories -/

/-- `MemRead(FB, addr, 1)` (R52). -/
def fbRead (a : Nat) : Op Byte := fun s =>
  if a < s.cfg.fbBytes then .ok (s.fb.read a) s else raiseFault .storageOverrun s

/-- `MemWrite(FB, addr, 1, val)` (R52). -/
def fbWrite (a : Nat) (v : Byte) : Op Unit := fun s =>
  if a < s.cfg.fbBytes then .ok () { s with fb := s.fb.write a v } else raiseFault .storageOverrun s

/-- The linear fill `FB[i] <- v` for `i = 0 .. n − 1` (R111, R119): it stops at the first byte that FB does not have,
with every byte before it written (log 18). -/
def fbFill (n : Nat) (v : Byte) : Op Unit := fun s =>
  if n ≤ s.cfg.fbBytes then .ok () { s with fb := s.fb.fill n v }
  else raiseFault .storageOverrun { s with fb := s.fb.fill s.cfg.fbBytes v }

/-- The linear read-out `FB[p] .. FB[p+n−1]`, ascending (R223). Reading changes nothing, so it faults exactly when one
of the bytes does not exist (R222; log 18). -/
def fbReadOut (p n : Nat) : Op (List Byte) := fun s =>
  if n = 0 ∨ p + n ≤ s.cfg.fbBytes then .ok ((List.range n).map fun i => s.fb.read (p + i)) s
  else raiseFault .storageOverrun s

/-- `MemRead(ASSET, addr, 1)` (R57); the address does not wrap (R118). An address beyond `2^32 − 1` faults because no
accepted configuration has a byte there (log 23). -/
def assetRead (a : Nat) : Op Byte := fun s =>
  match s.cfg.asset[a]? with
  | some b => .ok b s
  | none => raiseFault .assetOverrun s

/-- `n` bytes of ASSET from `a` upward, one read after another. -/
def assetReadOut : Nat → Nat → Op (List Byte)
  | 0, _ => pure []
  | n + 1, a => do
    let b ← assetRead a
    let l ← assetReadOut n (a + 1)
    return b :: l

/-- `FontBitmap(f, i)` (R59). -/
def fontByte (f : Font) (i : Nat) : Op Byte := fun s =>
  match f.bitmap[i]? with
  | some b => .ok b s
  | none => raiseFault .fontOverrun s

/-! The pixel write -/

/-- `set_pixel(x, y, v)` (R112): dropped outside the logical framebuffer, else a read-modify-write of one byte that
keeps its other nibble (R54). -/
def setPixel (x y : Nat) (v : Byte) : Op Unit := do
  let s ← get
  if s.w.toNat ≤ x ∨ s.h.toNat ≤ y then
    pure ()
  else
    let old ← fbRead (pixelAddress s.w x y)
    fbWrite (pixelAddress s.w x y) (putNibble (nibbleIndex s.w x y) old (lowNibble v))

/-- `plot(X, Y, v)` (R116): a pixel with a negative coordinate is dropped. -/
def plot (x y : Int) (v : Byte) : Op Unit :=
  if x < 0 ∨ y < 0 then pure () else setPixel x.toNat y.toNat v

/-- The pixels of a list, written in order with one brightness. For pixels with no negative coordinate this is
`set_pixel` on each (R116). -/
def plotAll (ps : List (Int × Int)) (v : Byte) : Op Unit := forEach ps fun p => plot p.1 p.2 v

/-- The level of a pixel, read back by the packing rule (R53, R117): the model's view of FB, no operation. -/
def pixelAt (s : State) (x y : Nat) : Nibble :=
  getNibble (nibbleIndex s.w x y) (s.fb.read (pixelAddress s.w x y))

/-! Transport events and framings -/

/-- Whether an event is a transmit (R200). -/
def isTransmit : TransportEvent → Bool
  | .transmitByte _ => true
  | .transmitArray _ _ => true
  | .pinSelectLow | .pinSelectHigh | .pinModeCommand | .pinModeData | .pinResetLow | .pinResetHigh | .delayMs _ => false

/-- The latch effect of an event (R200, third column). -/
def driveLatch (e : TransportEvent) (s : State) : State :=
  match e with
  | .pinSelectLow => { s with cs := false }
  | .pinSelectHigh => { s with cs := true }
  | .pinModeCommand => { s with dc := false }
  | .pinModeData => { s with dc := true }
  | .pinResetLow => { s with rst := false }
  | .pinResetHigh => { s with rst := true }
  | .transmitByte _ => { s with txCount := s.txCount + 1 }
  | .transmitArray _ _ => { s with txCount := s.txCount + 1 }
  | .delayMs _ => s

/-- The state after `emit(e)`: the event is appended to `WIRE` and its latch driven (R200). -/
def emitted (e : TransportEvent) (s : State) : State := driveLatch e { s with wire := s.wire ++ [e] }

/-- `emit(e)` (R200). -/
def emit (e : TransportEvent) : Op Unit := fun s => .ok () (emitted e s)

/-- `tx_ok(k)`: whether the k-th transmit succeeds (R7, R203; log 5). -/
def txOk (s : State) (k : Nat) : Bool := !s.txFails.contains k

/-- What a failed transmit leaves: `PSTATE` and `MODE` are free values (R203; log 10). -/
def busLost (s : State) : State :=
  { s with
    pstate := Config.freePState s.draws, mode := Config.freeMode s.draws, draws := s.draws + 1,
    status := statusByte .errBus }

/-- `tx(e)` (R203): the attempt is recorded, and if it fails the operation ends with ERR_BUS. -/
def tx (e : TransportEvent) : Op Unit := fun s =>
  if txOk (emitted e s) (emitted e s).txCount then .ok () (emitted e s)
  else .error .ended (busLost (emitted e s))

/-- The command framing `CMD(c)` (R201). -/
def sendCmd (c : Byte) : Op Unit := do
  emit .pinSelectLow
  emit .pinModeCommand
  tx (.transmitByte c)
  emit .pinSelectHigh

/-- The data framing `DAT(d)` (R202). -/
def sendDat (d : Byte) : Op Unit := do
  emit .pinSelectLow
  emit .pinModeData
  tx (.transmitByte d)
  emit .pinSelectHigh

/-- The bulk framing `BULK(data, n)` (R224). -/
def sendBulk (data : List Byte) (n : Nat) : Op Unit := do
  emit .pinSelectLow
  emit .pinModeData
  tx (.transmitArray data n)
  emit .pinSelectHigh

/-! Register writes -/

/-- `PSTATE <- p` (R206). -/
def setPState (p : PState) : Op Unit := fun s => .ok () { s with pstate := p }

/-- `MODE <- m` (R212). -/
def setModeReg (m : Mode) : Op Unit := fun s => .ok () { s with mode := m }

end Sys2Proof.Machine
end

