-- ==== Sys2Proof/Machine/Bitmaps.lean ====
section
/-! DEFINITION. DRAW_BITMAP_8BPP, DRAW_BITMAP_4BPP (43_bitmaps.md). -/

namespace Sys2Proof.Machine

/-- One pixel of the 8-bit blit, at row `j`, column `i`: its byte is read even when the pixel is dropped (R170, R172). -/
def blit8Pixel (x0 y0 w p : Nat) (ji : Nat × Nat) : Op Unit := do
  let b ← assetRead (p + ji.1 * w + ji.2)
  setPixel (x0 + ji.2) (y0 + ji.1) ((highNibble b).setWidth 8)

/-- One pixel of the packed blit: pixel number `k = j·w + i` of the stream, high nibble first (R171). The two pixels of
a byte read it again; ASSET reads are idempotent (R57). -/
def blit4Pixel (x0 y0 w p : Nat) (ji : Nat × Nat) : Op Unit := do
  let k := ji.1 * w + ji.2
  let b ← assetRead (p + k / 2)
  setPixel (x0 + ji.2) (y0 + ji.1) ((sourceNibble k b).setWidth 8)

/-- DRAW_BITMAP_8BPP(x0, y0, w, h, source): R170. -/
def execDrawBitmap8bpp (x0 y0 w h : Coord) (p : Word32) (s : State) : Host.Outcome State Fault Refusal :=
  finish (forEach (rowMajor w.toNat h.toNat) (blit8Pixel x0.toNat y0.toNat w.toNat p.toNat)) s

/-- DRAW_BITMAP_4BPP(x0, y0, w, h, source): R171. -/
def execDrawBitmap4bpp (x0 y0 w h : Coord) (p : Word32) (s : State) : Host.Outcome State Fault Refusal :=
  finish (forEach (rowMajor w.toNat h.toNat) (blit4Pixel x0.toNat y0.toNat w.toNat p.toNat)) s

end Sys2Proof.Machine
end

