-- ==== Sys2Proof/Machine/Lines.lean ====
section
/-! DEFINITION. DRAW_VLINE, DRAW_HLINE, DRAW_LINE, DRAW_AA_LINE (41_lines.md). A rasteriser is the list of the pixels
it writes, in the order it writes them; no pixel depends on FB. -/

namespace Sys2Proof.Machine

/-- The pixels of `draw_vline(x, y0, y1)`: endpoints in either order (R130). -/
def vlinePixels (x y0 y1 : Nat) : List (Int × Int) :=
  (upTo (min y0 y1) (max y0 y1)).map fun (y : Nat) => ((x : Int), (y : Int))

/-- The pixels of `draw_hline(y, x0, x1)`: endpoints in either order (R131). -/
def hlinePixels (y x0 x1 : Nat) : List (Int × Int) :=
  (upTo (min x0 x1) (max x0 x1)).map fun (x : Nat) => ((x : Int), (y : Int))

/-- The walked line of R133: transposed if steep, then ordered so that x increases. -/
structure Walk where
  steep : Bool
  x0 : Int
  y0 : Int
  x1 : Int
  y1 : Int
  deriving DecidableEq, Repr

/-- Steep (R134): `|y1 − y0| > |x1 − x0|` on the operands as given. -/
def isSteep (x0 y0 x1 y1 : Nat) : Bool :=
  ((x1 : Int) - x0).natAbs < ((y1 : Int) - y0).natAbs

/-- Step 1 of `bresenham`: transposition first, ordering second (R133). -/
def walkOf (x0 y0 x1 y1 : Nat) : Walk :=
  let steep := isSteep x0 y0 x1 y1
  let u0 := if steep then y0 else x0
  let v0 := if steep then x0 else y0
  let u1 := if steep then y1 else x1
  let v1 := if steep then x1 else y1
  if u0 > u1 then ⟨steep, u1, v1, u0, v0⟩ else ⟨steep, u0, v0, u1, v1⟩

/-- A pixel of the walk, un-transposed (R135). -/
def unTranspose (steep : Bool) (x y : Int) : Int × Int := if steep then (y, x) else (x, y)

/-- Step 2 of `bresenham` (R135): `n` more pixels from `(x, y)` with the accumulator at `err`. The pixel is written
before the accumulator is updated; `err < 0` is the strict test. -/
def bresenhamWalk (steep : Bool) (dx dy ystep : Int) : Nat → Int → Int → Int → List (Int × Int)
  | 0, _, _, _ => []
  | n + 1, x, y, err =>
    unTranspose steep x y ::
      (if err - dy < 0 then bresenhamWalk steep dx dy ystep n (x + 1) (y + ystep) (err - dy + dx)
       else bresenhamWalk steep dx dy ystep n (x + 1) y (err - dy))

/-- The pixels of `bresenham(x0, y0, x1, y1)` (R133 to R135). -/
def bresenhamPixels (x0 y0 x1 y1 : Nat) : List (Int × Int) :=
  let k := walkOf x0 y0 x1 y1
  let dx := k.x1 - k.x0
  let dy := ((k.y1 - k.y0).natAbs : Int)
  let ystep := if k.y0 < k.y1 then 1 else -1
  bresenhamWalk k.steep dx dy ystep (dx.toNat + 1) k.x0 k.y0 (dx / 2)

/-- The pixels of DRAW_LINE: vertical first, then horizontal, then general (R132). -/
def linePixels (x0 y0 x1 y1 : Nat) : List (Int × Int) :=
  if x0 = x1 then vlinePixels x0 y0 y1
  else if y0 = y1 then hlinePixels y0 x0 x1
  else bresenhamPixels x0 y0 x1 y1

/-- DRAW_VLINE(x, y0, y1, brightness): R130. -/
def execDrawVLine (x y0 y1 : Coord) (v : Byte) (s : State) : Host.Outcome State Fault Refusal :=
  finish (plotAll (vlinePixels x.toNat y0.toNat y1.toNat) v) s

/-- DRAW_HLINE(y, x0, x1, brightness): R131. -/
def execDrawHLine (y x0 x1 : Coord) (v : Byte) (s : State) : Host.Outcome State Fault Refusal :=
  finish (plotAll (hlinePixels y.toNat x0.toNat x1.toNat) v) s

/-- DRAW_LINE(x0, y0, x1, y1, brightness): R132. -/
def execDrawLine (x0 y0 x1 y1 : Coord) (v : Byte) (s : State) : Host.Outcome State Fault Refusal :=
  finish (plotAll (linePixels x0.toNat y0.toNat x1.toNat y1.toNat) v) s

/-! The antialiased line -/

/-- The pixel writes of a list, in order, each with its own level. -/
def plotLevels (l : List LevelPixel) : Op Unit := forEach l fun p => plot p.1.1 p.1.2 (p.2.setWidth 8)

/-- `floor(b·t)` for the weight `t = num / den` (R141); truncation to 4 bits. -/
def weighted (b : Nibble) (num den : Int) : Nibble := BitVec.ofInt 4 ((b.toNat : Int) * num / den)

/-- The two pixels of one column of the reference walk: `iy = y0 + (i·dy)/dx` is the running intersection after `i`
steps, in exact rationals over `dx`; the pixel at its floor weighs `1 − frac`, the one after it `frac` (R141). -/
def aaColumn (k : Walk) (b : Nibble) (i : Nat) : List LevelPixel :=
  let dx := k.x1 - k.x0
  let num := k.y0 * dx + (i : Int) * (k.y1 - k.y0)
  let fl := num / dx
  let fr := num - fl * dx
  [(unTranspose k.steep (k.x0 + i) fl, weighted b (dx - fr) dx),
   (unTranspose k.steep (k.x0 + i) (fl + 1), weighted b fr dx)]

/-- An end pixel pair of the reference instance: weight one half on the end point, 0 beside it (R141). -/
def aaEnd (steep : Bool) (b : Nibble) (x y : Int) : List LevelPixel :=
  [(unTranspose steep x y, weighted b 1 2), (unTranspose steep x (y + 1), 0)]

/-- The pixel writes of `AA_REF` (R141), in order: both end pairs, then the columns between them. -/
def aaReference (x0 y0 x1 y1 : Nat) (b : Nibble) : List LevelPixel :=
  let k := walkOf x0 y0 x1 y1
  aaEnd k.steep b k.x0 k.y0 ++ aaEnd k.steep b k.x1 k.y1
    ++ (List.range' 1 ((k.x1 - k.x0).toNat - 1)).flatMap (aaColumn k b)

/-- The pixel writes of the configured `AA_LINE_FN`: the reference instance (R141), or any instance, of which
R140 (b) and (f) are assumed and nothing else (log 12). -/
def aaPixelWrites (x0 y0 x1 y1 : Nat) (b : Nibble) (s : State) : List LevelPixel :=
  match s.cfg.aaLine with
  | .reference => aaReference x0 y0 x1 y1 b
  | .anyInstance => Config.aaLineFn.writes ⟨x0, y0, x1, y1, b, s.w.toNat, s.h.toNat⟩ s.fb.read

/-- `AA_LINE_FN(x0, y0, x1, y1, b)`: it changes FB only through `plot` (R140 (b)). -/
def aaLine (x0 y0 x1 y1 : Nat) (b : Nibble) : Op Unit := do
  let s ← get
  plotLevels (aaPixelWrites x0 y0 x1 y1 b s)

/-- DRAW_AA_LINE(x0, y0, x1, y1, brightness): R138; illegal without `HAS_AA_LINE` (R86), plain for a degenerate line
(R139). -/
def execDrawAaLine (x0 y0 x1 y1 : Coord) (v : Byte) (s : State) : Host.Outcome State Fault Refusal :=
  if s.cfg.hasAaLine then
    if x0 = x1 then finish (plotAll (vlinePixels x0.toNat y0.toNat y1.toNat) v) s
    else if y0 = y1 then finish (plotAll (hlinePixels y0.toNat x0.toNat x1.toNat) v) s
    else finish (aaLine x0.toNat y0.toNat x1.toNat y1.toNat (lowNibble v)) s
  else .next (complete .errIllegal s)

end Sys2Proof.Machine
end

