-- ==== Sys2Proof/Machine/Shapes.lean ====
section
/-! DEFINITION. DRAW_RECT, DRAW_RECT_FILLED, DRAW_CIRCLE (42_shapes.md). -/

namespace Sys2Proof.Machine

/-- The four edges of a rectangle: left, right, top, bottom (R150). -/
def rectPixels (x0 y0 x1 y1 : Nat) : List (Int × Int) :=
  vlinePixels x0 y0 y1 ++ vlinePixels x1 y0 y1 ++ hlinePixels y0 x0 x1 ++ hlinePixels y1 x0 x1

/-- The nested inclusive loop of DRAW_RECT_FILLED; empty when either pair of bounds is reversed (R151, R152). -/
def filledPixels (x0 y0 x1 y1 : Nat) : List (Int × Int) :=
  (upTo x0 x1).flatMap fun i => (upTo y0 y1).map fun (j : Nat) => ((i : Int), (j : Int))

/-- The working values of the circle loop (R155). -/
structure Octant where
  x : Int
  y : Int
  f : Int
  ddFx : Int
  ddFy : Int
  deriving DecidableEq, Repr

/-- The initial values (R155). -/
def octantStart (r : Nat) : Octant := ⟨0, r, 1 - r, 1, -2 * r⟩

/-- `octant_step()` (R156): the test of `f` uses the value the previous step left and comes before `x` advances. -/
def octantStep (o : Octant) : Octant :=
  let y := if 0 ≤ o.f then o.y - 1 else o.y
  let ddFy := if 0 ≤ o.f then o.ddFy + 2 else o.ddFy
  let f := if 0 ≤ o.f then o.f + ddFy else o.f
  ⟨o.x + 1, y, f + (o.ddFx + 2), o.ddFx + 2, ddFy⟩

/-- `axis_points` (R154). -/
def axisPoints (cx cy r : Int) : List (Int × Int) := [(cx, cy + r), (cx, cy - r), (cx + r, cy), (cx - r, cy)]

/-- `eight_points` (R157). -/
def eightPoints (cx cy x y : Int) : List (Int × Int) :=
  [(cx + x, cy + y), (cx - x, cy + y), (cx + x, cy - y), (cx - x, cy - y),
   (cx + y, cy + x), (cx - y, cy + x), (cx + y, cy - x), (cx - y, cy - x)]

/-- The loop of DRAW_CIRCLE: while `x < y`, a step and its eight points (R153). The first argument bounds the number of
steps; `x` grows and `y` never does, so `r` of them are enough (`Laws/Shapes.lean`). -/
def octantPixels (cx cy : Int) : Nat → Octant → List (Int × Int)
  | 0, _ => []
  | n + 1, o =>
    if o.x < o.y then
      eightPoints cx cy (octantStep o).x (octantStep o).y ++ octantPixels cx cy n (octantStep o)
    else []

/-- The pixels of DRAW_CIRCLE (R153). -/
def circlePixels (cx cy r : Nat) : List (Int × Int) :=
  axisPoints cx cy r ++ octantPixels cx cy r (octantStart r)

/-- DRAW_RECT(x0, y0, x1, y1, brightness): R150. -/
def execDrawRect (x0 y0 x1 y1 : Coord) (v : Byte) (s : State) : Host.Outcome State Fault Refusal :=
  finish (plotAll (rectPixels x0.toNat y0.toNat x1.toNat y1.toNat) v) s

/-- DRAW_RECT_FILLED(x0, y0, x1, y1, brightness): R151. -/
def execDrawRectFilled (x0 y0 x1 y1 : Coord) (v : Byte) (s : State) : Host.Outcome State Fault Refusal :=
  finish (plotAll (filledPixels x0.toNat y0.toNat x1.toNat y1.toNat) v) s

/-- DRAW_CIRCLE(x0, y0, r, brightness): R153. -/
def execDrawCircle (x0 y0 r : Coord) (v : Byte) (s : State) : Host.Outcome State Fault Refusal :=
  finish (plotAll (circlePixels x0.toNat y0.toNat r.toNat) v) s

end Sys2Proof.Machine
end

