-- ==== Sys2Proof/Machine/Text.lean ====
section
/-! DEFINITION. SELECT_FONT, DRAW_CHAR, DRAW_TEXT (44_text.md). -/

namespace Sys2Proof.Machine

/-- One bit of a glyph at (row, column): its blob byte is fetched, and a set bit plots (R60, R182). -/
def glyphPixel (f : Font) (g : Glyph) (x y : Int) (v : Byte) (rc : Nat × Nat) : Op Unit := do
  let k := rc.1 * g.width.toNat + rc.2
  let b ← fontByte f (g.bitmapOffset.toNat + k / 8)
  if glyphBit k b then plot (x + g.xOffset.toInt + rc.2) (y + g.yOffset.toInt + rc.1) v else pure ()

/-- A glyph, row by row (R182). -/
def drawGlyph (f : Font) (g : Glyph) (x y : Int) (v : Byte) : Op Unit :=
  forEach (rowMajor g.width.toNat g.height.toNat) (glyphPixel f g x y v)

/-- `draw_char(c, x, y, v)` (R182): the advance; nothing without a font (R181) or outside it (R184). -/
def drawCharOp (c : Byte) (x y : Int) (v : Byte) : Op Nat := do
  let s ← get
  if s.fontValid then
    match s.cfg.fontRom[s.fontSel.toNat]? with
    | none => refuse .noSuchFont
    | some f =>
      if c.toNat < f.first.toNat ∨ f.last.toNat < c.toNat then
        pure 0
      else
        match f.glyphs[c.toNat - f.first.toNat]? with
        | none => refuse .noSuchGlyph
        | some g =>
          drawGlyph f g x y v
          pure g.xAdvance.toNat
  else
    pure 0

/-- The loop of DRAW_TEXT over the rest of ASSET: to the zero byte, or to the fault at ASSET's end (R185). The cursor is
an integer and never wraps (R186). An accepted ASSET ends at or before address `2^32` (log 23). -/
def drawString : List Byte → Int → Int → Byte → Op Unit
  | [], _, _, _ => raiseFault .assetOverrun
  | ch :: rest, cx, y, v =>
    if ch = 0 then
      pure ()
    else do
      let adv ← drawCharOp ch cx y v
      drawString rest (cx + adv) y v

/-- SELECT_FONT(font): R180. -/
def execSelectFont (p : Word32) (s : State) : Host.Outcome State Fault Refusal :=
  if p.toNat < s.cfg.fontRom.length then .next (complete .ok { s with fontSel := p, fontValid := true })
  else .next (complete .ok { s with fontValid := false })

/-- DRAW_CHAR(c, x, y, brightness): R182. -/
def execDrawChar (c : Byte) (x y : Coord) (v : Byte) (s : State) : Host.Outcome State Fault Refusal :=
  finish (do let _ ← drawCharOp c x.toNat y.toNat v) s

/-- DRAW_TEXT(text, x, y, brightness): R185; with no font the string is not read (R181). -/
def execDrawText (p : Word32) (x y : Coord) (v : Byte) (s : State) : Host.Outcome State Fault Refusal :=
  if s.fontValid then finish (drawString (s.cfg.asset.drop p.toNat) x.toNat y.toNat v) s
  else .next (complete .ok s)

end Sys2Proof.Machine
end

