-- ==== Sys2Proof/Machine/Abandon.lean ====
section
/-! DEFINITION. What an operation that reset abandons leaves in FB (R280, R281): the first of its writes. -/

namespace Sys2Proof.Machine

/-! The sources of blits and glyphs, item by item -/

/-- What the source of one item gives: `none` when it does not exist, else the pixel it writes, if any. -/
abbrev Source := Option (Option LevelPixel)

/-- The pixels of the items before the first one whose source does not exist. -/
def sourcePixels : List Source → List LevelPixel
  | [] => []
  | none :: _ => []
  | some none :: l => sourcePixels l
  | some (some p) :: l => p :: sourcePixels l

/-- The source of a pixel of an 8-bit blit (R170). -/
def blit8Source (asset : List Byte) (x0 y0 w p : Nat) (ji : Nat × Nat) : Source :=
  asset[p + ji.1 * w + ji.2]?.map fun b => some ((((x0 + ji.2 : Nat) : Int), ((y0 + ji.1 : Nat) : Int)), highNibble b)

/-- The source of a pixel of a packed 4-bit blit (R171). -/
def blit4Source (asset : List Byte) (x0 y0 w p : Nat) (ji : Nat × Nat) : Source :=
  asset[p + (ji.1 * w + ji.2) / 2]?.map fun b =>
    some ((((x0 + ji.2 : Nat) : Int), ((y0 + ji.1 : Nat) : Int)), sourceNibble (ji.1 * w + ji.2) b)

/-- The source of a bit of a glyph (R60, R182). -/
def glyphSource (f : Font) (g : Glyph) (x y : Int) (v : Byte) (rc : Nat × Nat) : Source :=
  f.bitmap[g.bitmapOffset.toNat + (rc.1 * g.width.toNat + rc.2) / 8]?.map fun b =>
    if glyphBit (rc.1 * g.width.toNat + rc.2) b then
      some ((x + g.xOffset.toInt + rc.2, y + g.yOffset.toInt + rc.1), lowNibble v)
    else none

/-- The glyph the active font has for a character: none without a font, outside it (R181, R184), or where the font
table is ill-formed. -/
def activeGlyph (s : State) (c : Byte) : Option (Font × Glyph) :=
  if s.fontValid then
    match s.cfg.fontRom[s.fontSel.toNat]? with
    | none => none
    | some f =>
      if c.toNat < f.first.toNat ∨ f.last.toNat < c.toNat then none
      else (f.glyphs[c.toNat - f.first.toNat]?).map fun g => (f, g)
  else none

/-- The sources of a character, and its advance (R182). -/
def charSources (s : State) (c : Byte) (x y : Int) (v : Byte) : List Source × Nat :=
  match activeGlyph s c with
  | none => ([], 0)
  | some (f, g) =>
    ((rowMajor g.width.toNat g.height.toNat).map (glyphSource f g x y v), g.xAdvance.toNat)

/-- The sources of a string, to its zero byte or to the end of ASSET (R185). -/
def textSources (s : State) : List Byte → Int → Int → Byte → List Source
  | [], _, _, _ => [none]
  | ch :: rest, cx, y, v =>
    if ch = 0 then []
    else (charSources s ch cx y v).1 ++ textSources s rest (cx + (charSources s ch cx y v).2) y v

/-! The writes of an operation, in order -/

/-- The same level on every pixel of a list. -/
def flatLevels (ps : List (Int × Int)) (v : Byte) : List LevelPixel := ps.map fun p => (p, lowNibble v)

/-- The pixel writes an operation comes to, in order, those that are dropped among them; CLEAR makes none, and no
operation of the wire does. -/
def pixelWrites (i : Instr) (s : State) : List LevelPixel :=
  match i with
  | .setPixel x y v => flatLevels [((x.toNat : Int), (y.toNat : Int))] v
  | .drawVLine x y0 y1 v => flatLevels (vlinePixels x.toNat y0.toNat y1.toNat) v
  | .drawHLine y x0 x1 v => flatLevels (hlinePixels y.toNat x0.toNat x1.toNat) v
  | .drawLine x0 y0 x1 y1 v => flatLevels (linePixels x0.toNat y0.toNat x1.toNat y1.toNat) v
  | .drawAaLine x0 y0 x1 y1 v =>
    if s.cfg.hasAaLine then
      if x0 = x1 ∨ y0 = y1 then flatLevels (linePixels x0.toNat y0.toNat x1.toNat y1.toNat) v
      else aaPixelWrites x0.toNat y0.toNat x1.toNat y1.toNat (lowNibble v) s
    else []
  | .drawRect x0 y0 x1 y1 v => flatLevels (rectPixels x0.toNat y0.toNat x1.toNat y1.toNat) v
  | .drawRectFilled x0 y0 x1 y1 v => flatLevels (filledPixels x0.toNat y0.toNat x1.toNat y1.toNat) v
  | .drawCircle x0 y0 r v => flatLevels (circlePixels x0.toNat y0.toNat r.toNat) v
  | .drawBitmap8bpp x0 y0 w h p =>
    sourcePixels ((rowMajor w.toNat h.toNat).map (blit8Source s.cfg.asset x0.toNat y0.toNat w.toNat p.toNat))
  | .drawBitmap4bpp x0 y0 w h p =>
    sourcePixels ((rowMajor w.toNat h.toNat).map (blit4Source s.cfg.asset x0.toNat y0.toNat w.toNat p.toNat))
  | .drawChar c x y v => sourcePixels (charSources s c x.toNat y.toNat v).1
  | .drawText p x y v =>
    if s.fontValid then sourcePixels (textSources s (s.cfg.asset.drop p.toNat) x.toNat y.toNat v) else []
  | .configure .. | .clear _ | .selectFont _ | .sendCommand _ | .sendData _ | .initDisplay | .setMode _ | .sleepOn
  | .sleepOff | .setContrast _ | .setBrightness _ | .uploadGrayscale _ | .resetGrayscale | .setWindow .. | .transfer ..
  | .push .. => []

/-- How many writes to FB an operation comes to: byte writes for CLEAR, pixel writes for every other. -/
def writeCount (i : Instr) (s : State) : Nat :=
  match i with
  | .clear _ => pixelBytes s.w s.h
  | _ => (pixelWrites i s).length

/-- FB as a piece of pseudocode leaves it, however it ends. -/
def fbLeftBy (m : Op Unit) (s : State) : Memory :=
  match m s with
  | .ok _ t => t.fb
  | .error _ t => t.fb

/-- FB after the first `n` writes of an operation (R281): what is written stays written. -/
def fbAbandoned (n : Nat) (i : Instr) (s : State) : Memory :=
  match i with
  | .clear v => fbLeftBy (fbFill (min n (pixelBytes s.w s.h)) (fillByte v)) s
  | _ => fbLeftBy (plotLevels ((pixelWrites i s).take n)) s

end Sys2Proof.Machine
end

