-- ==== Sys2Proof/Decode.lean ====
section
/-! DEFINITION. Decoding and encoding of descriptors (R80 to R87). Decoding is total; it rejects by name. -/

namespace Sys2Proof

/-- Why a descriptor is no operation. -/
inductive DecodeError where
  /-- A byte string that is not 14 bytes long is no descriptor (R80). -/
  | wrongLength (n : Nat)
  /-- The opcode is not in the table of R84 (R86). -/
  | illegalOpcode (op : Byte)
  deriving DecidableEq, Repr

/-- `op`, bits 7:0 (R81). -/
def fieldOp (d : Descriptor) : Byte := d.extractLsb' 0 8
/-- `v`, bits 15:8 (R81). -/
def fieldV (d : Descriptor) : Byte := d.extractLsb' 8 8
/-- `a`, bits 31:16 (R81). -/
def fieldA (d : Descriptor) : Coord := d.extractLsb' 16 16
/-- `b`, bits 47:32 (R81). -/
def fieldB (d : Descriptor) : Coord := d.extractLsb' 32 16
/-- `c`, bits 63:48 (R81). -/
def fieldC (d : Descriptor) : Coord := d.extractLsb' 48 16
/-- `d`, bits 79:64 (R81). -/
def fieldD (d : Descriptor) : Coord := d.extractLsb' 64 16
/-- `n`, bits 79:48, the same bits as `d` above `c` (R21, R81). -/
def fieldN (d : Descriptor) : Word32 := d.extractLsb' 48 32
/-- `p`, bits 111:80 (R81). -/
def fieldP (d : Descriptor) : Word32 := d.extractLsb' 80 32

/-- The low byte of a 16-bit field, for the fields an operation reads in part (R83). -/
def lowByte (x : Coord) : Byte := x.extractLsb' 0 8

/-- The operation a descriptor encodes, by its opcode alone (R84, R85, R87); every other opcode is illegal (R86).
Whether the hardware has DRAW_AA_LINE is no matter of decoding: its meaning checks `HAS_AA_LINE`. -/
def decode (d : Descriptor) : Except DecodeError Instr :=
  let v := fieldV d
  let a := fieldA d
  let b := fieldB d
  let c := fieldC d
  let e := fieldD d
  let p := fieldP d
  match (fieldOp d).toNat with
  | 0x10 => .ok (.configure a b)
  | 0x11 => .ok (.clear v)
  | 0x12 => .ok (.setPixel a b v)
  | 0x20 => .ok (.drawVLine a b c v)
  | 0x21 => .ok (.drawHLine a b c v)
  | 0x22 => .ok (.drawLine a b c e v)
  | 0x23 => .ok (.drawAaLine a b c e v)
  | 0x24 => .ok (.drawRect a b c e v)
  | 0x25 => .ok (.drawRectFilled a b c e v)
  | 0x26 => .ok (.drawCircle a b c v)
  | 0x27 => .ok (.drawBitmap8bpp a b c e p)
  | 0x28 => .ok (.drawBitmap4bpp a b c e p)
  | 0x30 => .ok (.selectFont p)
  | 0x31 => .ok (.drawChar (lowByte c) a b v)
  | 0x32 => .ok (.drawText p a b v)
  | 0x40 => .ok (.sendCommand v)
  | 0x41 => .ok (.sendData v)
  | 0x42 => .ok .initDisplay
  | 0x43 => .ok (.setMode (v.extractLsb' 0 2))
  | 0x44 => .ok .sleepOn
  | 0x45 => .ok .sleepOff
  | 0x46 => .ok (.setContrast v)
  | 0x47 => .ok (.setBrightness v)
  | 0x48 => .ok (.uploadGrayscale p)
  | 0x49 => .ok .resetGrayscale
  | 0x4A => .ok (.setWindow (lowByte a) (lowByte b) (lowByte c) (lowByte e))
  | 0x4B => .ok (.transfer p (fieldN d))
  | 0x50 => .ok (.push a b)
  | _ => .error (.illegalOpcode (fieldOp d))

/-- The number that bytes stand for, least significant byte first (R82). -/
def leValue : List Byte → Nat
  | [] => 0
  | b :: l => b.toNat + 256 * leValue l

/-- The `n` bytes of a number, least significant byte first (R82). -/
def leBytes : Nat → Nat → List Byte
  | 0, _ => []
  | n + 1, w => BitVec.ofNat 8 w :: leBytes n (w / 256)

/-- A descriptor carried as bytes: exactly 14, byte k holding bits 8k+7 : 8k (R80, R82). -/
def decodeBytes (bs : List Byte) : Except DecodeError Instr :=
  if bs.length = 14 then decode (BitVec.ofNat 112 (leValue bs)) else .error (.wrongLength bs.length)

/-- What the decoder reads from the descriptor whose bits are `w`, carried as its 14 bytes. -/
def decodeTableWord (nbits w : Nat) : Option Instr :=
  match decodeBytes (leBytes 14 (w % 2 ^ nbits)) with
  | .ok i => some i
  | .error _ => none

/-- The opcode of an operation (R84). -/
def Instr.opcode : Instr → Byte
  | .configure .. => 0x10
  | .clear .. => 0x11
  | .setPixel .. => 0x12
  | .drawVLine .. => 0x20
  | .drawHLine .. => 0x21
  | .drawLine .. => 0x22
  | .drawAaLine .. => 0x23
  | .drawRect .. => 0x24
  | .drawRectFilled .. => 0x25
  | .drawCircle .. => 0x26
  | .drawBitmap8bpp .. => 0x27
  | .drawBitmap4bpp .. => 0x28
  | .selectFont .. => 0x30
  | .drawChar .. => 0x31
  | .drawText .. => 0x32
  | .sendCommand .. => 0x40
  | .sendData .. => 0x41
  | .initDisplay => 0x42
  | .setMode .. => 0x43
  | .sleepOn => 0x44
  | .sleepOff => 0x45
  | .setContrast .. => 0x46
  | .setBrightness .. => 0x47
  | .uploadGrayscale .. => 0x48
  | .resetGrayscale => 0x49
  | .setWindow .. => 0x4A
  | .transfer .. => 0x4B
  | .push .. => 0x50

/-- The opcodes of R84, in the table's order. -/
def opcodes : List Byte :=
  [0x10, 0x11, 0x12, 0x20, 0x21, 0x22, 0x23, 0x24, 0x25, 0x26, 0x27, 0x28, 0x30, 0x31, 0x32,
   0x40, 0x41, 0x42, 0x43, 0x44, 0x45, 0x46, 0x47, 0x48, 0x49, 0x4A, 0x4B, 0x50]

/-- A descriptor from its fields (R81); `dc` is the 32 bits of `d` above `c`, that is `n`. -/
def packFields (op v : Byte) (a b : Coord) (dc : Word32) (p : Word32) : Descriptor :=
  p ++ dc ++ b ++ a ++ v ++ op

/-- The descriptor of an operation (R81, R84, R85), with 0 in every field and every bit the operation ignores. -/
def encode (i : Instr) : Descriptor :=
  match i with
  | .configure width height => packFields i.opcode 0 width height 0 0
  | .clear v => packFields i.opcode v 0 0 0 0
  | .setPixel x y v => packFields i.opcode v x y 0 0
  | .drawVLine x y0 y1 v => packFields i.opcode v x y0 (y1.setWidth 32) 0
  | .drawHLine y x0 x1 v => packFields i.opcode v y x0 (x1.setWidth 32) 0
  | .drawLine x0 y0 x1 y1 v => packFields i.opcode v x0 y0 (y1 ++ x1) 0
  | .drawAaLine x0 y0 x1 y1 v => packFields i.opcode v x0 y0 (y1 ++ x1) 0
  | .drawRect x0 y0 x1 y1 v => packFields i.opcode v x0 y0 (y1 ++ x1) 0
  | .drawRectFilled x0 y0 x1 y1 v => packFields i.opcode v x0 y0 (y1 ++ x1) 0
  | .drawCircle x0 y0 r v => packFields i.opcode v x0 y0 (r.setWidth 32) 0
  | .drawBitmap8bpp x0 y0 w h p => packFields i.opcode 0 x0 y0 (h ++ w) p
  | .drawBitmap4bpp x0 y0 w h p => packFields i.opcode 0 x0 y0 (h ++ w) p
  | .selectFont p => packFields i.opcode 0 0 0 0 p
  | .drawChar c x y v => packFields i.opcode v x y (c.setWidth 32) 0
  | .drawText p x y v => packFields i.opcode v x y 0 p
  | .sendCommand v => packFields i.opcode v 0 0 0 0
  | .sendData v => packFields i.opcode v 0 0 0 0
  | .initDisplay => packFields i.opcode 0 0 0 0 0
  | .setMode m => packFields i.opcode (m.setWidth 8) 0 0 0 0
  | .sleepOn => packFields i.opcode 0 0 0 0 0
  | .sleepOff => packFields i.opcode 0 0 0 0 0
  | .setContrast v => packFields i.opcode v 0 0 0 0
  | .setBrightness v => packFields i.opcode v 0 0 0 0
  | .uploadGrayscale p => packFields i.opcode 0 0 0 0 p
  | .resetGrayscale => packFields i.opcode 0 0 0 0 0
  | .setWindow sc ec sr er =>
    packFields i.opcode 0 (sc.setWidth 16) (ec.setWidth 16) (er.setWidth 16 ++ sr.setWidth 16) 0
  | .transfer p n => packFields i.opcode 0 0 0 n p
  | .push originX originY => packFields i.opcode 0 originX originY 0 0

end Sys2Proof
end

