-- ==== Sys2Proof/Machine/Framebuffer.lean ====
section
/-! DEFINITION. CONFIGURE, CLEAR, SET_PIXEL (40_framebuffer.md). -/

namespace Sys2Proof.Machine

/-- CONFIGURE(width, height): R110. -/
def execConfigure (width height : Coord) (s : State) : Host.Outcome State Fault Refusal :=
  .next (complete .ok { s with w := width, h := height })

/-- CLEAR(brightness): R111. -/
def execClear (v : Byte) (s : State) : Host.Outcome State Fault Refusal :=
  finish (fbFill (pixelBytes s.w s.h) (fillByte v)) s

/-- SET_PIXEL(x, y, brightness): R113. -/
def execSetPixel (x y : Coord) (v : Byte) (s : State) : Host.Outcome State Fault Refusal :=
  finish (setPixel x.toNat y.toNat v) s

end Sys2Proof.Machine
end

