-- ==== Sys2Proof/Machine/Protocol.lean ====
section
/-! DEFINITION. SEND_COMMAND .. TRANSFER (45_protocol.md) and PUSH (46_transfer_orchestrator.md). -/

namespace Sys2Proof.Machine

/-- One item of `INIT_BODY` (R209, R210). -/
def sendInitItem (i : InitItem) : Op Unit := if i.isData then sendDat i.byte else sendCmd i.byte

/-- The sequence of INITIALIZE (R209). -/
def initSequence (c : Config) : Op Unit := do
  setPState .reset
  emit .pinResetLow
  emit (.delayMs tResetLowMs)
  emit .pinResetHigh
  emit (.delayMs tSettleMs)
  forEach c.initBody sendInitItem
  setModeReg .normal
  emit (.delayMs c.tStabMs)
  sendCmd c.cmd.displayOn
  setPState .awake
  emit (.delayMs tPostMs)

/-- `set_window(sc, ec, sr, er)` (R220). -/
def windowSequence (sc ec sr er : Byte) : Op Unit := do
  sendCmd cmdSetColumn
  sendDat (biasedColumn sc)
  sendDat (biasedColumn ec)
  sendCmd cmdSetRow
  sendDat sr
  sendDat er

/-- `transfer(p, n)` (R222): the command, then all the bytes read, then one bulk framing. -/
def transferSequence (c : Config) (p n : Nat) : Op Unit := do
  sendCmd c.cmd.writeRam
  let data ← fbReadOut p n
  sendBulk data n

/-- UPLOAD_GRAYSCALE after its table is read (R217): the whole range check before the first event (R218). -/
def uploadTable (c : Config) (t : List Byte) : Op Unit :=
  if t.any (fun b => grayMax < b.toNat) then endWith .errGrayRange
  else do
    sendCmd c.cmd.setGrayTable
    forEach t sendDat
    sendCmd c.cmd.enableGrayTable

/-- SEND_COMMAND(byte): R204. -/
def execSendCommand (v : Byte) (s : State) : Host.Outcome State Fault Refusal := finish (sendCmd v) s

/-- SEND_DATA(byte): R205. -/
def execSendData (v : Byte) (s : State) : Host.Outcome State Fault Refusal := finish (sendDat v) s

/-- INITIALIZE(): R208. -/
def execInitialize (s : State) : Host.Outcome State Fault Refusal := finish (initSequence s.cfg) s

/-- SET_MODE(mode): R212. -/
def execSetMode (m : BitVec 2) (s : State) : Host.Outcome State Fault Refusal :=
  finish (do sendCmd (modeCommand s.cfg.cmd (modeOf m)); setModeReg (modeOf m)) s

/-- SLEEP_ON(): R213. -/
def execSleepOn (s : State) : Host.Outcome State Fault Refusal :=
  finish (do sendCmd s.cfg.cmd.sleepOn; setPState .asleep) s

/-- SLEEP_OFF(): R214. -/
def execSleepOff (s : State) : Host.Outcome State Fault Refusal :=
  finish (do sendCmd s.cfg.cmd.sleepOff; setPState .awake) s

/-- SET_CONTRAST(level): R215. -/
def execSetContrast (v : Byte) (s : State) : Host.Outcome State Fault Refusal :=
  finish (do sendCmd s.cfg.cmd.setContrast; sendDat v) s

/-- SET_BRIGHTNESS(level): R216. -/
def execSetBrightness (v : Byte) (s : State) : Host.Outcome State Fault Refusal :=
  finish (do sendCmd s.cfg.cmd.setBrightness; sendDat (brightnessByte v)) s

/-- UPLOAD_GRAYSCALE(levels[16]): R217. -/
def execUploadGrayscale (p : Word32) (s : State) : Host.Outcome State Fault Refusal :=
  finish (do let t ← assetReadOut 16 p.toNat; uploadTable s.cfg t) s

/-- RESET_GRAYSCALE(): R219. -/
def execResetGrayscale (s : State) : Host.Outcome State Fault Refusal := finish (sendCmd s.cfg.cmd.defaultGray) s

/-- SET_WINDOW(startCol, endCol, startRow, endRow): R220. -/
def execSetWindow (startCol endCol startRow endRow : Byte) (s : State) : Host.Outcome State Fault Refusal :=
  finish (windowSequence startCol endCol startRow endRow) s

/-- TRANSFER(buffer, length): R222. -/
def execTransfer (p n : Word32) (s : State) : Host.Outcome State Fault Refusal :=
  finish (transferSequence s.cfg p.toNat n.toNat) s

/-- PUSH(originX, originY): R240. -/
def execPush (originX originY : Coord) (s : State) : Host.Outcome State Fault Refusal :=
  finish (do
    windowSequence s.cfg.fullWindow.startCol s.cfg.fullWindow.endCol s.cfg.fullWindow.startRow s.cfg.fullWindow.endRow
    transferSequence s.cfg (pushOffset s.cfg originX originY) (panelBytes s.cfg)) s

end Sys2Proof.Machine
end

