-- ==== Sys2Proof/Machine/Dispatch.lean ====
section
/-! DEFINITION. One arm per operation, each one call of its meaning. -/

namespace Sys2Proof.Machine

/-- The effect of an operation, from its first pseudocode line to its completion or fault (R250). -/
def exec (i : Instr) (s : State) : Host.Outcome State Fault Refusal :=
  match i with
  | .configure width height => Sys2Proof.Machine.execConfigure width height s
  | .clear v => Sys2Proof.Machine.execClear v s
  | .setPixel x y v => Sys2Proof.Machine.execSetPixel x y v s
  | .drawVLine x y0 y1 v => Sys2Proof.Machine.execDrawVLine x y0 y1 v s
  | .drawHLine y x0 x1 v => Sys2Proof.Machine.execDrawHLine y x0 x1 v s
  | .drawLine x0 y0 x1 y1 v => Sys2Proof.Machine.execDrawLine x0 y0 x1 y1 v s
  | .drawAaLine x0 y0 x1 y1 v => Sys2Proof.Machine.execDrawAaLine x0 y0 x1 y1 v s
  | .drawRect x0 y0 x1 y1 v => Sys2Proof.Machine.execDrawRect x0 y0 x1 y1 v s
  | .drawRectFilled x0 y0 x1 y1 v => Sys2Proof.Machine.execDrawRectFilled x0 y0 x1 y1 v s
  | .drawCircle x0 y0 r v => Sys2Proof.Machine.execDrawCircle x0 y0 r v s
  | .drawBitmap8bpp x0 y0 w h p => Sys2Proof.Machine.execDrawBitmap8bpp x0 y0 w h p s
  | .drawBitmap4bpp x0 y0 w h p => Sys2Proof.Machine.execDrawBitmap4bpp x0 y0 w h p s
  | .selectFont p => Sys2Proof.Machine.execSelectFont p s
  | .drawChar c x y v => Sys2Proof.Machine.execDrawChar c x y v s
  | .drawText p x y v => Sys2Proof.Machine.execDrawText p x y v s
  | .sendCommand v => Sys2Proof.Machine.execSendCommand v s
  | .sendData v => Sys2Proof.Machine.execSendData v s
  | .initDisplay => Sys2Proof.Machine.execInitialize s
  | .setMode m => Sys2Proof.Machine.execSetMode m s
  | .sleepOn => Sys2Proof.Machine.execSleepOn s
  | .sleepOff => Sys2Proof.Machine.execSleepOff s
  | .setContrast v => Sys2Proof.Machine.execSetContrast v s
  | .setBrightness v => Sys2Proof.Machine.execSetBrightness v s
  | .uploadGrayscale p => Sys2Proof.Machine.execUploadGrayscale p s
  | .resetGrayscale => Sys2Proof.Machine.execResetGrayscale s
  | .setWindow startCol endCol startRow endRow => Sys2Proof.Machine.execSetWindow startCol endCol startRow endRow s
  | .transfer p n => Sys2Proof.Machine.execTransfer p n s
  | .push originX originY => Sys2Proof.Machine.execPush originX originY s

end Sys2Proof.Machine
end

