-- ==== Sys2Proof/Machine/Sequencer.lean ====
section
/-! DEFINITION. How the block takes the host's descriptors one by one (R31, R32, R80, R256). -/

namespace Sys2Proof.Machine

/-- The descriptor the host presents next (R32). -/
def nextDescriptor (s : State) : Option Descriptor := s.program[s.pos]?

/-- The position advances by exactly 1 when an operation completes (R32). -/
def advance (s : State) : State := { s with pos := s.pos + 1 }

/-- The descriptor is latched into `OP` when the operation is accepted (R21). -/
def latchOp (d : Descriptor) (s : State) : State := { s with op := d }

/-- The operation a descriptor stands for on this hardware: a defined opcode, and one the hardware has (R86). -/
def legalInstr (hasAaLine : Bool) (d : Descriptor) : Option Instr :=
  match decode d with
  | .ok i => if i.wf hasAaLine then some i else none
  | .error _ => none

/-- After an operation: a fault does not complete, so the position stays (R32, R250). -/
def settle : Host.Outcome State Fault Refusal → Host.Outcome State Fault Refusal
  | .next t => if t.faulted then .next t else .next (advance t)
  | .fault r => .fault r
  | .refused r => .refused r

/-- One descriptor, accepted: an illegal one changes nothing but `STATUS` (R86; log 20), a legal one runs. -/
def runDescriptor (d : Descriptor) (s : State) : Host.Outcome State Fault Refusal :=
  match legalInstr s.cfg.hasAaLine d with
  | none => .next (advance (complete .errIllegal s))
  | some i => settle (exec i (latchOp d s))

/-- One descriptor, accepted, and reset asserted when its operation has come to `n` of its writes: the operation is
abandoned, neither completed nor faulted, and what it wrote to FB stays (R280, R281; log 13). -/
def abandonDescriptor (n : Nat) (d : Descriptor) (s : State) : Host.Outcome State Fault Refusal :=
  match legalInstr s.cfg.hasAaLine d with
  | none => .next (blockReset s)
  | some i => .next (blockReset { s with fb := fbAbandoned n i s })

/-- One step of the block. The reset input comes first (R280); a faulted block accepts nothing (R253, R256); with no
descriptor presented it is idle and keeps all state (R265; log 14); an ill-formed configuration is refused
(R187, R210, R240; log 15). -/
def sequenceStep (s : State) : Host.Outcome State Fault Refusal :=
  if s.resetIn then .next (blockReset s)
  else if s.faulted then .fault (.blockFaulted s.fcause)
  else
    match nextDescriptor s with
    | none => .next s
    | some d =>
      if s.cfg.wf then
        match s.resetDuring with
        | none => runDescriptor d s
        | some n => abandonDescriptor n d s
      else .refused .illFormedConfiguration

/-- A host's list with one descriptor put at a position, the places before it filled if the list is shorter. -/
def placeDescriptor (program : List Descriptor) (pos : Nat) (d : Descriptor) : List Descriptor :=
  program.take pos ++ List.replicate (pos - program.length) 0 ++ d :: program.drop (pos + 1)

end Sys2Proof.Machine
end

