-- ==== Sys2Proof/Machine/Step.lean ====
section
/-! DEFINITION. The step, and the placing of the descriptor it takes next. -/

namespace Sys2Proof.Machine

/-- One step: the descriptor the host presents next runs to completion (R31), or the reset input acts (R280). -/
def step (s : State) : Host.Outcome State Fault Refusal := sequenceStep s

/-- `s` with the descriptor whose bits are `w` presented next (R32, R80): it stands at the host's position. Nothing else
changes (log 1). -/
def State.withFetchWord (s : State) (nbits w : Nat) : State :=
  { s with program := placeDescriptor s.program s.pos (BitVec.ofNat 112 (w % 2 ^ nbits)) }

end Sys2Proof.Machine
end

