-- ==== Sys2Proof/Safety.lean ====
section
/-! DEFINITION. What counts as a safe run, and the vocabulary the claims use: the end of a run, the invariant of the
state, the caller's contract, nibbles of FB, the events of a framing. -/

namespace Sys2Proof.Machine

/-! The end of a run (R32, R253) -/

/-- The host's list is exhausted and no fault was raised: the final state of a run (R32). -/
def State.Final (s : State) : Prop := s.faulted = false ∧ s.program.length ≤ s.pos

/-- The run was ended by a fault: never a final state (R253). -/
def State.EndedByFault (s : State) : Prop := s.faulted = true

/-- The block takes the descriptor presented next, and reset does not abandon it. -/
def State.Accepting (s : State) : Prop :=
  s.resetIn = false ∧ s.resetDuring = none ∧ s.faulted = false ∧ s.cfg.wf = true

/-! The invariant -/

/-- The number of transmit events in a trace (R33). -/
def transmitCount (l : List TransportEvent) : Nat := (l.filter isTransmit).length

/-- The level of `CS` after a trace that began at reset (R30). -/
def csAfter (l : List TransportEvent) : Bool :=
  l.foldl (fun b e => match e with
    | .pinSelectLow => false
    | .pinSelectHigh => true
    | _ => b) true

/-- The level of `DC` after a trace that began at reset (R30). -/
def dcAfter (l : List TransportEvent) : Bool :=
  l.foldl (fun b e => match e with
    | .pinModeCommand => false
    | .pinModeData => true
    | _ => b) true

/-- The level of `RST` after a trace that began at reset (R30). -/
def rstAfter (l : List TransportEvent) : Bool :=
  l.foldl (fun b e => match e with
    | .pinResetLow => false
    | .pinResetHigh => true
    | _ => b) true

/-- What every state of every run meets. -/
structure State.Inv (s : State) : Prop where
  /-- FB is in canonical form. -/
  fbCanonical : s.fb.wf = true
  /-- FB has no byte at or above `FB_BYTES` (R34). -/
  fbBounded : ∀ c ∈ s.fb, c.1 < s.cfg.fbBytes
  /-- An active font is a record of `FONT_ROM` (R25). -/
  fontInTable : s.fontValid = true → s.fontSel.toNat < s.cfg.fontRom.length
  /-- `STATUS` holds a code that is produced (R251). -/
  statusLegal : s.status = 0 ∨ s.status = 1 ∨ s.status = 2 ∨ s.status = 3
  /-- A faulted block has a cause (R254). -/
  causeLegal : s.faulted = true → s.fcause = 1 ∨ s.fcause = 2 ∨ s.fcause = 3
  /-- `TXCOUNT` counts the transmits on `WIRE` (R33). -/
  txCounted : s.txCount = transmitCount s.wire
  /-- `CS` is the last level driven (R30). -/
  csDriven : s.cs = csAfter s.wire
  /-- `DC` is the last level driven (R30). -/
  dcDriven : s.dc = dcAfter s.wire
  /-- `RST` is the last level driven (R30). -/
  rstDriven : s.rst = rstAfter s.wire

/-! The caller's contract (R254, R283, R291) -/

/-- FB holds every pixel of the configured dimensions: `ceil(W·H/2) <= FB_BYTES` (R291). -/
def State.fits (s : State) : Bool := pixelBytes s.w s.h ≤ s.cfg.fbBytes

/-- A glyph's bit stream lies inside its font's blob (R59, R60). -/
def glyphInBlob (f : Font) (g : Glyph) : Bool :=
  g.width.toNat * g.height.toNat == 0
    || g.bitmapOffset.toNat + (g.width.toNat * g.height.toNat + 7) / 8 ≤ f.bitmap.length

/-- Every font is well-formed and every glyph's bits exist (R187). -/
def fontsSound (c : Config) : Bool := c.fontRom.all fun f => f.wf && f.glyphs.all (glyphInBlob f)

/-- What R254 asks of the caller for each operation. -/
def callerContract (i : Instr) (s : State) : Bool :=
  match i with
  | .clear _ | .setPixel .. | .drawVLine .. | .drawHLine .. | .drawLine .. | .drawAaLine .. | .drawRect ..
  | .drawRectFilled .. | .drawCircle .. => s.fits
  | .drawBitmap8bpp _ _ w h p =>
    s.fits && (w.toNat * h.toNat == 0 || p.toNat + w.toNat * h.toNat ≤ s.cfg.asset.length)
  | .drawBitmap4bpp _ _ w h p =>
    s.fits && (w.toNat * h.toNat == 0 || p.toNat + (w.toNat * h.toNat + 1) / 2 ≤ s.cfg.asset.length)
  | .drawChar .. => s.fits && fontsSound s.cfg
  | .drawText p _ _ _ => s.fits && fontsSound s.cfg && (s.cfg.asset.drop p.toNat).contains 0
  | .uploadGrayscale p => p.toNat + 16 ≤ s.cfg.asset.length
  | .transfer p n => n.toNat == 0 || p.toNat + n.toNat ≤ s.cfg.fbBytes
  | .push originX originY =>
    panelBytes s.cfg == 0 || pushOffset s.cfg originX originY + panelBytes s.cfg ≤ s.cfg.fbBytes
  | .configure .. | .selectFont _ | .sendCommand _ | .sendData _ | .initDisplay | .setMode _ | .sleepOn | .sleepOff
  | .setContrast _ | .setBrightness _ | .resetGrayscale | .setWindow .. => true

/-! Vocabulary of the claims -/

/-- The nibble with index `n` in a framebuffer memory (R53). -/
def nibbleAt (m : Memory) (n : Nat) : Nibble := getNibble n (m.read (n / 2))

/-- Pixel (x, y) lies in the logical framebuffer (R112). -/
def inFrame (s : State) (x y : Nat) : Prop := x < s.w.toNat ∧ y < s.h.toNat

/-- FB has the byte of every pixel of a list that lies inside. -/
def bytesExist (s : State) (l : List LevelPixel) : Prop :=
  ∀ x y b, inFrame s x y → (((x : Int), (y : Int)), b) ∈ l → pixelAddress s.w x y < s.cfg.fbBytes

/-- The last level a list of writes gives a pixel. -/
def lastLevel (l : List LevelPixel) (x y : Nat) (b : Nibble) : Prop :=
  ∃ l₁ l₂, l = l₁ ++ (((x : Int), (y : Int)), b) :: l₂ ∧ ∀ q ∈ l₂, q.1 ≠ ((x : Int), (y : Int))

/-- A list of pixel writes stops at one that FB has no byte for (R253): `done` are those before it, all of which have
theirs or are dropped. -/
def stopsAfter (s : State) (l done : List LevelPixel) : Prop :=
  ∃ (x y : Nat) (b : Nibble) (rest : List LevelPixel), l = done ++ (((x : Int), (y : Int)), b) :: rest ∧ inFrame s x y
    ∧ s.cfg.fbBytes ≤ pixelAddress s.w x y ∧ bytesExist s done

/-- The writes of a list that are made: all of it, or those before the one that FB has no byte for. -/
def reaches (s : State) (l done : List LevelPixel) : Prop := (bytesExist s l ∧ done = l) ∨ stopsAfter s l done

/-- FB is `m` after exactly the pixel writes of a list: the last level written to each pixel inside is there, and every
other nibble is as before (R54, R112). -/
def paintedBy (s : State) (l : List LevelPixel) (m : Memory) : Prop :=
  m.wf = true ∧ (∀ x y b, inFrame s x y → lastLevel l x y b → nibbleAt m (nibbleIndex s.w x y) = b)
    ∧ (∀ n, (∀ x y b, inFrame s x y → (((x : Int), (y : Int)), b) ∈ l → nibbleIndex s.w x y ≠ n) →
      nibbleAt m n = nibbleAt s.fb n)

/-- The next `n` transmits succeed (R203). -/
def busOk (s : State) (n : Nat) : Bool := (List.range n).all fun k => txOk s (s.txCount + (k + 1))

/-- Where an operation that sends the framings `ev`, four events each, ends when its `k`-th transmit is the first to
fail (R203): the events up to that transmit are on `WIRE`, chip-select stays low, `PSTATE` and `MODE` are free. -/
def lostIn (ev : List TransportEvent) (k : Nat) (s : State) : State :=
  { s with
    wire := s.wire ++ ev.take (4 * k - 1), txCount := s.txCount + k, cs := false,
    dc := ev[4 * k - 3]? == some .pinModeData, pstate := Config.freePState s.draws, mode := Config.freeMode s.draws,
    draws := s.draws + 1, status := 2 }

/-- The events of the command framing `CMD(c)` (R201). -/
def cmdEvents (c : Byte) : List TransportEvent := [.pinSelectLow, .pinModeCommand, .transmitByte c, .pinSelectHigh]

/-- The events of the data framing `DAT(d)` (R202). -/
def datEvents (d : Byte) : List TransportEvent := [.pinSelectLow, .pinModeData, .transmitByte d, .pinSelectHigh]

/-- The events of the bulk framing `BULK(data, n)` (R224). -/
def bulkEvents (data : List Byte) (n : Nat) : List TransportEvent :=
  [.pinSelectLow, .pinModeData, .transmitArray data n, .pinSelectHigh]

/-- The events of the six framings of a window (R220). -/
def windowEvents (sc ec sr er : Byte) : List TransportEvent :=
  cmdEvents 0x15 ++ datEvents (sc + 28) ++ datEvents (ec + 28) ++ cmdEvents 0x75 ++ datEvents sr ++ datEvents er

/-- The bytes `FB[p] .. FB[p+n−1]` (R223). -/
def fbSlice (m : Memory) (p n : Nat) : List Byte := (List.range n).map fun i => m.read (p + i)

/-- The glyph of a character code in a font, if the code is in its range (R183, R184). -/
def glyphOf (f : Font) (c : Byte) : Option Glyph :=
  if f.first.toNat ≤ c.toNat ∧ c.toNat ≤ f.last.toNat then f.glyphs[c.toNat - f.first.toNat]? else none

/-- The horizontal advance of a character: its glyph's, or 0 outside the font (R182, R184). -/
def advanceOf (f : Font) (c : Byte) : Nat :=
  match glyphOf f c with
  | some g => g.xAdvance.toNat
  | none => 0

/-- The bit of a glyph at (row, column) is set: bit `7 − (k mod 8)` of blob byte `bitmapOffset + k div 8`, with
`k = row·width + column` (R60). -/
def glyphBitSet (f : Font) (g : Glyph) (row col : Nat) : Prop :=
  ∃ b, f.bitmap[g.bitmapOffset.toNat + (row * g.width.toNat + col) / 8]? = some b
    ∧ b.getLsbD (7 - (row * g.width.toNat + col) % 8) = true

/-- Pixel (px, py) is lit when character `c` is drawn with the cursor at (x, y) (R182). -/
def charLit (f : Font) (c : Byte) (x y : Int) (px py : Nat) : Prop :=
  ∃ g row col, glyphOf f c = some g ∧ row < g.height.toNat ∧ col < g.width.toNat ∧ glyphBitSet f g row col
    ∧ (px : Int) = x + g.xOffset.toInt + col ∧ (py : Int) = y + g.yOffset.toInt + row

/-- Pixel (px, py) is lit when a string is drawn from the cursor (x, y): by one of its characters, at the cursor the
advances before it lead to (R185). -/
def textLit (f : Font) : List Byte → Int → Int → Nat → Nat → Prop
  | [], _, _, _, _ => False
  | c :: cs, x, y, px, py => charLit f c x y px py ∨ textLit f cs (x + advanceOf f c) y px py

end Sys2Proof.Machine
end

