-- ==== Sys2Proof/Certificates/Slice0/Obligations.lean ====
section
/-! DEFINITION. The statements for the provers, and the vocabulary they share. -/

namespace Sys2Proof.Statement

open Sys2Proof.Machine

/-! What an operation that writes pixels does. `lv x y b` says that pixel (x, y) gets level `b`. -/

/-- The state a completed drawing operation leaves: FB is `m`, `STATUS` is OK, all else as before. -/
def drawn (s : State) (m : Memory) : State := { s with fb := m, status := 0 }

/-- The state a fault with cause `c` leaves when only FB was written before it: `STATUS` is not written (R253). -/
def faultedWith (c : Byte) (s : State) (m : Memory) : State := { s with fb := m, faulted := true, fcause := c }

/-- Every pixel to be written whose place is in the logical framebuffer has its byte in FB. -/
def pixelsInFb (s : State) (lv : Nat → Nat → Nibble → Prop) : Prop :=
  ∀ x y b, inFrame s x y → lv x y b → pixelAddress s.w x y < s.cfg.fbBytes

/-- Operation `i` answers the next state `fin m`, where memory `m` is canonical, holds every level written inside the
logical framebuffer, and is as before in every other nibble and in every byte no written pixel lies in. -/
def WritesPixels (i : Instr) (s : State) (lv : Nat → Nat → Nibble → Prop) (fin : Memory → State) : Prop :=
  ∃ m, exec i s = .next (fin m) ∧ m.wf = true
    ∧ (∀ x y b, inFrame s x y → lv x y b → nibbleAt m (nibbleIndex s.w x y) = b)
    ∧ (∀ n, (∀ x y b, inFrame s x y → lv x y b → nibbleIndex s.w x y ≠ n) → nibbleAt m n = nibbleAt s.fb n)
    ∧ (∀ a, (∀ x y b, inFrame s x y → lv x y b → pixelAddress s.w x y ≠ a) → m.read a = s.fb.read a)

/-- Operation `i` raises StorageOverrun at the first of its pixel writes that FB has no byte for, and FB is left as
exactly the writes before it make it: they are pixels of `lv` and stay written, every other nibble is as before, and so
is every byte that no pixel of `lv` lies in (R253, R54). The order of the writes is that of the operation's rule. -/
def StorageFaults (i : Instr) (s : State) (lv : Nat → Nat → Nibble → Prop) : Prop :=
  ∃ m done, exec i s = .next (faultedWith 1 s m) ∧ stopsAfter s (pixelWrites i s) done ∧ paintedBy s done m
    ∧ (∀ x y b, inFrame s x y → (((x : Int), (y : Int)), b) ∈ done → lv x y b)
    ∧ (∀ a, (∀ x y b, inFrame s x y → lv x y b → pixelAddress s.w x y ≠ a) → m.read a = s.fb.read a)

/-- An operation that writes pixels ends in `fin` with all of them written when FB holds their bytes, and raises
StorageOverrun when it does not. -/
def PaintsOrFaults (i : Instr) (s : State) (lv : Nat → Nat → Nibble → Prop) (fin : Memory → State) : Prop :=
  (pixelsInFb s lv → WritesPixels i s lv fin) ∧ (¬ pixelsInFb s lv → StorageFaults i s lv)

/-- One brightness on a set of pixels. -/
def flat (lit : Nat → Nat → Prop) (v : Byte) (x y : Nat) (b : Nibble) : Prop := lit x y ∧ b = v.extractLsb' 0 4

/-- Between two bounds given in either order. -/
def between (p q z : Nat) : Prop := min p q ≤ z ∧ z ≤ max p q

/-- The level an 8-bit source gives a pixel of the framebuffer: the top four bits of its byte (R58, R170). -/
def blit8Level (s : State) (x0 y0 w h : Coord) (p : Word32) (px py : Nat) (b : Nibble) : Prop :=
  ∃ i j a, i < w.toNat ∧ j < h.toNat ∧ px = x0.toNat + i ∧ py = y0.toNat + j
    ∧ s.cfg.asset[p.toNat + j * w.toNat + i]? = some a ∧ b = a.extractLsb' 4 4

/-- The level a packed 4-bit source gives a pixel: pixel number `j·w + i` of its stream, the high nibble of a byte first
(R58, R171). -/
def blit4Level (s : State) (x0 y0 w h : Coord) (p : Word32) (px py : Nat) (b : Nibble) : Prop :=
  ∃ i j a, i < w.toNat ∧ j < h.toNat ∧ px = x0.toNat + i ∧ py = y0.toNat + j
    ∧ s.cfg.asset[p.toNat + (j * w.toNat + i) / 2]? = some a
    ∧ b = if (j * w.toNat + i) % 2 = 0 then a.extractLsb' 4 4 else a.extractLsb' 0 4

/-! What one framing does (R201 to R203). -/

/-- The state after a successful `CMD(c)`. -/
def sentCmd (c : Byte) (s : State) : State :=
  { s with wire := s.wire ++ cmdEvents c, txCount := s.txCount + 1, cs := true, dc := false }

/-- The state after a successful `DAT(d)`. -/
def sentDat (d : Byte) (s : State) : State :=
  { s with wire := s.wire ++ datEvents d, txCount := s.txCount + 1, cs := true, dc := true }

/-- The state after a `CMD(c)` whose transmit failed: no closing event, `PSTATE` and `MODE` free, ERR_BUS. -/
def lostCmd (c : Byte) (s : State) : State :=
  { s with
    wire := s.wire ++ [.pinSelectLow, .pinModeCommand, .transmitByte c], txCount := s.txCount + 1, cs := false,
    dc := false, pstate := Config.freePState s.draws, mode := Config.freeMode s.draws, draws := s.draws + 1, status := 2 }

/-- The state after a `DAT(d)` whose transmit failed. -/
def lostDat (d : Byte) (s : State) : State :=
  { s with
    wire := s.wire ++ [.pinSelectLow, .pinModeData, .transmitByte d], txCount := s.txCount + 1, cs := false,
    dc := true, pstate := Config.freePState s.draws, mode := Config.freeMode s.draws, draws := s.draws + 1, status := 2 }

/-- The same state but for `PSTATE` and `MODE`. -/
def sameButDisplay (t u : State) : Prop := u = { t with pstate := u.pstate, mode := u.mode }

/-- The bits of a descriptor an operation's format reads (R83, R85), as a mask over the 112. -/
def operandMask : Instr → Descriptor
  | .initDisplay | .sleepOn | .sleepOff | .resetGrayscale => packFields 0xFF 0 0 0 0 0
  | .clear _ | .sendCommand _ | .sendData _ | .setContrast _ | .setBrightness _ => packFields 0xFF 0xFF 0 0 0 0
  | .setMode _ => packFields 0xFF 0x03 0 0 0 0
  | .selectFont _ | .uploadGrayscale _ => packFields 0xFF 0 0 0 0 0xFFFFFFFF
  | .configure .. | .push .. => packFields 0xFF 0 0xFFFF 0xFFFF 0 0
  | .setPixel .. => packFields 0xFF 0xFF 0xFFFF 0xFFFF 0 0
  | .drawVLine .. | .drawHLine .. | .drawCircle .. => packFields 0xFF 0xFF 0xFFFF 0xFFFF 0x0000FFFF 0
  | .drawChar .. => packFields 0xFF 0xFF 0xFFFF 0xFFFF 0x000000FF 0
  | .drawLine .. | .drawAaLine .. | .drawRect .. | .drawRectFilled .. =>
    packFields 0xFF 0xFF 0xFFFF 0xFFFF 0xFFFFFFFF 0
  | .drawBitmap8bpp .. | .drawBitmap4bpp .. => packFields 0xFF 0 0xFFFF 0xFFFF 0xFFFFFFFF 0xFFFFFFFF
  | .drawText .. => packFields 0xFF 0xFF 0xFFFF 0xFFFF 0 0xFFFFFFFF
  | .setWindow .. => packFields 0xFF 0 0x00FF 0x00FF 0x00FF00FF 0
  | .transfer .. => packFields 0xFF 0 0 0 0xFFFFFFFF 0xFFFFFFFF

end Sys2Proof.Statement

open Sys2Proof Sys2Proof.Machine Sys2Proof.Statement

/-! ## Encoding (R80 to R87) -/

/-- R81, R84, R85: no bit of an operand is lost between encoding and decoding, for every operation and every operand
value. -/
def Obligations.DecodeEncodeRoundTrip : Prop := ∀ i : Instr, decode (encode i) = .ok i

/-- R81, R82, R84: descriptors written out byte by byte from the spec's tables decode to what they stand for. -/
def Obligations.WrittenDescriptorsDecode : Prop :=
  decodeBytes [0x10, 0, 0, 1, 0x40, 0, 0, 0, 0, 0, 0, 0, 0, 0] = .ok (.configure 256 64)
  ∧ decodeBytes [0x21, 9, 2, 0, 0, 0, 3, 0, 0, 0, 0, 0, 0, 0] = .ok (.drawHLine 2 0 3 9)
  ∧ decodeBytes [0x28, 0, 2, 0, 1, 0, 3, 0, 3, 0, 0, 1, 0, 0] = .ok (.drawBitmap4bpp 2 1 3 3 0x100)
  ∧ decodeBytes [0x31, 0xF, 0xA, 0, 4, 0, 0x41, 0, 0, 0, 0, 0, 0, 0] = .ok (.drawChar 0x41 10 4 0xF)
  ∧ decodeBytes [0x4B, 0, 0, 0, 0, 0, 0x45, 0x23, 1, 0, 0x10, 0, 0, 0] = .ok (.transfer 0x10 0x12345)
  ∧ decodeBytes [0x50, 0, 0, 0, 1, 0, 0, 0, 0, 0, 0, 0, 0, 0] = .ok (.push 0 1)

/-- R84, R86, R87: a descriptor decodes exactly when its low byte is one of the 28 opcodes, to an operation of that
opcode; every other is rejected by that opcode. -/
def Obligations.OpcodeAloneSelectsTheOperation : Prop :=
  ∀ d : Descriptor,
    (fieldOp d ∈ opcodes → ∃ i, decode d = .ok i ∧ i.opcode = fieldOp d)
    ∧ (fieldOp d ∉ opcodes → decode d = .error (.illegalOpcode (fieldOp d)))

/-- R83: the bits an operation's format does not read have no effect on what a descriptor decodes to. -/
def Obligations.UnusedBitsAreIgnored : Prop :=
  ∀ (d d' : Descriptor) (i : Instr), decode d = .ok i → d &&& operandMask i = d' &&& operandMask i → decode d' = .ok i

/-! ## The step (R31, R32, R86, R250, R253, R256, R280) -/

/-- R21, R32, R80: when the descriptor presented next decodes to an operation the hardware has, a step is that
operation on the state with the descriptor latched in `OP`; the position moves on by 1 exactly if no fault was raised. -/
def Obligations.StepRunsTheDecodedOperation : Prop :=
  ∀ (s : State) (d : Descriptor) (i : Instr), s.Accepting → s.program[s.pos]? = some d → decode d = .ok i →
    i.wf s.cfg.hasAaLine = true →
    step s = match exec i { s with op := d } with
      | .next t => .next (if t.faulted then t else { t with pos := t.pos + 1 })
      | .fault r => .fault r
      | .refused r => .refused r

/-- The placing of a descriptor for the next step (log 1): exactly the host's list changes, and the descriptor stands at
the position the step reads. -/
def Obligations.PlacedDescriptorIsPresentedNext : Prop :=
  ∀ (s : State) (i : Instr),
    (s.withFetchWord 112 (encode i).toNat).program[s.pos]? = some (encode i)
    ∧ s.withFetchWord 112 (encode i).toNat = { s with program := (s.withFetchWord 112 (encode i).toNat).program }
    ∧ ∀ k, k < s.program.length → k ≠ s.pos →
      (s.withFetchWord 112 (encode i).toNat).program[k]? = s.program[k]?

/-- R86: a descriptor with an undefined opcode, or opcode 0x23 without `HAS_AA_LINE`, completes with ERR_ILLEGAL and
changes no other state of the block; the host's position moves on (R32). 228 opcode values are undefined. -/
def Obligations.IllegalDescriptorCompletesWithErrIllegal : Prop :=
  ((List.range 256).filter fun n => !opcodes.contains (BitVec.ofNat 8 n)).length = 228
  ∧ ∀ (s : State) (d : Descriptor), s.Accepting → s.program[s.pos]? = some d →
    (fieldOp d ∉ opcodes ∨ fieldOp d = 0x23 ∧ s.cfg.hasAaLine = false) →
    step s = .next { s with status := 3, pos := s.pos + 1 }

/-- R253, R256: a faulted block accepts no descriptor whatever is presented. The form of the stop is the model's
(log 11). -/
def Obligations.FaultedBlockIsStuck : Prop :=
  ∀ s : State, s.resetIn = false → s.faulted = true → step s = .fault (.blockFaulted s.fcause)

/-- R280, R281: the block reset, from any state, the faulted ones among them. The registers the spec leaves unspecified
(`OP`, `FONT_SEL`, `FCAUSE`) are not claimed. -/
def Obligations.ResetInputRestoresTheBlock : Prop :=
  ∀ s : State, s.resetIn = true → ∃ t, step s = .next t
    ∧ t.w = 0 ∧ t.h = 0 ∧ t.fontValid = false ∧ t.pstate = .reset ∧ t.mode = .normal ∧ t.status = 0 ∧ t.faulted = false
    ∧ t.cs = true ∧ t.dc = true ∧ t.rst = true ∧ t.wire = [] ∧ t.txCount = 0 ∧ t.fb = s.fb

/-- R280, R281: reset asserted during an operation, when it has come to `n` of its writes. The operation is not
completed and hands back no status, the registers take the values of the block reset, and FB holds exactly the writes
already made. For CLEAR these are the first `n` bytes it fills, as far as FB goes. For every other operation they are
the first `n` of its pixel writes, up to one that FB has no byte for: the last level written to each pixel is there, and
every other nibble is as before. An operation of the wire leaves FB alone, `n` beyond the last write keeps all that the
operation writes, and an illegal descriptor is abandoned too. Two things here are the model's choice and no rule of the
spec: that reset comes at such a point (log 13), and that the next state, written with `blockReset`, has `OP`,
`FONT_SEL` and `FCAUSE` at 0, which R38 and R280 leave unspecified (log 7, 8, 9). -/
def Obligations.ResetAbandonsTheOperation : Prop :=
  ∀ (s : State) (d : Descriptor) (n : Nat), s.resetIn = false → s.faulted = false → s.cfg.wf = true → s.fb.wf = true →
    s.program[s.pos]? = some d → s.resetDuring = some n →
    ((fieldOp d ∉ opcodes ∨ fieldOp d = 0x23 ∧ s.cfg.hasAaLine = false) → step s = .next (blockReset s))
    ∧ ∀ i, decode d = .ok i → i.wf s.cfg.hasAaLine = true →
      ∃ m, step s = .next (blockReset { s with fb := m }) ∧ m.wf = true
        ∧ (∀ v, i = .clear v → ∀ a, m.read a =
            if a < min n (min ((s.w.toNat * s.h.toNat + 1) / 2) s.cfg.fbBytes) then v.extractLsb' 0 4 ++ v.extractLsb' 0 4
            else s.fb.read a)
        ∧ ((∀ v, i ≠ .clear v) → ∃ done, reaches s ((pixelWrites i s).take n) done ∧ paintedBy s done m)
        ∧ (0x40 ≤ i.opcode.toNat ∨ i.opcode = 0x10 ∨ i.opcode = 0x30 → m = s.fb)
        ∧ (∀ u, exec i s = .next u → writeCount i s ≤ n → m = u.fb)

/-- R38: the state right after reset holds the values the table states. -/
def Obligations.ResetStateHoldsTheStatedValues : Prop :=
  State.reset.w = 0 ∧ State.reset.h = 0 ∧ State.reset.fontValid = false ∧ pstateCode State.reset.pstate = 0
  ∧ modeCode State.reset.mode = 0 ∧ State.reset.status = 0 ∧ State.reset.faulted = false ∧ State.reset.cs = true
  ∧ State.reset.dc = true ∧ State.reset.rst = true ∧ State.reset.wire = [] ∧ State.reset.txCount = 0

/-- R265 and log 14 (the model's choice): with no descriptor presented a step keeps all state. -/
def Obligations.IdleBlockKeepsAllState : Prop :=
  ∀ s : State, s.resetIn = false → s.Final → step s = .next s

/-- R32: the position moves by exactly 1 when an operation completes and in no other way: not on a fault, not on a reset,
not for an operation that reset abandons, not when nothing is presented. -/
def Obligations.PositionMovesOnlyOnCompletion : Prop :=
  ∀ s t : State, step s = .next t →
    (t.pos = s.pos + 1 ∧ t.faulted = false ∧ s.resetIn = false ∧ s.resetDuring = none ∧ s.pos < s.program.length)
    ∨ (t.pos = s.pos ∧ (t.faulted = true ∨ s.resetIn = true ∨ s.resetDuring ≠ none ∨ s.Final))

/-- R187, R210, R240 (log 15; what counts as ill-formed is also log 19 and 23): an ill-formed configuration is refused
when a descriptor is presented. -/
def Obligations.IllFormedConfigurationIsRefused : Prop :=
  ∀ s : State, s.resetIn = false → s.faulted = false → s.pos < s.program.length → s.cfg.wf = false →
    step s = .refused .illFormedConfiguration

/-! ## Invariants and whole-machine rules -/

/-- The state invariant is kept by every step, from every state that meets it: canonical bounded FB, an active font in
the table (R25), legal codes (R251, R254), `TXCOUNT` and the pin latches agreeing with `WIRE` (R30, R33). -/
def Obligations.EveryStepKeepsTheInvariant : Prop := ∀ s t : State, s.Inv → step s = .next t → t.Inv

/-- The reset state meets the invariant. -/
def Obligations.ResetMeetsTheInvariant : Prop := State.reset.Inv

/-- R250: under a well-formed configuration every operation ends in exactly one of two ways: it completes, with a
status code, or it raises a fault, with a cause and `STATUS` not written. -/
def Obligations.EveryOperationCompletesOrFaults : Prop :=
  ∀ (i : Instr) (s : State), s.cfg.wf = true → s.faulted = false →
    (s.fontValid = true → s.fontSel.toNat < s.cfg.fontRom.length) →
    ∃ t, exec i s = .next t
      ∧ ((t.faulted = false ∧ (t.status = 0 ∨ t.status = 1 ∨ t.status = 2 ∨ t.status = 3))
        ∨ (t.faulted = true ∧ t.status = s.status ∧ (t.fcause = 1 ∨ t.fcause = 2 ∨ t.fcause = 3)))

/-- R251, second column of causes: ERR_GRAY_RANGE comes from UPLOAD_GRAYSCALE only, ERR_BUS from the operations that
transmit only, ERR_ILLEGAL (of a decoded operation) from DRAW_AA_LINE without `HAS_AA_LINE` only. -/
def Obligations.StatusCodesByOperation : Prop :=
  ∀ (i : Instr) (s t : State), exec i s = .next t → s.faulted = false → t.faulted = false →
    (t.status = 1 → ∃ p, i = .uploadGrayscale p)
    ∧ (t.status = 2 → 0x40 ≤ i.opcode.toNat)
    ∧ (t.status = 3 → i.opcode = 0x23 ∧ s.cfg.hasAaLine = false)

/-- R254, last column: which operations raise which fault. -/
def Obligations.FaultCausesByOperation : Prop :=
  ∀ (i : Instr) (s t : State), exec i s = .next t → s.faulted = false → t.faulted = true →
    (t.fcause = 1 ∧ (i.opcode.toNat = 0x11 ∨ i.opcode.toNat = 0x12 ∨ (0x20 ≤ i.opcode.toNat ∧ i.opcode.toNat ≤ 0x28)
        ∨ i.opcode.toNat = 0x31 ∨ i.opcode.toNat = 0x32 ∨ i.opcode.toNat = 0x4B ∨ i.opcode.toNat = 0x50))
    ∨ (t.fcause = 2 ∧ (i.opcode.toNat = 0x27 ∨ i.opcode.toNat = 0x28 ∨ i.opcode.toNat = 0x32 ∨ i.opcode.toNat = 0x48))
    ∨ (t.fcause = 3 ∧ (i.opcode.toNat = 0x31 ∨ i.opcode.toNat = 0x32))

/-- R254, last paragraph: a caller that keeps its contract never sees a fault. -/
def Obligations.CallerContractKeepsTheBlockFaultFree : Prop :=
  ∀ (i : Instr) (s : State), s.cfg.wf = true → (s.fontValid = true → s.fontSel.toNat < s.cfg.fontRom.length) →
    callerContract i s = true → ∃ t, exec i s = .next t ∧ t.faulted = s.faulted

/-- R21, R22 to R25, R30, R35: who writes which register. No operation writes `OP`, the host's list and position, the
inputs or the parameters; only CONFIGURE writes `W` and `H`, only SELECT_FONT the font registers, only INITIALIZE
`RST`. -/
def Obligations.RegistersHaveOneWriter : Prop :=
  ∀ (i : Instr) (s t : State), exec i s = .next t →
    (t.op = s.op ∧ t.program = s.program ∧ t.pos = s.pos ∧ t.resetIn = s.resetIn ∧ t.resetDuring = s.resetDuring
      ∧ t.txFails = s.txFails ∧ t.cfg = s.cfg)
    ∧ ((t.w ≠ s.w ∨ t.h ≠ s.h) → ∃ a b, i = .configure a b)
    ∧ ((t.fontValid ≠ s.fontValid ∨ t.fontSel ≠ s.fontSel) → ∃ p, i = .selectFont p)
    ∧ (t.rst ≠ s.rst → i = .initDisplay)

/-- R26, R27, R206: when no transmit of the operation failed, `PSTATE` and `MODE` after it are those of the table of
R206; only INITIALIZE, the sleep operations and SET_MODE change them. (After a failed transmit they are free, as
`NothingFollowsAFailedTransmit` says.) -/
def Obligations.DisplayRegistersFollowTheTable : Prop :=
  ∀ (i : Instr) (s t : State), exec i s = .next t →
    (∀ k, s.txCount < k → k ≤ t.txCount → txOk s k = true) →
    t.pstate = (match i with
      | .initDisplay => .awake
      | .sleepOn => .asleep
      | .sleepOff => .awake
      | _ => s.pstate)
    ∧ t.mode = (match i with
      | .initDisplay => .normal
      | .setMode m => modeOf m
      | _ => s.mode)

/-- R50, R66: the drawing, text and configuration operations touch neither the wire nor the pins nor the display
registers; the protocol operations and PUSH touch no byte of FB. -/
def Obligations.DrawingAndTransportAreSeparate : Prop :=
  ∀ (i : Instr) (s t : State), exec i s = .next t →
    (i.opcode.toNat < 0x40 → t.wire = s.wire ∧ t.txCount = s.txCount ∧ t.cs = s.cs ∧ t.dc = s.dc ∧ t.rst = s.rst
      ∧ t.pstate = s.pstate ∧ t.mode = s.mode ∧ t.draws = s.draws)
    ∧ (0x40 ≤ i.opcode.toNat → t.fb = s.fb)

/-- R51: a byte at or above `ceil(W·H/2)` is written by no operation, and a nibble that belongs to no pixel by none
but CLEAR. -/
def Obligations.NothingBeyondThePictureIsWritten : Prop :=
  ∀ (i : Instr) (s t : State), exec i s = .next t → s.fb.wf = true →
    (∀ a, (s.w.toNat * s.h.toNat + 1) / 2 ≤ a → t.fb.read a = s.fb.read a)
    ∧ ((∀ v, i ≠ .clear v) → ∀ n, s.w.toNat * s.h.toNat ≤ n → nibbleAt t.fb n = nibbleAt s.fb n)

/-- R33, R50: `WIRE` only ever grows at its end, by as many transmits as `TXCOUNT` rises. -/
def Obligations.WireIsAppendOnly : Prop :=
  ∀ (i : Instr) (s t : State), exec i s = .next t →
    ∃ ev, t.wire = s.wire ++ ev ∧ t.txCount = s.txCount + (ev.filter isTransmit).length

/-- R207: `PSTATE` and `MODE` gate nothing. Two runs of an operation that start alike but for these two registers end
alike but for them. -/
def Obligations.DisplayStateGatesNothing : Prop :=
  ∀ (i : Instr) (s : State) (p : PState) (m : Mode),
    (∀ t, exec i s = .next t → ∃ u, exec i { s with pstate := p, mode := m } = .next u ∧ sameButDisplay t u)
    ∧ (∀ r, exec i s = .refused r → exec i { s with pstate := p, mode := m } = .refused r)

/-- R203, R251 (ERR_BUS): whatever the operation, nothing follows the first failed transmit. It is the last event on
`WIRE`, chip-select stays low, the block is not faulted, the status is ERR_BUS, and `PSTATE` and `MODE` are the free
values drawn at that point, whatever they are. What is on `WIRE` is a beginning of what the operation sends on a bus that
does not fail; and ERR_BUS comes from nothing else. -/
def Obligations.NothingFollowsAFailedTransmit : Prop :=
  ∀ (i : Instr) (s t : State), exec i s = .next t → 0x40 ≤ i.opcode.toNat →
    (∀ k, s.txCount < k → k < t.txCount → txOk s k = true)
    ∧ (s.txCount < t.txCount → txOk s t.txCount = false →
      t.status = 2 ∧ t.cs = false ∧ t.faulted = s.faulted ∧ t.fcause = s.fcause ∧ t.draws = s.draws + 1
        ∧ t.pstate = Config.freePState s.draws ∧ t.mode = Config.freeMode s.draws
        ∧ ∃ ev e, t.wire = s.wire ++ ev ++ [e] ∧ isTransmit e = true)
    ∧ (∃ u, exec i { s with txFails := [] } = .next u ∧ t.wire <+: u.wire)
    ∧ (s.faulted = false → t.faulted = false → t.status = 2 → s.txCount < t.txCount ∧ txOk s t.txCount = false)

/-! ## Framebuffer operations (40_framebuffer.md) -/

/-- R110: CONFIGURE records the dimensions; FB and everything else stay. -/
def Obligations.ConfigureRecordsTheDimensions : Prop :=
  ∀ (s : State) (width height : Coord),
    exec (.configure width height) s = .next { s with w := width, h := height, status := 0 }

/-- R111: CLEAR fills exactly the `ceil(W·H/2)` pixel bytes with the brightness in both nibbles; if FB ends before them it
fills what there is and raises StorageOverrun, `STATUS` unwritten. -/
def Obligations.ClearFillsThePixelBytes : Prop :=
  ∀ (s : State) (v : Byte), s.fb.wf = true →
    ((s.w.toNat * s.h.toNat + 1) / 2 ≤ s.cfg.fbBytes →
      ∃ m, exec (.clear v) s = .next (drawn s m) ∧ m.wf = true
        ∧ ∀ a, m.read a = if a < (s.w.toNat * s.h.toNat + 1) / 2 then v.extractLsb' 0 4 ++ v.extractLsb' 0 4
            else s.fb.read a)
    ∧ (s.cfg.fbBytes < (s.w.toNat * s.h.toNat + 1) / 2 →
      ∃ m, exec (.clear v) s = .next (faultedWith 1 s m) ∧ m.wf = true
        ∧ ∀ a, m.read a = if a < s.cfg.fbBytes then v.extractLsb' 0 4 ++ v.extractLsb' 0 4 else s.fb.read a)

/-- R115, with R52, R112, R113: (a) a pixel write reads back as its brightness and leaves the other nibble of the byte;
(b) outside the logical framebuffer it writes no byte; (c) no other byte changes. An in-range pixel whose byte FB does
not have raises StorageOverrun, with nothing written, `STATUS` included. -/
def Obligations.PixelWriteLaws : Prop :=
  ∀ (s : State) (x y : Coord) (v : Byte), s.fb.wf = true →
    (x.toNat < s.w.toNat → y.toNat < s.h.toNat → (y.toNat * s.w.toNat + x.toNat) / 2 < s.cfg.fbBytes →
      ∃ m, exec (.setPixel x y v) s = .next (drawn s m) ∧ m.wf = true
        ∧ nibbleAt m (y.toNat * s.w.toNat + x.toNat) = v.extractLsb' 0 4
        ∧ (∀ n, n ≠ y.toNat * s.w.toNat + x.toNat → nibbleAt m n = nibbleAt s.fb n)
        ∧ (∀ a, a ≠ (y.toNat * s.w.toNat + x.toNat) / 2 → m.read a = s.fb.read a))
    ∧ (s.w.toNat ≤ x.toNat ∨ s.h.toNat ≤ y.toNat → exec (.setPixel x y v) s = .next { s with status := 0 })
    ∧ (x.toNat < s.w.toNat → y.toNat < s.h.toNat → s.cfg.fbBytes ≤ (y.toNat * s.w.toNat + x.toNat) / 2 →
      exec (.setPixel x y v) s = .next { s with faulted := true, fcause := 1 })

/-! ## Lines (41_lines.md) -/

/-- R130, R131: DRAW_VLINE and DRAW_HLINE (whose first operand is the row), endpoints in either order. -/
def Obligations.StraightLinesDraw : Prop :=
  ∀ (s : State) (p q0 q1 : Coord) (v : Byte), s.fb.wf = true →
    PaintsOrFaults (.drawVLine p q0 q1 v) s (flat (fun px py => px = p.toNat ∧ between q0.toNat q1.toNat py) v)
        (drawn s)
    ∧ PaintsOrFaults (.drawHLine p q0 q1 v) s (flat (fun px py => py = p.toNat ∧ between q0.toNat q1.toNat px) v)
        (drawn s)

/-- R132: a vertical DRAW_LINE is DRAW_VLINE and a horizontal one is DRAW_HLINE. -/
def Obligations.DegenerateLineDelegates : Prop :=
  ∀ (s : State) (p q0 q1 : Coord) (v : Byte),
    exec (.drawLine p q0 p q1 v) s = exec (.drawVLine p q0 q1 v) s
    ∧ exec (.drawLine q0 p q1 p v) s = exec (.drawHLine p q0 q1 v) s

/-- R133: DRAW_LINE with its endpoints exchanged is the same operation. -/
def Obligations.LineReversalSymmetry : Prop :=
  ∀ (s : State) (x0 y0 x1 y1 : Coord) (v : Byte),
    exec (.drawLine x1 y1 x0 y0 v) s = exec (.drawLine x0 y0 x1 y1 v) s

/-- R132, R135: DRAW_LINE writes the pixels of its walk, with one brightness. -/
def Obligations.LineDrawsItsPixels : Prop :=
  ∀ (s : State) (x0 y0 x1 y1 : Coord) (v : Byte), s.fb.wf = true →
    PaintsOrFaults (.drawLine x0 y0 x1 y1 v) s
      (flat (fun px py => ((px : Int), (py : Int)) ∈ linePixels x0.toNat y0.toNat x1.toNat y1.toNat) v)
      (drawn s)

/-- R134, R135, R137: DRAW_LINE comes to the pixels of its walk, one by one, each clipped on its own. The walk of a line
that is neither vertical nor horizontal has `max(|Δx|, |Δy|) + 1` pixels, in different rows if the line is steep and in
different columns if not, so one in each; both endpoints are among them and all lie inside the endpoints' rectangle. -/
def Obligations.LineWalkShape : Prop :=
  ∀ (x0 y0 x1 y1 : Coord) (walk : List (Int × Int)), x0 ≠ x1 → y0 ≠ y1 →
    walk = linePixels x0.toNat y0.toNat x1.toNat y1.toNat →
      (∀ (s : State) (v : Byte), exec (.drawLine x0 y0 x1 y1 v) s = finish (plotAll walk v) s)
      ∧ walk.length = max ((x1.toNat : Int) - x0.toNat).natAbs ((y1.toNat : Int) - y0.toNat).natAbs + 1
      ∧ (if ((x1.toNat : Int) - x0.toNat).natAbs < ((y1.toNat : Int) - y0.toNat).natAbs then (walk.map Prod.snd).Nodup
        else (walk.map Prod.fst).Nodup)
      ∧ ((x0.toNat : Int), (y0.toNat : Int)) ∈ walk ∧ ((x1.toNat : Int), (y1.toNat : Int)) ∈ walk
      ∧ ∀ p ∈ walk,
        ((min x0.toNat x1.toNat : Nat) : Int) ≤ p.1 ∧ p.1 ≤ ((max x0.toNat x1.toNat : Nat) : Int)
          ∧ ((min y0.toNat y1.toNat : Nat) : Int) ≤ p.2 ∧ p.2 ≤ ((max y0.toNat y1.toNat : Nat) : Int)

/-- R133 to R136: the accumulator keeps every pixel of the walk within half a pixel of the ideal line, measured along
the short axis (twice the cross product is at most the long extent). -/
def Obligations.LineWalkStaysOnTheLine : Prop :=
  ∀ x0 y0 x1 y1 : Nat, x0 ≠ x1 → y0 ≠ y1 → ∀ p ∈ linePixels x0 y0 x1 y1,
    2 * ((p.2 - y0) * ((x1 : Int) - x0) - (p.1 - x0) * ((y1 : Int) - y0)).natAbs
      ≤ max ((x1 : Int) - x0).natAbs ((y1 : Int) - y0).natAbs

/-- R86, R138, R139: without `HAS_AA_LINE`, DRAW_AA_LINE completes with ERR_ILLEGAL and changes nothing else; with it, a
degenerate DRAW_AA_LINE is DRAW_LINE. -/
def Obligations.AntialiasedLineOptionalAndDegenerate : Prop :=
  ∀ (s : State) (x0 y0 x1 y1 : Coord) (v : Byte),
    (s.cfg.hasAaLine = false → exec (.drawAaLine x0 y0 x1 y1 v) s = .next { s with status := 3 })
    ∧ (s.cfg.hasAaLine = true → x0 = x1 ∨ y0 = y1 →
      exec (.drawAaLine x0 y0 x1 y1 v) s = exec (.drawLine x0 y0 x1 y1 v) s)

/-- R138, R140 (b), (f): a non-degenerate DRAW_AA_LINE writes the levels of the configured `AA_LINE_FN`, whatever it is,
the last one where a pixel is written more than once, and changes FB nowhere else; it depends on no byte of FB but those
its writes lie in. -/
def Obligations.AntialiasedLineDrawsItsLevels : Prop :=
  ∀ (s : State) (x0 y0 x1 y1 : Coord) (v : Byte) (l : List LevelPixel), s.fb.wf = true → s.cfg.hasAaLine = true →
    x0 ≠ x1 → y0 ≠ y1 → l = aaPixelWrites x0.toNat y0.toNat x1.toNat y1.toNat (v.extractLsb' 0 4) s →
    (pixelsInFb s (lastLevel l) → WritesPixels (.drawAaLine x0 y0 x1 y1 v) s (lastLevel l) (drawn s))
    ∧ (¬ pixelsInFb s (lastLevel l) →
      StorageFaults (.drawAaLine x0 y0 x1 y1 v) s (fun x y b => (((x : Int), (y : Int)), b) ∈ l))
    ∧ ∀ m : Memory,
      (∀ x y b, inFrame s x y → (((x : Int), (y : Int)), b) ∈ l →
        m.read (pixelAddress s.w x y) = s.fb.read (pixelAddress s.w x y)) →
      aaPixelWrites x0.toNat y0.toNat x1.toNat y1.toNat (v.extractLsb' 0 4) { s with fb := m } = l

/-! ## Rectangles and circles (42_shapes.md) -/

/-- R150: DRAW_RECT lights the four edges, for corners in any order, and not the interior. -/
def Obligations.RectangleDrawsItsEdges : Prop :=
  ∀ (s : State) (x0 y0 x1 y1 : Coord) (v : Byte), s.fb.wf = true →
    PaintsOrFaults (.drawRect x0 y0 x1 y1 v) s
      (flat (fun px py =>
        ((px = x0.toNat ∨ px = x1.toNat) ∧ between y0.toNat y1.toNat py)
        ∨ ((py = y0.toNat ∨ py = y1.toNat) ∧ between x0.toNat x1.toNat px)) v)
      (drawn s)

/-- R151, R152: DRAW_RECT_FILLED fills the inclusive rectangle; when a pair of bounds is reversed it writes nothing and
completes with OK, in every state. -/
def Obligations.FilledRectangleFills : Prop :=
  ∀ (s : State) (x0 y0 x1 y1 : Coord) (v : Byte), s.fb.wf = true →
    PaintsOrFaults (.drawRectFilled x0 y0 x1 y1 v) s
      (flat (fun px py => x0.toNat ≤ px ∧ px ≤ x1.toNat ∧ y0.toNat ≤ py ∧ py ≤ y1.toNat) v) (drawn s)
    ∧ (x1.toNat < x0.toNat ∨ y1.toNat < y0.toNat →
      exec (.drawRectFilled x0 y0 x1 y1 v) s = .next { s with status := 0 })

/-- R153: DRAW_CIRCLE writes the points of its walk, with one brightness. -/
def Obligations.CircleDrawsItsPoints : Prop :=
  ∀ (s : State) (x0 y0 r : Coord) (v : Byte), s.fb.wf = true →
    PaintsOrFaults (.drawCircle x0 y0 r v) s
      (flat (fun px py => ((px : Int), (py : Int)) ∈ circlePixels x0.toNat y0.toNat r.toNat) v) (drawn s)

/-- R154, R157, R159: the circle's points hold the four axis points, are symmetric under both mirrors and the exchange
of the axes, and lie within `r` of the centre along either axis. -/
def Obligations.CircleSymmetryAndExtent : Prop :=
  ∀ cx cy r : Nat,
    ((cx : Int) + r, (cy : Int)) ∈ circlePixels cx cy r ∧ ((cx : Int) - r, (cy : Int)) ∈ circlePixels cx cy r
    ∧ ((cx : Int), (cy : Int) + r) ∈ circlePixels cx cy r ∧ ((cx : Int), (cy : Int) - r) ∈ circlePixels cx cy r
    ∧ ∀ dx dy : Int, ((cx : Int) + dx, (cy : Int) + dy) ∈ circlePixels cx cy r →
      ((cx : Int) - dx, (cy : Int) + dy) ∈ circlePixels cx cy r
      ∧ ((cx : Int) + dx, (cy : Int) - dy) ∈ circlePixels cx cy r
      ∧ ((cx : Int) + dy, (cy : Int) + dx) ∈ circlePixels cx cy r
      ∧ dx.natAbs ≤ r ∧ dy.natAbs ≤ r

/-- R153, R155, R156, R157: the circle's octant loop. It starts at `x = 0`, `y = r`, and a step takes `y` down by 1
exactly when the decision variable it finds is not negative. After `k` steps `x = k`, `ddF_x = 2x + 1`, `ddF_y = −2y`,
and the decision variable is the midpoint form `(x + 1)² + y² − y − r²`, so that its sign says on which side of the
circle the midpoint lies. The circle's points are the four axis points and, for every step taken while `x < y` held at
it and at each step before it, the eight reflections of the (x, y) that the step leaves, and no others. The loop
condition and the amounts of a step are the spec's general-knowledge passages (D12, log 21). -/
def Obligations.OctantDecisionVariable : Prop :=
  (∀ r k : Nat, ∀ o : Octant, octantStep^[k] (octantStart r) = o →
    (k = 0 → o.y = r)
    ∧ o.x = k ∧ o.ddFx = 2 * o.x + 1 ∧ o.ddFy = -2 * o.y
    ∧ o.f = (o.x + 1) * (o.x + 1) + o.y * o.y - o.y - (r : Int) * r
    ∧ (octantStep o).y = if 0 ≤ o.f then o.y - 1 else o.y)
  ∧ ∀ cx cy r : Nat, ∀ dx dy : Int, ((cx : Int) + dx, (cy : Int) + dy) ∈ circlePixels cx cy r ↔
      dx = 0 ∧ dy.natAbs = r ∨ dx.natAbs = r ∧ dy = 0
      ∨ ∃ (k : Nat) (o : Octant), octantStep^[k + 1] (octantStart r) = o
        ∧ (∀ j ≤ k, (octantStep^[j] (octantStart r)).x < (octantStep^[j] (octantStart r)).y)
        ∧ (dx.natAbs = o.x.natAbs ∧ dy.natAbs = o.y.natAbs ∨ dx.natAbs = o.y.natAbs ∧ dy.natAbs = o.x.natAbs)

/-! ## Bitmaps (43_bitmaps.md) -/

/-- R170, R172: DRAW_BITMAP_8BPP writes the top four bits of source byte `p + j·w + i` at (x0 + i, y0 + j), or
raises StorageOverrun where FB lacks a pixel's byte. If the source runs past ASSET it raises AssetOverrun, whatever `W`
and `H`, with the pixels of every source byte that exists written, or StorageOverrun if one of those lacks its byte
(R256). -/
def Obligations.Bitmap8Blits : Prop :=
  ∀ (s : State) (x0 y0 w h : Coord) (p : Word32), s.fb.wf = true →
    ((w.toNat * h.toNat = 0 ∨ p.toNat + w.toNat * h.toNat ≤ s.cfg.asset.length) →
      PaintsOrFaults (.drawBitmap8bpp x0 y0 w h p) s (blit8Level s x0 y0 w h p) (drawn s))
    ∧ (w.toNat * h.toNat ≠ 0 → s.cfg.asset.length < p.toNat + w.toNat * h.toNat →
      PaintsOrFaults (.drawBitmap8bpp x0 y0 w h p) s (blit8Level s x0 y0 w h p) (faultedWith 2 s))

/-- R171, R172: DRAW_BITMAP_4BPP takes pixel number `k = j·w + i` from byte `p + k div 2`, the high nibble for an even
`k`; the same where FB lacks a byte and on a source that runs past ASSET. -/
def Obligations.Bitmap4Blits : Prop :=
  ∀ (s : State) (x0 y0 w h : Coord) (p : Word32), s.fb.wf = true →
    ((w.toNat * h.toNat = 0 ∨ p.toNat + (w.toNat * h.toNat + 1) / 2 ≤ s.cfg.asset.length) →
      PaintsOrFaults (.drawBitmap4bpp x0 y0 w h p) s (blit4Level s x0 y0 w h p) (drawn s))
    ∧ (w.toNat * h.toNat ≠ 0 → s.cfg.asset.length < p.toNat + (w.toNat * h.toNat + 1) / 2 →
      PaintsOrFaults (.drawBitmap4bpp x0 y0 w h p) s (blit4Level s x0 y0 w h p) (faultedWith 2 s))

/-! ## Text (44_text.md) -/

/-- R180: SELECT_FONT selects a font of the table, or deselects. -/
def Obligations.SelectFontSelectsOrDeselects : Prop :=
  ∀ (s : State) (p : Word32),
    (p.toNat < s.cfg.fontRom.length →
      exec (.selectFont p) s = .next { s with fontSel := p, fontValid := true, status := 0 })
    ∧ (s.cfg.fontRom.length ≤ p.toNat → exec (.selectFont p) s = .next { s with fontValid := false, status := 0 })

/-- R181: with no font selected, DRAW_CHAR and DRAW_TEXT do nothing and complete with OK; the string is not read. -/
def Obligations.NoFontDrawsNothing : Prop :=
  ∀ (s : State) (c : Byte) (x y : Coord) (v : Byte) (p : Word32), s.fontValid = false →
    exec (.drawChar c x y v) s = .next { s with status := 0 }
    ∧ exec (.drawText p x y v) s = .next { s with status := 0 }

/-- R182, R183, R184, R60: DRAW_CHAR lights the set bits of the character's glyph at the cursor plus the glyph's offsets,
and nothing for a character outside the font; a glyph whose bits run past the blob raises FontOverrun with the bits
that exist drawn. Where FB lacks a lit pixel's byte, StorageOverrun. -/
def Obligations.CharacterDrawsItsGlyph : Prop :=
  ∀ (s : State) (f : Font) (c : Byte) (x y : Coord) (v : Byte), s.fb.wf = true → s.fontValid = true →
    s.cfg.fontRom[s.fontSel.toNat]? = some f → f.wf = true →
    ((∀ g, glyphOf f c = some g → glyphInBlob f g = true) →
      PaintsOrFaults (.drawChar c x y v) s (flat (charLit f c x.toNat y.toNat) v) (drawn s))
    ∧ (∀ g, glyphOf f c = some g → glyphInBlob f g = false →
      PaintsOrFaults (.drawChar c x y v) s (flat (charLit f c x.toNat y.toNat) v) (faultedWith 3 s))

/-- R185, R186: DRAW_TEXT draws the characters up to the zero byte, each at the cursor the advances before it lead to;
a string with no zero byte before the end of ASSET raises AssetOverrun with all of it drawn, and a character whose glyph
runs past the blob raises FontOverrun with the bits that exist drawn. Where FB lacks a lit pixel's byte,
StorageOverrun. -/
def Obligations.TextDrawsItsCharacters : Prop :=
  ∀ (s : State) (f : Font) (cs : List Byte) (p : Word32) (x y : Coord) (v : Byte), s.fb.wf = true →
    s.fontValid = true → s.cfg.fontRom[s.fontSel.toNat]? = some f → f.wf = true →
    (∀ c ∈ cs, c ≠ 0) → (∀ c ∈ cs, ∀ g, glyphOf f c = some g → glyphInBlob f g = true) →
    ((∃ rest, s.cfg.asset.drop p.toNat = cs ++ 0 :: rest) →
      PaintsOrFaults (.drawText p x y v) s (flat (textLit f cs x.toNat y.toNat) v) (drawn s))
    ∧ (s.cfg.asset.drop p.toNat = cs →
      PaintsOrFaults (.drawText p x y v) s (flat (textLit f cs x.toNat y.toNat) v) (faultedWith 2 s))
    ∧ (∀ c g rest, s.cfg.asset.drop p.toNat = cs ++ c :: rest → c ≠ 0 → glyphOf f c = some g →
      glyphInBlob f g = false →
      PaintsOrFaults (.drawText p x y v) s (flat (textLit f (cs ++ [c]) x.toNat y.toNat) v) (faultedWith 3 s))

/-! ## Protocol (45_protocol.md) -/

/-- R201 to R205, R219: SEND_COMMAND sends its byte in one command framing and SEND_DATA in one data framing, whatever
the byte; RESET_GRAYSCALE sends one command byte; no other state changes. If the transmit fails they end with
ERR_BUS. -/
def Obligations.SingleFramingsAreSent : Prop :=
  ∀ (s : State) (v : Byte),
    (txOk s (s.txCount + 1) = true →
      exec (.sendCommand v) s = .next { sentCmd v s with status := 0 }
      ∧ exec (.sendData v) s = .next { sentDat v s with status := 0 }
      ∧ exec .resetGrayscale s = .next { sentCmd s.cfg.cmd.defaultGray s with status := 0 })
    ∧ (txOk s (s.txCount + 1) = false →
      exec (.sendCommand v) s = .next (lostCmd v s) ∧ exec (.sendData v) s = .next (lostDat v s)
      ∧ exec .resetGrayscale s = .next (lostCmd s.cfg.cmd.defaultGray s))

/-- R212: SET_MODE sends the command byte of its sub-mode and then records the sub-mode; `PSTATE` and FB stay. On a
failed transmit `MODE` is free. -/
def Obligations.SetModeSendsAndRecords : Prop :=
  ∀ (s : State) (m : BitVec 2) (md : Mode) (c : Byte),
    ((m = 0 ∧ md = .normal ∧ c = s.cfg.cmd.modeNormal) ∨ (m = 1 ∧ md = .inverted ∧ c = s.cfg.cmd.modeInverted)
      ∨ (m = 2 ∧ md = .forceOn ∧ c = s.cfg.cmd.modeForceOn) ∨ (m = 3 ∧ md = .forceOff ∧ c = s.cfg.cmd.modeForceOff)) →
    (txOk s (s.txCount + 1) = true → exec (.setMode m) s = .next { sentCmd c s with mode := md, status := 0 })
    ∧ (txOk s (s.txCount + 1) = false → exec (.setMode m) s = .next (lostCmd c s))

/-- R213, R214: the sleep operations send one command byte each and record the display state, from every state. -/
def Obligations.SleepOperationsSendAndRecord : Prop :=
  ∀ s : State,
    (txOk s (s.txCount + 1) = true →
      exec .sleepOn s = .next { sentCmd s.cfg.cmd.sleepOn s with pstate := .asleep, status := 0 }
      ∧ exec .sleepOff s = .next { sentCmd s.cfg.cmd.sleepOff s with pstate := .awake, status := 0 })
    ∧ (txOk s (s.txCount + 1) = false →
      exec .sleepOn s = .next (lostCmd s.cfg.cmd.sleepOn s) ∧ exec .sleepOff s = .next (lostCmd s.cfg.cmd.sleepOff s))

/-- R215, R216: contrast sends its level unchanged, brightness only its low four bits, each after its command byte; the
bus may fail at either transmit. -/
def Obligations.ContrastAndBrightnessSend : Prop :=
  ∀ (s : State) (v : Byte),
    (txOk s (s.txCount + 1) = true → txOk s (s.txCount + 2) = true →
      exec (.setContrast v) s = .next { sentDat v (sentCmd s.cfg.cmd.setContrast s) with status := 0 }
      ∧ exec (.setBrightness v) s = .next { sentDat (v &&& 0x0F) (sentCmd s.cfg.cmd.setBrightness s) with status := 0 })
    ∧ (txOk s (s.txCount + 1) = true → txOk s (s.txCount + 2) = false →
      exec (.setContrast v) s = .next (lostDat v (sentCmd s.cfg.cmd.setContrast s))
      ∧ exec (.setBrightness v) s = .next (lostDat (v &&& 0x0F) (sentCmd s.cfg.cmd.setBrightness s)))
    ∧ (txOk s (s.txCount + 1) = false →
      exec (.setContrast v) s = .next (lostCmd s.cfg.cmd.setContrast s)
      ∧ exec (.setBrightness v) s = .next (lostCmd s.cfg.cmd.setBrightness s))

/-- R209, R203: INITIALIZE, when the bus takes all its transmits: the reset pulse and its delays, the body in order, the
stabilisation wait, power-on, the last delay; the display is AWAKE and NORMAL. When its `k`-th transmit is the first to
fail, it ends there. -/
def Obligations.InitializeSendsItsSequence : Prop :=
  ∀ (s : State) (pulse body : List TransportEvent),
    pulse = [.pinResetLow, .delayMs 1, .pinResetHigh, .delayMs 50] →
    body = s.cfg.initBody.flatMap (fun i => if i.isData then datEvents i.byte else cmdEvents i.byte) →
    (busOk s (s.cfg.initBody.length + 1) = true →
      exec .initDisplay s = .next
        { s with
          wire := s.wire ++ pulse ++ body ++ [.delayMs s.cfg.tStabMs] ++ cmdEvents s.cfg.cmd.displayOn ++ [.delayMs 50]
          txCount := s.txCount + s.cfg.initBody.length + 1
          pstate := .awake, mode := .normal, cs := true, dc := false, rst := true, status := 0 })
    ∧ (∀ k, 1 ≤ k → k ≤ s.cfg.initBody.length → busOk s (k - 1) = true → txOk s (s.txCount + k) = false →
      exec .initDisplay s = .next (lostIn body k { s with wire := s.wire ++ pulse, rst := true }))
    ∧ (busOk s s.cfg.initBody.length = true → txOk s (s.txCount + s.cfg.initBody.length + 1) = false →
      exec .initDisplay s = .next (lostIn (cmdEvents s.cfg.cmd.displayOn) 1
        { s with
          wire := s.wire ++ pulse ++ body ++ [.delayMs s.cfg.tStabMs]
          txCount := s.txCount + s.cfg.initBody.length, rst := true }))

/-- R217, R203: UPLOAD_GRAYSCALE with all 16 entries in range: the table command, the 16 data framings, the enable command
when the bus takes all 18 transmits; when the `k`-th of them is the first to fail, the operation ends there. -/
def Obligations.GrayscaleUploadSends : Prop :=
  ∀ (s : State) (p : Word32) (t : List Byte) (ev : List TransportEvent),
    (s.cfg.asset.drop p.toNat).take 16 = t → t.length = 16 → (∀ b ∈ t, b.toNat ≤ 180) →
    ev = cmdEvents s.cfg.cmd.setGrayTable ++ t.flatMap datEvents ++ cmdEvents s.cfg.cmd.enableGrayTable →
    (busOk s 18 = true →
      exec (.uploadGrayscale p) s = .next
        { s with wire := s.wire ++ ev, txCount := s.txCount + 18, cs := true, dc := false, status := 0 })
    ∧ (∀ k, 1 ≤ k → k ≤ 18 → busOk s (k - 1) = true → txOk s (s.txCount + k) = false →
      exec (.uploadGrayscale p) s = .next (lostIn ev k s))

/-- R217, R218, R256: an entry above 180 anywhere in the table sends nothing and changes only `STATUS`, whatever the
bus; a table that runs past ASSET faults first, with nothing sent. -/
def Obligations.GrayscaleUploadRejects : Prop :=
  ∀ (s : State) (p : Word32) (t : List Byte), (s.cfg.asset.drop p.toNat).take 16 = t →
    (t.length = 16 → (∃ b ∈ t, 180 < b.toNat) → exec (.uploadGrayscale p) s = .next { s with status := 1 })
    ∧ (t.length < 16 → exec (.uploadGrayscale p) s = .next { s with faulted := true, fcause := 2 })

/-- R220, R221, R203: SET_WINDOW sends its two commands with their arguments, columns biased by 28 modulo 256, rows as
given, when the bus takes all six transmits; when the `k`-th of them is the first to fail, it ends there. Nothing is
validated or stored. -/
def Obligations.SetWindowSends : Prop :=
  ∀ (s : State) (sc ec sr er : Byte),
    (busOk s 6 = true →
      exec (.setWindow sc ec sr er) s = .next
        { s with
          wire := s.wire ++ windowEvents sc ec sr er, txCount := s.txCount + 6, cs := true, dc := true, status := 0 })
    ∧ (∀ k, 1 ≤ k → k ≤ 6 → busOk s (k - 1) = true → txOk s (s.txCount + k) = false →
      exec (.setWindow sc ec sr er) s = .next (lostIn (windowEvents sc ec sr er) k s))

/-- R222, R223, R224, R256: TRANSFER sends the RAM-write command and the bytes `FB[p] .. FB[p+n−1]` as one bulk framing when
the bus takes both transmits; length 0 sends an empty array. A failed command wins over StorageOverrun, which is raised
after the command and before the bulk framing and wins over a failure of the array transmit. -/
def Obligations.TransferSendsTheBytes : Prop :=
  ∀ (s : State) (p n : Word32),
    (txOk s (s.txCount + 1) = false →
      exec (.transfer p n) s = .next (lostIn (cmdEvents s.cfg.cmd.writeRam) 1 s))
    ∧ (n ≠ 0 → s.cfg.fbBytes < p.toNat + n.toNat → txOk s (s.txCount + 1) = true →
      exec (.transfer p n) s = .next { sentCmd s.cfg.cmd.writeRam s with faulted := true, fcause := 1 })
    ∧ (n = 0 ∨ p.toNat + n.toNat ≤ s.cfg.fbBytes → ∀ ev,
      ev = cmdEvents s.cfg.cmd.writeRam ++ bulkEvents (fbSlice s.fb p.toNat n.toNat) n.toNat →
      (busOk s 2 = true →
        exec (.transfer p n) s = .next
          { s with wire := s.wire ++ ev, txCount := s.txCount + 2, cs := true, dc := true, status := 0 })
      ∧ (txOk s (s.txCount + 1) = true → txOk s (s.txCount + 2) = false →
        exec (.transfer p n) s = .next (lostIn ev 2 s)))

/-! ## The transfer orchestrator (46_transfer_orchestrator.md) -/

/-- R240, R241, R242, R256: PUSH programs the full window and sends the panel's bytes from the offset
`originY·(panelWidth div 2) + originX`, when the bus takes all eight transmits. A failure of one of the first seven (the
window and the RAM-write command) wins over StorageOverrun, which is raised after them and wins over a failure of the
array transmit. -/
def Obligations.PushSendsTheWindowAndTheBytes : Prop :=
  ∀ (s : State) (ox oy : Coord) (off n : Nat) (ev : List TransportEvent),
    off = oy.toNat * (s.cfg.panelWPx / 2) + ox.toNat → n = s.cfg.panelWPx * s.cfg.panelHPx / 2 →
    ev = windowEvents s.cfg.fullWindow.startCol s.cfg.fullWindow.endCol s.cfg.fullWindow.startRow
      s.cfg.fullWindow.endRow ++ cmdEvents s.cfg.cmd.writeRam →
    (∀ k, 1 ≤ k → k ≤ 7 → busOk s (k - 1) = true → txOk s (s.txCount + k) = false →
      exec (.push ox oy) s = .next (lostIn ev k s))
    ∧ (n ≠ 0 → s.cfg.fbBytes < off + n → busOk s 7 = true →
      exec (.push ox oy) s = .next
        { s with
          wire := s.wire ++ ev, txCount := s.txCount + 7, cs := true, dc := false, faulted := true, fcause := 1 })
    ∧ (n = 0 ∨ off + n ≤ s.cfg.fbBytes →
      (busOk s 8 = true →
        exec (.push ox oy) s = .next
          { s with
            wire := s.wire ++ ev ++ bulkEvents (fbSlice s.fb off n) n, txCount := s.txCount + 8, cs := true, dc := true,
            status := 0 })
      ∧ (busOk s 7 = true → txOk s (s.txCount + 8) = false →
        exec (.push ox oy) s = .next (lostIn (ev ++ bulkEvents (fbSlice s.fb off n) n) 8 s)))

/-- R89: PUSH is SET_WINDOW and then TRANSFER, but for the status code between them; on a failing bus too. -/
def Obligations.PushIsWindowThenTransfer : Prop :=
  ∀ (s t : State) (ox oy : Coord) (p n : Word32),
    p.toNat = oy.toNat * (s.cfg.panelWPx / 2) + ox.toNat → n.toNat = s.cfg.panelWPx * s.cfg.panelHPx / 2 →
    exec (.setWindow s.cfg.fullWindow.startCol s.cfg.fullWindow.endCol s.cfg.fullWindow.startRow
      s.cfg.fullWindow.endRow) s = .next t →
    (t.status = 0 → exec (.push ox oy) s = exec (.transfer p n) { t with status := s.status })
    ∧ (t.status = 2 → exec (.push ox oy) s = .next t)
end

