-- ==== Sys2Proof/Laws/Memory.lean ====
section
/-! SUPPORT. The laws of the framebuffer memory: read after write and after fill, the canonical form is kept, equal
reads make equal memories, and a fill is its writes one by one. -/

namespace Sys2Proof.Machine

theorem Memory.wfFrom_mono {lo lo' : Nat} {m : Memory} (h : Memory.wfFrom lo m = true) (hl : lo' ≤ lo) :
    Memory.wfFrom lo' m = true := by
  cases m with
  | nil => rfl
  | cons c m =>
    obtain ⟨a, v⟩ := c
    simp only [Memory.wfFrom, Bool.and_eq_true, decide_eq_true_eq] at h ⊢
    exact ⟨⟨by omega, h.1.2⟩, h.2⟩

theorem Memory.read_below {lo a : Nat} {m : Memory} (h : Memory.wfFrom lo m = true) (ha : a < lo) :
    Memory.read m a = unlistedByte := by
  induction m generalizing lo with
  | nil => rfl
  | cons c m ih =>
    obtain ⟨b, v⟩ := c
    simp only [Memory.wfFrom, Bool.and_eq_true, decide_eq_true_eq] at h
    rw [Memory.read, if_neg (by omega), ih h.2 (by omega)]

theorem Memory.read_cons {a b : Nat} {v : Byte} {m : Memory} (h : Memory.wfFrom (a + 1) m = true) :
    Memory.read (Memory.cons a v m) b = if b = a then v else Memory.read m b := by
  unfold Memory.cons
  by_cases hv : v = unlistedByte
  · rw [if_pos hv]
    by_cases hb : b = a
    · rw [if_pos hb, Memory.read_below h (by omega), hv]
    · rw [if_neg hb]
  · rw [if_neg hv, Memory.read]

theorem Memory.wfFrom_cons {lo a : Nat} {v : Byte} {m : Memory} (h : Memory.wfFrom (a + 1) m = true) (hl : lo ≤ a) :
    Memory.wfFrom lo (Memory.cons a v m) = true := by
  unfold Memory.cons
  split
  · exact Memory.wfFrom_mono h (by omega)
  · simp only [Memory.wfFrom, Bool.and_eq_true, decide_eq_true_eq, bne_iff_ne, ne_eq]
    exact ⟨⟨hl, ‹_›⟩, h⟩

theorem Memory.wfFrom_write {lo a : Nat} {v : Byte} {m : Memory} (h : Memory.wfFrom lo m = true) (hl : lo ≤ a) :
    Memory.wfFrom lo (Memory.write m a v) = true := by
  induction m generalizing lo with
  | nil => exact Memory.wfFrom_cons rfl hl
  | cons c m ih =>
    obtain ⟨b, u⟩ := c
    have h' := h
    simp only [Memory.wfFrom, Bool.and_eq_true, decide_eq_true_eq] at h
    rw [Memory.write]
    split
    · refine Memory.wfFrom_cons ?_ hl
      simp only [Memory.wfFrom, Bool.and_eq_true, decide_eq_true_eq]
      exact ⟨⟨by omega, h.1.2⟩, h.2⟩
    · split
      · subst_vars
        exact Memory.wfFrom_cons h.2 hl
      · simp only [Memory.wfFrom, Bool.and_eq_true, decide_eq_true_eq]
        exact ⟨h.1, ih h.2 (by omega)⟩

/-- A write keeps the canonical form. -/
theorem Memory.wf_write {m : Memory} (h : m.wf = true) (a : Nat) (v : Byte) : (m.write a v).wf = true :=
  Memory.wfFrom_write h (by omega)

theorem Memory.read_write_from {lo : Nat} {m : Memory} (h : Memory.wfFrom lo m = true) (a b : Nat) (v : Byte) :
    Memory.read (Memory.write m a v) b = if b = a then v else Memory.read m b := by
  induction m generalizing lo with
  | nil => exact Memory.read_cons rfl
  | cons c m ih =>
    obtain ⟨e, u⟩ := c
    simp only [Memory.wfFrom, Bool.and_eq_true, decide_eq_true_eq] at h
    rw [Memory.write]
    split
    · rw [Memory.read_cons]
      simp only [Memory.wfFrom, Bool.and_eq_true, decide_eq_true_eq]
      exact ⟨⟨by omega, h.1.2⟩, h.2⟩
    · split
      · subst_vars
        rw [Memory.read_cons h.2, Memory.read]
        split <;> rfl
      · rw [Memory.read, ih h.2, Memory.read]
        split_ifs <;> first | rfl | omega

/-- Read after write (R62). -/
theorem Memory.read_write {m : Memory} (h : m.wf = true) (a b : Nat) (v : Byte) :
    (m.write a v).read b = if b = a then v else m.read b := Memory.read_write_from h a b v

/-- A canonical memory is what it reads as. -/
theorem Memory.ext_from {lo : Nat} {m m' : Memory} (h : Memory.wfFrom lo m = true) (h' : Memory.wfFrom lo m' = true)
    (hr : ∀ a, m.read a = m'.read a) : m = m' := by
  induction m generalizing lo m' with
  | nil =>
    cases m' with
    | nil => rfl
    | cons c m' =>
      obtain ⟨a, v⟩ := c
      have := hr a
      simp only [Memory.wfFrom, Bool.and_eq_true, decide_eq_true_eq, bne_iff_ne] at h'
      simp only [Memory.read, if_true] at this
      exact absurd this.symm h'.1.2
  | cons c m ih =>
    obtain ⟨a, v⟩ := c
    have h0 := h
    have h0' := h'
    simp only [Memory.wfFrom, Bool.and_eq_true, decide_eq_true_eq, bne_iff_ne] at h
    cases m' with
    | nil =>
      have := hr a
      simp only [Memory.read, if_true] at this
      exact absurd this h.1.2
    | cons c' m' =>
      obtain ⟨b, u⟩ := c'
      simp only [Memory.wfFrom, Bool.and_eq_true, decide_eq_true_eq, bne_iff_ne] at h'
      have ha := hr a
      have hb := hr b
      simp only [Memory.read, if_true] at ha hb
      have hab : a = b := by
        by_contra hne
        rcases Nat.lt_or_gt_of_ne hne with hlt | hgt
        · rw [if_neg hne, Memory.read_below h'.2 (by omega)] at ha
          exact h.1.2 ha
        · rw [if_neg (Ne.symm hne), Memory.read_below h.2 (by omega)] at hb
          exact h'.1.2 hb.symm
      subst hab
      rw [if_pos rfl] at ha
      subst ha
      congr 1
      refine ih h.2 h'.2 fun x => ?_
      by_cases hx : x = a
      · subst hx
        rw [Memory.read_below h.2 (by omega), Memory.read_below h'.2 (by omega)]
      · have := hr x
        simpa only [Memory.read, if_neg hx] using this

/-- Two canonical memories with equal reads are equal. -/
theorem Memory.ext {m m' : Memory} (h : m.wf = true) (h' : m'.wf = true) (hr : ∀ a, m.read a = m'.read a) : m = m' :=
  Memory.ext_from h h' hr

/-! The linear fill -/

theorem Memory.wfFrom_drop {n lo : Nat} {m : Memory} (h : Memory.wfFrom lo m = true) :
    Memory.wfFrom n (m.dropWhile fun c => c.1 < n) = true := by
  induction m generalizing lo with
  | nil => rfl
  | cons c m ih =>
    obtain ⟨a, v⟩ := c
    simp only [Memory.wfFrom, Bool.and_eq_true, decide_eq_true_eq] at h
    rw [List.dropWhile_cons]
    split
    · exact ih h.2
    · rename_i hn
      simp only [decide_eq_true_eq] at hn
      simp only [Memory.wfFrom, Bool.and_eq_true, decide_eq_true_eq]
      exact ⟨⟨by omega, h.1.2⟩, h.2⟩

theorem Memory.read_drop {n lo a : Nat} {m : Memory} (h : Memory.wfFrom lo m = true) (ha : n ≤ a) :
    Memory.read (m.dropWhile fun c => c.1 < n) a = m.read a := by
  induction m generalizing lo with
  | nil => rfl
  | cons c m ih =>
    obtain ⟨b, v⟩ := c
    simp only [Memory.wfFrom, Bool.and_eq_true, decide_eq_true_eq] at h
    rw [List.dropWhile_cons]
    split
    · rename_i hn
      simp only [decide_eq_true_eq] at hn
      rw [ih h.2, Memory.read, if_neg (by omega)]
    · rfl

theorem Memory.wfFrom_run (k n : Nat) (v : Byte) (hv : v ≠ unlistedByte) (m : Memory)
    (h : Memory.wfFrom (k + n) m = true) :
    Memory.wfFrom k ((List.range' k n).map (fun a => (a, v)) ++ m) = true := by
  induction n generalizing k with
  | zero => simpa using h
  | succ n ih =>
    simp only [List.range'_succ, List.map_cons, List.cons_append, Memory.wfFrom, Bool.and_eq_true, decide_eq_true_eq,
      bne_iff_ne]
    exact ⟨⟨le_refl _, hv⟩, ih (k + 1) (by rw [show k + 1 + n = k + (n + 1) by omega]; exact h)⟩

theorem Memory.read_run (k n a : Nat) (v : Byte) (m : Memory) :
    Memory.read ((List.range' k n).map (fun a => (a, v)) ++ m) a = if k ≤ a ∧ a < k + n then v else m.read a := by
  induction n generalizing k with
  | zero => rw [if_neg (by omega)]; rfl
  | succ n ih =>
    simp only [List.range'_succ, List.map_cons, List.cons_append]
    rw [Memory.read, ih]
    by_cases hk : a = k
    · rw [if_pos hk, if_pos (by omega)]
    · rw [if_neg hk]
      by_cases h : k + 1 ≤ a ∧ a < k + 1 + n
      · rw [if_pos h, if_pos (by omega)]
      · rw [if_neg h, if_neg (by omega)]

/-- A fill keeps the canonical form. -/
theorem Memory.wf_fill {m : Memory} (h : m.wf = true) (n : Nat) (v : Byte) : (m.fill n v).wf = true := by
  unfold Memory.fill Memory.wf
  split
  · exact Memory.wfFrom_mono (Memory.wfFrom_drop h) (Nat.zero_le n)
  · rw [List.range_eq_range']
    refine Memory.wfFrom_run 0 n v ‹_› _ ?_
    rw [Nat.zero_add]
    exact Memory.wfFrom_drop h

/-- Read after fill (R111). -/
theorem Memory.read_fill {m : Memory} (h : m.wf = true) (n a : Nat) (v : Byte) :
    (m.fill n v).read a = if a < n then v else m.read a := by
  unfold Memory.fill
  by_cases ha : a < n
  · rw [if_pos ha]
    split
    · subst_vars
      exact Memory.read_below (Memory.wfFrom_drop h) ha
    · rw [List.range_eq_range', Memory.read_run, if_pos ⟨by omega, by omega⟩]
  · rw [if_neg ha]
    split
    · exact Memory.read_drop h (by omega)
    · rw [List.range_eq_range', Memory.read_run, if_neg (by omega)]
      exact Memory.read_drop h (by omega)

/-- The fill is the writes of R111's loop, one by one, in ascending order. -/
theorem Memory.fill_eq_writes {m : Memory} (h : m.wf = true) (n : Nat) (v : Byte) :
    m.fill n v = (List.range n).foldl (fun m a => m.write a v) m := by
  have key : ∀ n, ((List.range n).foldl (fun m a => Memory.write m a v) m).wf = true ∧
      ∀ a, ((List.range n).foldl (fun m a => Memory.write m a v) m).read a = if a < n then v else m.read a := by
    intro n
    induction n with
    | zero => exact ⟨h, fun a => by simp⟩
    | succ n ih =>
      rw [List.range_succ, List.foldl_append]
      refine ⟨Memory.wf_write ih.1 n v, fun a => ?_⟩
      simp only [List.foldl_cons, List.foldl_nil]
      rw [Memory.read_write ih.1, ih.2]
      split_ifs <;> first | rfl | omega
  exact Memory.ext (Memory.wf_fill h n v) (key n).1 fun a => by rw [Memory.read_fill h, (key n).2]

/-! ## Which addresses are listed -/

theorem Memory.mem_cons {a : Nat} {v : Byte} {m : Memory} {c : Host.Cell} (h : c ∈ Memory.cons a v m) :
    c.1 = a ∨ c ∈ m := by
  unfold Memory.cons at h
  split at h
  · exact .inr h
  · exact (List.mem_cons.1 h).imp_left fun h => by rw [h]

/-- A write lists no address but the one written. -/
theorem Memory.mem_write {m : Memory} {a : Nat} {v : Byte} {c : Host.Cell} (h : c ∈ m.write a v) :
    c.1 = a ∨ c ∈ m := by
  induction m with
  | nil => exact Memory.mem_cons h
  | cons d m ih =>
    obtain ⟨b, u⟩ := d
    unfold Memory.write at h
    split at h
    · exact Memory.mem_cons h
    · split at h
      · exact (Memory.mem_cons h).imp_right (List.mem_cons_of_mem _)
      · rcases List.mem_cons.1 h with rfl | h
        · exact .inr (List.mem_cons_self ..)
        · exact (ih h).imp_right (List.mem_cons_of_mem _)

/-- A fill lists no address but those filled. -/
theorem Memory.mem_fill {m : Memory} {n : Nat} {v : Byte} {c : Host.Cell} (h : c ∈ m.fill n v) : c.1 < n ∨ c ∈ m := by
  unfold Memory.fill at h
  rcases List.mem_append.1 h with h | h
  · split at h
    · cases h
    · obtain ⟨a, ha, rfl⟩ := List.mem_map.1 h
      exact .inl (List.mem_range.1 ha)
  · exact .inr ((List.dropWhile_sublist _).subset h)

end Sys2Proof.Machine
end

