-- ==== Sys2Proof/Laws/State.lean ====
section
/-! SUPPORT. One lemma per field per update of State, so that no proof unfolds a record update. -/

namespace Sys2Proof.Machine

/-! `complete` -/

@[simp] theorem complete_op (code : StatusCode) (s : State) : (complete code s).op = s.op := rfl
@[simp] theorem complete_w (code : StatusCode) (s : State) : (complete code s).w = s.w := rfl
@[simp] theorem complete_h (code : StatusCode) (s : State) : (complete code s).h = s.h := rfl
@[simp] theorem complete_fontValid (code : StatusCode) (s : State) : (complete code s).fontValid = s.fontValid := rfl
@[simp] theorem complete_fontSel (code : StatusCode) (s : State) : (complete code s).fontSel = s.fontSel := rfl
@[simp] theorem complete_pstate (code : StatusCode) (s : State) : (complete code s).pstate = s.pstate := rfl
@[simp] theorem complete_mode (code : StatusCode) (s : State) : (complete code s).mode = s.mode := rfl
@[simp] theorem complete_status (code : StatusCode) (s : State) : (complete code s).status = statusByte code := rfl
@[simp] theorem complete_faulted (code : StatusCode) (s : State) : (complete code s).faulted = s.faulted := rfl
@[simp] theorem complete_fcause (code : StatusCode) (s : State) : (complete code s).fcause = s.fcause := rfl
@[simp] theorem complete_cs (code : StatusCode) (s : State) : (complete code s).cs = s.cs := rfl
@[simp] theorem complete_dc (code : StatusCode) (s : State) : (complete code s).dc = s.dc := rfl
@[simp] theorem complete_rst (code : StatusCode) (s : State) : (complete code s).rst = s.rst := rfl
@[simp] theorem complete_fb (code : StatusCode) (s : State) : (complete code s).fb = s.fb := rfl
@[simp] theorem complete_wire (code : StatusCode) (s : State) : (complete code s).wire = s.wire := rfl
@[simp] theorem complete_txCount (code : StatusCode) (s : State) : (complete code s).txCount = s.txCount := rfl
@[simp] theorem complete_program (code : StatusCode) (s : State) : (complete code s).program = s.program := rfl
@[simp] theorem complete_pos (code : StatusCode) (s : State) : (complete code s).pos = s.pos := rfl
@[simp] theorem complete_resetIn (code : StatusCode) (s : State) : (complete code s).resetIn = s.resetIn := rfl
@[simp] theorem complete_resetDuring (code : StatusCode) (s : State) : (complete code s).resetDuring = s.resetDuring := rfl
@[simp] theorem complete_txFails (code : StatusCode) (s : State) : (complete code s).txFails = s.txFails := rfl
@[simp] theorem complete_draws (code : StatusCode) (s : State) : (complete code s).draws = s.draws := rfl
@[simp] theorem complete_cfg (code : StatusCode) (s : State) : (complete code s).cfg = s.cfg := rfl

/-! `latchFault` -/

@[simp] theorem latchFault_op (cause : Cause) (s : State) : (latchFault cause s).op = s.op := rfl
@[simp] theorem latchFault_w (cause : Cause) (s : State) : (latchFault cause s).w = s.w := rfl
@[simp] theorem latchFault_h (cause : Cause) (s : State) : (latchFault cause s).h = s.h := rfl
@[simp] theorem latchFault_fontValid (cause : Cause) (s : State) : (latchFault cause s).fontValid = s.fontValid := rfl
@[simp] theorem latchFault_fontSel (cause : Cause) (s : State) : (latchFault cause s).fontSel = s.fontSel := rfl
@[simp] theorem latchFault_pstate (cause : Cause) (s : State) : (latchFault cause s).pstate = s.pstate := rfl
@[simp] theorem latchFault_mode (cause : Cause) (s : State) : (latchFault cause s).mode = s.mode := rfl
@[simp] theorem latchFault_status (cause : Cause) (s : State) : (latchFault cause s).status = s.status := rfl
@[simp] theorem latchFault_faulted (cause : Cause) (s : State) : (latchFault cause s).faulted = true := rfl
@[simp] theorem latchFault_fcause (cause : Cause) (s : State) : (latchFault cause s).fcause = causeByte cause := rfl
@[simp] theorem latchFault_cs (cause : Cause) (s : State) : (latchFault cause s).cs = s.cs := rfl
@[simp] theorem latchFault_dc (cause : Cause) (s : State) : (latchFault cause s).dc = s.dc := rfl
@[simp] theorem latchFault_rst (cause : Cause) (s : State) : (latchFault cause s).rst = s.rst := rfl
@[simp] theorem latchFault_fb (cause : Cause) (s : State) : (latchFault cause s).fb = s.fb := rfl
@[simp] theorem latchFault_wire (cause : Cause) (s : State) : (latchFault cause s).wire = s.wire := rfl
@[simp] theorem latchFault_txCount (cause : Cause) (s : State) : (latchFault cause s).txCount = s.txCount := rfl
@[simp] theorem latchFault_program (cause : Cause) (s : State) : (latchFault cause s).program = s.program := rfl
@[simp] theorem latchFault_pos (cause : Cause) (s : State) : (latchFault cause s).pos = s.pos := rfl
@[simp] theorem latchFault_resetIn (cause : Cause) (s : State) : (latchFault cause s).resetIn = s.resetIn := rfl
@[simp] theorem latchFault_resetDuring (cause : Cause) (s : State) : (latchFault cause s).resetDuring = s.resetDuring := rfl
@[simp] theorem latchFault_txFails (cause : Cause) (s : State) : (latchFault cause s).txFails = s.txFails := rfl
@[simp] theorem latchFault_draws (cause : Cause) (s : State) : (latchFault cause s).draws = s.draws := rfl
@[simp] theorem latchFault_cfg (cause : Cause) (s : State) : (latchFault cause s).cfg = s.cfg := rfl

/-! `busLost` -/

@[simp] theorem busLost_op (s : State) : (busLost s).op = s.op := rfl
@[simp] theorem busLost_w (s : State) : (busLost s).w = s.w := rfl
@[simp] theorem busLost_h (s : State) : (busLost s).h = s.h := rfl
@[simp] theorem busLost_fontValid (s : State) : (busLost s).fontValid = s.fontValid := rfl
@[simp] theorem busLost_fontSel (s : State) : (busLost s).fontSel = s.fontSel := rfl
@[simp] theorem busLost_pstate (s : State) : (busLost s).pstate = Config.freePState s.draws := rfl
@[simp] theorem busLost_mode (s : State) : (busLost s).mode = Config.freeMode s.draws := rfl
@[simp] theorem busLost_status (s : State) : (busLost s).status = statusByte .errBus := rfl
@[simp] theorem busLost_faulted (s : State) : (busLost s).faulted = s.faulted := rfl
@[simp] theorem busLost_fcause (s : State) : (busLost s).fcause = s.fcause := rfl
@[simp] theorem busLost_cs (s : State) : (busLost s).cs = s.cs := rfl
@[simp] theorem busLost_dc (s : State) : (busLost s).dc = s.dc := rfl
@[simp] theorem busLost_rst (s : State) : (busLost s).rst = s.rst := rfl
@[simp] theorem busLost_fb (s : State) : (busLost s).fb = s.fb := rfl
@[simp] theorem busLost_wire (s : State) : (busLost s).wire = s.wire := rfl
@[simp] theorem busLost_txCount (s : State) : (busLost s).txCount = s.txCount := rfl
@[simp] theorem busLost_program (s : State) : (busLost s).program = s.program := rfl
@[simp] theorem busLost_pos (s : State) : (busLost s).pos = s.pos := rfl
@[simp] theorem busLost_resetIn (s : State) : (busLost s).resetIn = s.resetIn := rfl
@[simp] theorem busLost_resetDuring (s : State) : (busLost s).resetDuring = s.resetDuring := rfl
@[simp] theorem busLost_txFails (s : State) : (busLost s).txFails = s.txFails := rfl
@[simp] theorem busLost_draws (s : State) : (busLost s).draws = s.draws + 1 := rfl
@[simp] theorem busLost_cfg (s : State) : (busLost s).cfg = s.cfg := rfl

/-! `advance` -/

@[simp] theorem advance_op (s : State) : (advance s).op = s.op := rfl
@[simp] theorem advance_w (s : State) : (advance s).w = s.w := rfl
@[simp] theorem advance_h (s : State) : (advance s).h = s.h := rfl
@[simp] theorem advance_fontValid (s : State) : (advance s).fontValid = s.fontValid := rfl
@[simp] theorem advance_fontSel (s : State) : (advance s).fontSel = s.fontSel := rfl
@[simp] theorem advance_pstate (s : State) : (advance s).pstate = s.pstate := rfl
@[simp] theorem advance_mode (s : State) : (advance s).mode = s.mode := rfl
@[simp] theorem advance_status (s : State) : (advance s).status = s.status := rfl
@[simp] theorem advance_faulted (s : State) : (advance s).faulted = s.faulted := rfl
@[simp] theorem advance_fcause (s : State) : (advance s).fcause = s.fcause := rfl
@[simp] theorem advance_cs (s : State) : (advance s).cs = s.cs := rfl
@[simp] theorem advance_dc (s : State) : (advance s).dc = s.dc := rfl
@[simp] theorem advance_rst (s : State) : (advance s).rst = s.rst := rfl
@[simp] theorem advance_fb (s : State) : (advance s).fb = s.fb := rfl
@[simp] theorem advance_wire (s : State) : (advance s).wire = s.wire := rfl
@[simp] theorem advance_txCount (s : State) : (advance s).txCount = s.txCount := rfl
@[simp] theorem advance_program (s : State) : (advance s).program = s.program := rfl
@[simp] theorem advance_pos (s : State) : (advance s).pos = s.pos + 1 := rfl
@[simp] theorem advance_resetIn (s : State) : (advance s).resetIn = s.resetIn := rfl
@[simp] theorem advance_resetDuring (s : State) : (advance s).resetDuring = s.resetDuring := rfl
@[simp] theorem advance_txFails (s : State) : (advance s).txFails = s.txFails := rfl
@[simp] theorem advance_draws (s : State) : (advance s).draws = s.draws := rfl
@[simp] theorem advance_cfg (s : State) : (advance s).cfg = s.cfg := rfl

/-! `latchOp` -/

@[simp] theorem latchOp_op (d : Descriptor) (s : State) : (latchOp d s).op = d := rfl
@[simp] theorem latchOp_w (d : Descriptor) (s : State) : (latchOp d s).w = s.w := rfl
@[simp] theorem latchOp_h (d : Descriptor) (s : State) : (latchOp d s).h = s.h := rfl
@[simp] theorem latchOp_fontValid (d : Descriptor) (s : State) : (latchOp d s).fontValid = s.fontValid := rfl
@[simp] theorem latchOp_fontSel (d : Descriptor) (s : State) : (latchOp d s).fontSel = s.fontSel := rfl
@[simp] theorem latchOp_pstate (d : Descriptor) (s : State) : (latchOp d s).pstate = s.pstate := rfl
@[simp] theorem latchOp_mode (d : Descriptor) (s : State) : (latchOp d s).mode = s.mode := rfl
@[simp] theorem latchOp_status (d : Descriptor) (s : State) : (latchOp d s).status = s.status := rfl
@[simp] theorem latchOp_faulted (d : Descriptor) (s : State) : (latchOp d s).faulted = s.faulted := rfl
@[simp] theorem latchOp_fcause (d : Descriptor) (s : State) : (latchOp d s).fcause = s.fcause := rfl
@[simp] theorem latchOp_cs (d : Descriptor) (s : State) : (latchOp d s).cs = s.cs := rfl
@[simp] theorem latchOp_dc (d : Descriptor) (s : State) : (latchOp d s).dc = s.dc := rfl
@[simp] theorem latchOp_rst (d : Descriptor) (s : State) : (latchOp d s).rst = s.rst := rfl
@[simp] theorem latchOp_fb (d : Descriptor) (s : State) : (latchOp d s).fb = s.fb := rfl
@[simp] theorem latchOp_wire (d : Descriptor) (s : State) : (latchOp d s).wire = s.wire := rfl
@[simp] theorem latchOp_txCount (d : Descriptor) (s : State) : (latchOp d s).txCount = s.txCount := rfl
@[simp] theorem latchOp_program (d : Descriptor) (s : State) : (latchOp d s).program = s.program := rfl
@[simp] theorem latchOp_pos (d : Descriptor) (s : State) : (latchOp d s).pos = s.pos := rfl
@[simp] theorem latchOp_resetIn (d : Descriptor) (s : State) : (latchOp d s).resetIn = s.resetIn := rfl
@[simp] theorem latchOp_resetDuring (d : Descriptor) (s : State) : (latchOp d s).resetDuring = s.resetDuring := rfl
@[simp] theorem latchOp_txFails (d : Descriptor) (s : State) : (latchOp d s).txFails = s.txFails := rfl
@[simp] theorem latchOp_draws (d : Descriptor) (s : State) : (latchOp d s).draws = s.draws := rfl
@[simp] theorem latchOp_cfg (d : Descriptor) (s : State) : (latchOp d s).cfg = s.cfg := rfl

/-! `blockReset` -/

@[simp] theorem blockReset_op (s : State) : (blockReset s).op = 0 := rfl
@[simp] theorem blockReset_w (s : State) : (blockReset s).w = 0 := rfl
@[simp] theorem blockReset_h (s : State) : (blockReset s).h = 0 := rfl
@[simp] theorem blockReset_fontValid (s : State) : (blockReset s).fontValid = false := rfl
@[simp] theorem blockReset_fontSel (s : State) : (blockReset s).fontSel = 0 := rfl
@[simp] theorem blockReset_pstate (s : State) : (blockReset s).pstate = .reset := rfl
@[simp] theorem blockReset_mode (s : State) : (blockReset s).mode = .normal := rfl
@[simp] theorem blockReset_status (s : State) : (blockReset s).status = 0 := rfl
@[simp] theorem blockReset_faulted (s : State) : (blockReset s).faulted = false := rfl
@[simp] theorem blockReset_fcause (s : State) : (blockReset s).fcause = 0 := rfl
@[simp] theorem blockReset_cs (s : State) : (blockReset s).cs = true := rfl
@[simp] theorem blockReset_dc (s : State) : (blockReset s).dc = true := rfl
@[simp] theorem blockReset_rst (s : State) : (blockReset s).rst = true := rfl
@[simp] theorem blockReset_fb (s : State) : (blockReset s).fb = s.fb := rfl
@[simp] theorem blockReset_wire (s : State) : (blockReset s).wire = [] := rfl
@[simp] theorem blockReset_txCount (s : State) : (blockReset s).txCount = 0 := rfl
@[simp] theorem blockReset_program (s : State) : (blockReset s).program = s.program := rfl
@[simp] theorem blockReset_pos (s : State) : (blockReset s).pos = s.pos := rfl
@[simp] theorem blockReset_resetIn (s : State) : (blockReset s).resetIn = false := rfl
@[simp] theorem blockReset_resetDuring (s : State) : (blockReset s).resetDuring = none := rfl
@[simp] theorem blockReset_txFails (s : State) : (blockReset s).txFails = s.txFails := rfl
@[simp] theorem blockReset_draws (s : State) : (blockReset s).draws = s.draws := rfl
@[simp] theorem blockReset_cfg (s : State) : (blockReset s).cfg = s.cfg := rfl

/-! `emitted` -/

@[simp] theorem emitted_op (e : TransportEvent) (s : State) : (emitted e s).op = s.op := by
  cases e <;> rfl
@[simp] theorem emitted_w (e : TransportEvent) (s : State) : (emitted e s).w = s.w := by
  cases e <;> rfl
@[simp] theorem emitted_h (e : TransportEvent) (s : State) : (emitted e s).h = s.h := by
  cases e <;> rfl
@[simp] theorem emitted_fontValid (e : TransportEvent) (s : State) : (emitted e s).fontValid = s.fontValid := by
  cases e <;> rfl
@[simp] theorem emitted_fontSel (e : TransportEvent) (s : State) : (emitted e s).fontSel = s.fontSel := by
  cases e <;> rfl
@[simp] theorem emitted_pstate (e : TransportEvent) (s : State) : (emitted e s).pstate = s.pstate := by
  cases e <;> rfl
@[simp] theorem emitted_mode (e : TransportEvent) (s : State) : (emitted e s).mode = s.mode := by
  cases e <;> rfl
@[simp] theorem emitted_status (e : TransportEvent) (s : State) : (emitted e s).status = s.status := by
  cases e <;> rfl
@[simp] theorem emitted_faulted (e : TransportEvent) (s : State) : (emitted e s).faulted = s.faulted := by
  cases e <;> rfl
@[simp] theorem emitted_fcause (e : TransportEvent) (s : State) : (emitted e s).fcause = s.fcause := by
  cases e <;> rfl
@[simp] theorem emitted_fb (e : TransportEvent) (s : State) : (emitted e s).fb = s.fb := by
  cases e <;> rfl
@[simp] theorem emitted_wire (e : TransportEvent) (s : State) : (emitted e s).wire = s.wire ++ [e] := by
  cases e <;> rfl
@[simp] theorem emitted_program (e : TransportEvent) (s : State) : (emitted e s).program = s.program := by
  cases e <;> rfl
@[simp] theorem emitted_pos (e : TransportEvent) (s : State) : (emitted e s).pos = s.pos := by
  cases e <;> rfl
@[simp] theorem emitted_resetIn (e : TransportEvent) (s : State) : (emitted e s).resetIn = s.resetIn := by
  cases e <;> rfl
@[simp] theorem emitted_resetDuring (e : TransportEvent) (s : State) : (emitted e s).resetDuring = s.resetDuring := by
  cases e <;> rfl
@[simp] theorem emitted_txFails (e : TransportEvent) (s : State) : (emitted e s).txFails = s.txFails := by
  cases e <;> rfl
@[simp] theorem emitted_draws (e : TransportEvent) (s : State) : (emitted e s).draws = s.draws := by
  cases e <;> rfl
@[simp] theorem emitted_cfg (e : TransportEvent) (s : State) : (emitted e s).cfg = s.cfg := by
  cases e <;> rfl

/-- `TXCOUNT` counts the transmits (R200). -/
theorem emitted_txCount (e : TransportEvent) (s : State) :
    (emitted e s).txCount = s.txCount + (if isTransmit e then 1 else 0) := by
  cases e <;> rfl

/-- The transmits that fail are an input, which no event changes. -/
@[simp] theorem txOk_emitted (e : TransportEvent) (s : State) (k : Nat) : txOk (emitted e s) k = txOk s k := by
  simp [txOk]

end Sys2Proof.Machine
end

