-- ==== Sys2Proof/Laws/Ops.lean ====
section
/-! SUPPORT. What each shared operation can do, said once: how pieces of pseudocode compose, and the cases
of the pixel write, the memory accesses and the framings. -/

namespace Sys2Proof.Machine

/-! ## Composition -/

theorem pure_apply {α : Type} (a : α) (s : State) : (pure a : Op α) s = .ok a s := rfl

theorem bind_apply {α β : Type} (m : Op α) (f : α → Op β) (s : State) :
    (m >>= f) s = match m s with
      | .ok a t => f a t
      | .error e t => .error e t := by
  show EStateM.bind m f s = _
  unfold EStateM.bind
  cases m s <;> rfl

theorem bind_ok {α β : Type} {m : Op α} {f : α → Op β} {s t : State} {a : α} (h : m s = .ok a t) :
    (m >>= f) s = f a t := by
  rw [bind_apply, h]

theorem bind_error {α β : Type} {m : Op α} {f : α → Op β} {s t : State} {e : Stop} (h : m s = .error e t) :
    (m >>= f) s = .error e t := by
  rw [bind_apply, h]

theorem get_bind_apply {β : Type} (f : State → Op β) (s : State) : ((get : Op State) >>= f) s = f s s := rfl

theorem forEach_nil {α : Type} (f : α → Op Unit) (s : State) : forEach [] f s = .ok () s := rfl

theorem forEach_cons {α : Type} (a : α) (l : List α) (f : α → Op Unit) (s : State) :
    forEach (a :: l) f s = match f a s with
      | .ok _ t => forEach l f t
      | .error e t => .error e t := by
  show (f a >>= fun _ => forEach l f) s = _
  rw [bind_apply]
  cases f a s <;> rfl

theorem forEach_cons_ok {α : Type} {a : α} {l : List α} {f : α → Op Unit} {s t : State} (h : f a s = .ok () t) :
    forEach (a :: l) f s = forEach l f t := by
  rw [forEach_cons, h]

theorem forEach_cons_error {α : Type} {a : α} {l : List α} {f : α → Op Unit} {s t : State} {e : Stop}
    (h : f a s = .error e t) : forEach (a :: l) f s = .error e t := by
  rw [forEach_cons, h]

theorem forEach_append {α : Type} (l l' : List α) (f : α → Op Unit) (s : State) :
    forEach (l ++ l') f s = match forEach l f s with
      | .ok _ t => forEach l' f t
      | .error e t => .error e t := by
  induction l generalizing s with
  | nil => rfl
  | cons a l ih =>
    rw [List.cons_append, forEach_cons, forEach_cons]
    cases f a s with
    | ok u t => exact ih t
    | error e t => rfl

theorem finish_ok {m : Op Unit} {s t : State} (h : m s = .ok () t) : finish m s = .next (complete .ok t) := by
  unfold finish; rw [h]

theorem finish_ok_eq {m : Op Unit} {s t u : State} (h : m s = .ok () t) (hu : complete .ok t = u) :
    finish m s = .next u := by
  rw [finish_ok h, hu]

theorem finish_ended {m : Op Unit} {s t : State} (h : m s = .error .ended t) : finish m s = .next t := by
  unfold finish; rw [h]

theorem finish_refused {m : Op Unit} {s t : State} {r : Refusal} (h : m s = .error (.refused r) t) :
    finish m s = .refused r := by
  unfold finish; rw [h]

/-- A next state of a whole operation comes from its end or from an early end. -/
theorem finish_next {m : Op Unit} {s t : State} (h : finish m s = .next t) :
    (∃ u, m s = .ok () u ∧ t = complete .ok u) ∨ m s = .error .ended t := by
  unfold finish at h
  split at h
  · rename_i u hu
    exact .inl ⟨u, hu, by injection h with h; exact h.symm⟩
  · rename_i hu
    exact .inr (by injection h with h; rw [hu, h])
  · cases h

/-! ## Accesses -/

theorem fbRead_ok {a : Nat} {s : State} (h : a < s.cfg.fbBytes) : fbRead a s = .ok (s.fb.read a) s := by
  unfold fbRead; rw [if_pos h]

theorem fbRead_fault {a : Nat} {s : State} (h : ¬ a < s.cfg.fbBytes) :
    fbRead a s = .error .ended (latchFault .storageOverrun s) := by
  unfold fbRead; rw [if_neg h]; rfl

theorem fbWrite_ok {a : Nat} {v : Byte} {s : State} (h : a < s.cfg.fbBytes) :
    fbWrite a v s = .ok () { s with fb := s.fb.write a v } := by
  unfold fbWrite; rw [if_pos h]

theorem fbFill_ok {n : Nat} {v : Byte} {s : State} (h : n ≤ s.cfg.fbBytes) :
    fbFill n v s = .ok () { s with fb := s.fb.fill n v } := by
  unfold fbFill; rw [if_pos h]

theorem fbFill_fault {n : Nat} {v : Byte} {s : State} (h : ¬ n ≤ s.cfg.fbBytes) :
    fbFill n v s = .error .ended (latchFault .storageOverrun { s with fb := s.fb.fill s.cfg.fbBytes v }) := by
  unfold fbFill; rw [if_neg h]; rfl

theorem assetRead_ok {a : Nat} {b : Byte} {s : State} (h : s.cfg.asset[a]? = some b) : assetRead a s = .ok b s := by
  unfold assetRead; rw [h]

theorem assetRead_fault {a : Nat} {s : State} (h : s.cfg.asset[a]? = none) :
    assetRead a s = .error .ended (latchFault .assetOverrun s) := by
  unfold assetRead; rw [h]; rfl

theorem fontByte_ok {f : Font} {i : Nat} {b : Byte} {s : State} (h : f.bitmap[i]? = some b) :
    fontByte f i s = .ok b s := by
  unfold fontByte; rw [h]

theorem fontByte_fault {f : Font} {i : Nat} {s : State} (h : f.bitmap[i]? = none) :
    fontByte f i s = .error .ended (latchFault .fontOverrun s) := by
  unfold fontByte; rw [h]; rfl

theorem fbReadOut_ok {p n : Nat} {s : State} (h : n = 0 ∨ p + n ≤ s.cfg.fbBytes) :
    fbReadOut p n s = .ok (fbSlice s.fb p n) s := by
  unfold fbReadOut; rw [if_pos h]; rfl

theorem fbReadOut_fault {p n : Nat} {s : State} (h : ¬ (n = 0 ∨ p + n ≤ s.cfg.fbBytes)) :
    fbReadOut p n s = .error .ended (latchFault .storageOverrun s) := by
  unfold fbReadOut; rw [if_neg h]; rfl

/-- A table that lies inside ASSET is read whole. -/
theorem assetReadOut_ok (n a : Nat) (s : State) (h : ((s.cfg.asset.drop a).take n).length = n) :
    assetReadOut n a s = .ok ((s.cfg.asset.drop a).take n) s := by
  induction n generalizing a with
  | zero => rfl
  | succ n ih =>
    rw [List.length_take, List.length_drop] at h
    have ha : a < s.cfg.asset.length := by omega
    show (assetRead a >>= fun b => assetReadOut n (a + 1) >>= fun l => pure (b :: l)) s = _
    rw [bind_apply, assetRead_ok (List.getElem?_eq_getElem ha)]
    show (assetReadOut n (a + 1) >>= fun l => pure (s.cfg.asset[a] :: l)) s = _
    rw [bind_apply, ih (a + 1) (by rw [List.length_take, List.length_drop]; omega)]
    rw [List.drop_eq_getElem_cons ha, List.take_succ_cons]
    rfl

/-- A table that runs past ASSET raises AssetOverrun. -/
theorem assetReadOut_fault (n a : Nat) (s : State) (h : ((s.cfg.asset.drop a).take n).length < n) :
    assetReadOut n a s = .error .ended (latchFault .assetOverrun s) := by
  induction n generalizing a with
  | zero => omega
  | succ n ih =>
    rw [List.length_take, List.length_drop] at h
    show (assetRead a >>= fun b => assetReadOut n (a + 1) >>= fun l => pure (b :: l)) s = _
    rw [bind_apply]
    by_cases ha : a < s.cfg.asset.length
    · rw [assetRead_ok (List.getElem?_eq_getElem ha)]
      show (assetReadOut n (a + 1) >>= fun l => pure (s.cfg.asset[a] :: l)) s = _
      rw [bind_apply, ih (a + 1) (by rw [List.length_take, List.length_drop]; omega)]
    · rw [assetRead_fault (List.getElem?_eq_none (by omega))]

/-! ## Nibbles -/

theorem lowNibble_append (a b : Nibble) : lowNibble (a ++ b) = b := by
  revert a b; decide +kernel

theorem highNibble_append (a b : Nibble) : highNibble (a ++ b) = a := by
  revert a b; decide +kernel

/-- A nibble widened to a byte keeps its value as a brightness (R114). -/
@[simp] theorem lowNibble_setWidth (b : Nibble) : lowNibble (b.setWidth 8) = b := by
  unfold lowNibble
  apply BitVec.eq_of_getLsbD_eq
  intro i hi
  rw [BitVec.getLsbD_extractLsb', BitVec.getLsbD_setWidth]
  simp [hi]
  omega

/-- The packing rule: the nibble put is read back, and the other nibble of the byte is kept (R54, R112). -/
theorem getNibble_putNibble (n k : Nat) (old : Byte) (b : Nibble) :
    getNibble k (putNibble n old b) = if k % 2 = n % 2 then b else getNibble k old := by
  unfold getNibble putNibble
  rcases Nat.mod_two_eq_zero_or_one n with hn | hn <;> rcases Nat.mod_two_eq_zero_or_one k with hk | hk <;>
    simp [hn, hk, lowNibble_append, highNibble_append]

/-- What a pixel write does to every nibble of FB. -/
theorem nibbleAt_write {m : Memory} (hm : m.wf = true) (n k : Nat) (b : Nibble) :
    nibbleAt (m.write (n / 2) (putNibble n (m.read (n / 2)) b)) k = if k = n then b else nibbleAt m k := by
  unfold nibbleAt
  rw [Memory.read_write hm]
  by_cases hk : k / 2 = n / 2
  · rw [if_pos hk, getNibble_putNibble]
    by_cases h : k = n
    · rw [if_pos (by rw [h]), if_pos h]
    · rw [if_neg (by omega), if_neg h, hk]
  · rw [if_neg hk, if_neg (by omega)]

/-! ## The pixel write -/

theorem setPixel_dropped {s : State} {x y : Nat} (v : Byte) (h : ¬ inFrame s x y) : setPixel x y v s = .ok () s := by
  unfold setPixel
  rw [get_bind_apply, if_pos (by unfold inFrame at h; omega)]
  rfl

theorem setPixel_written {s : State} {x y : Nat} (v : Byte) (h : inFrame s x y)
    (ha : pixelAddress s.w x y < s.cfg.fbBytes) :
    setPixel x y v s = .ok () { s with
      fb := s.fb.write (pixelAddress s.w x y)
        (putNibble (nibbleIndex s.w x y) (s.fb.read (pixelAddress s.w x y)) (lowNibble v)) } := by
  unfold setPixel
  rw [get_bind_apply, if_neg (by unfold inFrame at h; omega), bind_apply, fbRead_ok ha]
  exact fbWrite_ok ha

theorem setPixel_fault {s : State} {x y : Nat} (v : Byte) (h : inFrame s x y)
    (ha : ¬ pixelAddress s.w x y < s.cfg.fbBytes) :
    setPixel x y v s = .error .ended (latchFault .storageOverrun s) := by
  unfold setPixel
  rw [get_bind_apply, if_neg (by unfold inFrame at h; omega), bind_apply, fbRead_fault ha]

/-- On coordinates that are not negative `plot` is `set_pixel` (R116). -/
theorem plot_natCast (x y : Nat) (v : Byte) : plot x y v = setPixel x y v := by
  unfold plot
  rw [if_neg (by omega)]
  rfl

/-- `plot` drops a pixel with a negative coordinate (R116). -/
theorem plot_negative {x y : Int} (v : Byte) (h : x < 0 ∨ y < 0) (s : State) : plot x y v s = .ok () s := by
  unfold plot
  rw [if_pos h]
  rfl

/-- Every way `plot` can end: dropped, written, or StorageOverrun. -/
theorem plot_cases (x y : Int) (v : Byte) (s : State) :
    (plot x y v s = .ok () s ∧ ∀ a b : Nat, x = a → y = b → ¬ inFrame s a b)
    ∨ ∃ a b : Nat, x = a ∧ y = b ∧ inFrame s a b
      ∧ ((pixelAddress s.w a b < s.cfg.fbBytes
          ∧ plot x y v s = .ok () { s with
              fb := s.fb.write (pixelAddress s.w a b)
                (putNibble (nibbleIndex s.w a b) (s.fb.read (pixelAddress s.w a b)) (lowNibble v)) })
        ∨ (¬ pixelAddress s.w a b < s.cfg.fbBytes
          ∧ plot x y v s = .error .ended (latchFault .storageOverrun s))) := by
  by_cases hneg : x < 0 ∨ y < 0
  · exact .inl ⟨plot_negative v hneg s, fun a b hx hy => by omega⟩
  · obtain ⟨a, rfl⟩ := Int.eq_ofNat_of_zero_le (a := x) (by omega)
    obtain ⟨b, rfl⟩ := Int.eq_ofNat_of_zero_le (a := y) (by omega)
    by_cases hf : inFrame s a b
    · refine .inr ⟨a, b, rfl, rfl, hf, ?_⟩
      rw [plot_natCast]
      by_cases ha : pixelAddress s.w a b < s.cfg.fbBytes
      · exact .inl ⟨ha, setPixel_written v hf ha⟩
      · exact .inr ⟨ha, setPixel_fault v hf ha⟩
    · refine .inl ⟨by rw [plot_natCast, setPixel_dropped v hf], fun a' b' hx hy => ?_⟩
      obtain rfl := Int.ofNat.inj hx
      obtain rfl := Int.ofNat.inj hy
      exact hf

/-! ## A list of pixel writes -/

/-- One brightness on a list of pixels is the list with that level at each. -/
theorem plotAll_eq (ps : List (Int × Int)) (v : Byte) (s : State) :
    plotAll ps v s = plotLevels (ps.map fun p => (p, lowNibble v)) s := by
  have hp : ∀ (p : Int × Int) (s : State), plot p.1 p.2 v s = plot p.1 p.2 ((lowNibble v).setWidth 8) s := by
    intro p s
    unfold plot setPixel
    rw [lowNibble_setWidth]
  unfold plotAll plotLevels
  induction ps generalizing s with
  | nil => rfl
  | cons p ps ih =>
    rw [List.map_cons, forEach_cons, forEach_cons, hp]
    cases plot p.1 p.2 ((lowNibble v).setWidth 8) s with
    | ok u t => exact ih t
    | error e t => rfl

/-- The pixel of the list at (x, y), if one is written there. -/
def written (l : List LevelPixel) (x y : Nat) : Prop := ∃ b, (((x : Int), (y : Int)), b) ∈ l

theorem lastLevel_written {l : List LevelPixel} {x y : Nat} {b : Nibble} (h : lastLevel l x y b) : written l x y := by
  obtain ⟨l₁, l₂, rfl, -⟩ := h
  exact ⟨b, by simp⟩

theorem written_lastLevel {l : List LevelPixel} {x y : Nat} (h : written l x y) : ∃ b, lastLevel l x y b := by
  induction l with
  | nil => obtain ⟨b, hb⟩ := h; cases hb
  | cons q l ih =>
    by_cases hw : written l x y
    · obtain ⟨b, l₁, l₂, rfl, h₂⟩ := ih hw
      exact ⟨b, q :: l₁, l₂, rfl, h₂⟩
    · obtain ⟨b, hb⟩ := h
      rcases List.mem_cons.1 hb with rfl | hb
      · exact ⟨b, [], l, rfl, fun q hq he => hw ⟨q.2, by rw [← he]; exact hq⟩⟩
      · exact absurd ⟨b, hb⟩ hw

theorem nibbleIndex_injective {s : State} {x y x' y' : Nat} (h : inFrame s x y) (h' : inFrame s x' y')
    (he : nibbleIndex s.w x y = nibbleIndex s.w x' y') : x = x' ∧ y = y' := by
  unfold nibbleIndex at he
  unfold inFrame at h h'
  have hy : y = y' := by
    rcases Nat.lt_trichotomy y y' with hlt | heq | hgt
    · have := Nat.mul_le_mul_right s.w.toNat (Nat.succ_le_of_lt hlt)
      rw [Nat.succ_mul] at this
      omega
    · exact heq
    · have := Nat.mul_le_mul_right s.w.toNat (Nat.succ_le_of_lt hgt)
      rw [Nat.succ_mul] at this
      omega
  subst hy
  exact ⟨by omega, rfl⟩

/-- Every way a list of pixel writes can end. If every pixel inside the logical framebuffer has its byte in FB, it runs
to its end; if not, it raises StorageOverrun. Either way only FB is written, it stays canonical, the last level written
at a pixel is there (in the first case), and every nibble and byte of no written pixel is as before. -/
theorem plotLevels_spec (l : List LevelPixel) (s : State) (hs : s.fb.wf = true) :
    ((∀ x y, inFrame s x y → written l x y → pixelAddress s.w x y < s.cfg.fbBytes) →
      ∃ m, plotLevels l s = .ok () { s with fb := m } ∧ m.wf = true
        ∧ (∀ x y b, inFrame s x y → lastLevel l x y b → nibbleAt m (nibbleIndex s.w x y) = b)
        ∧ (∀ n, (∀ x y, inFrame s x y → written l x y → nibbleIndex s.w x y ≠ n) → nibbleAt m n = nibbleAt s.fb n)
        ∧ (∀ a, (∀ x y, inFrame s x y → written l x y → pixelAddress s.w x y ≠ a) → m.read a = s.fb.read a))
    ∧ (¬ (∀ x y, inFrame s x y → written l x y → pixelAddress s.w x y < s.cfg.fbBytes) →
      ∃ m, plotLevels l s = .error .ended (latchFault .storageOverrun { s with fb := m }) ∧ m.wf = true
        ∧ (∀ a, (∀ x y, inFrame s x y → written l x y → pixelAddress s.w x y ≠ a) → m.read a = s.fb.read a)) := by
  induction l generalizing s with
  | nil =>
    refine ⟨fun _ => ⟨s.fb, rfl, hs, ?_, fun _ _ => rfl, fun _ _ => rfl⟩, fun h => ?_⟩
    · rintro x y b - ⟨l₁, l₂, h, -⟩
      simp at h
    · exact absurd (fun x y _ ⟨b, hb⟩ => by cases hb) h
  | cons p l ih =>
    obtain ⟨⟨X, Y⟩, c⟩ := p
    have hrun : plotLevels (((X, Y), c) :: l) s = match plot X Y (c.setWidth 8) s with
      | .ok _ t => plotLevels l t
      | .error e t => .error e t := forEach_cons ..
    have hmem : ∀ x y, written (((X, Y), c) :: l) x y ↔ (X = x ∧ Y = y) ∨ written l x y := by
      intro x y
      constructor
      · rintro ⟨b, hb⟩
        rcases List.mem_cons.1 hb with h | h
        · exact .inl ⟨congrArg (·.1.1) h.symm, congrArg (·.1.2) h.symm⟩
        · exact .inr ⟨b, h⟩
      · rintro (⟨rfl, rfl⟩ | ⟨b, hb⟩)
        · exact ⟨c, List.mem_cons_self ..⟩
        · exact ⟨b, List.mem_cons_of_mem _ hb⟩
    have hlast : ∀ x y b, lastLevel (((X, Y), c) :: l) x y b →
        lastLevel l x y b ∨ (¬ written l x y ∧ X = x ∧ Y = y ∧ b = c) := by
      rintro x y b ⟨l₁, l₂, h, h₂⟩
      cases l₁ with
      | nil =>
        rw [List.nil_append] at h
        injection h with hp hl
        subst hl
        refine .inr ⟨fun ⟨b', hb'⟩ => h₂ _ hb' rfl, ?_⟩
        injection hp with hxy hb
        injection hxy with hx hy
        exact ⟨hx, hy, hb.symm⟩
      | cons q l₁ =>
        rw [List.cons_append] at h
        injection h with hp hl
        exact .inl ⟨l₁, l₂, hl, h₂⟩
    rcases plot_cases X Y (c.setWidth 8) s with ⟨hp, hout⟩ | ⟨a, b, rfl, rfl, hin, ⟨ha, hp⟩ | ⟨ha, hp⟩⟩
    · rw [hp] at hrun
      have hw : ∀ x y, inFrame s x y → written (((X, Y), c) :: l) x y → written l x y := by
        intro x y hf h
        rcases (hmem x y).1 h with ⟨hx, hy⟩ | h
        · exact absurd hf (hout x y hx hy)
        · exact h
      have hw' : ∀ x y, written l x y → written (((X, Y), c) :: l) x y := fun x y h => (hmem x y).2 (.inr h)
      refine ⟨fun h => ?_, fun h => ?_⟩
      · obtain ⟨m, hr, hm, hl, hn, hb⟩ := (ih s hs).1 fun x y hf hx => h x y hf (hw' x y hx)
        refine ⟨m, hrun.trans hr, hm, fun x y b hf h => ?_, fun n h => hn n fun x y hf hx => h x y hf (hw' x y hx),
          fun a h => hb a fun x y hf hx => h x y hf (hw' x y hx)⟩
        rcases hlast x y b h with h | ⟨-, hx, hy, -⟩
        · exact hl x y b hf h
        · exact absurd hf (hout x y hx hy)
      · obtain ⟨m, hr, hm, hb⟩ := (ih s hs).2 fun hc => h fun x y hf hx => hc x y hf (hw x y hf hx)
        exact ⟨m, hrun.trans hr, hm, fun a h => hb a fun x y hf hx => h x y hf (hw' x y hx)⟩
    · rw [hp, lowNibble_setWidth] at hrun
      generalize hfb : s.fb.write (pixelAddress s.w a b) (putNibble (nibbleIndex s.w a b)
        (s.fb.read (pixelAddress s.w a b)) c) = fb₁ at hrun
      have hwf₁ : fb₁.wf = true := by rw [← hfb]; exact Memory.wf_write hs ..
      have hnib : ∀ k, nibbleAt fb₁ k = if k = nibbleIndex s.w a b then c else nibbleAt s.fb k := by
        intro k; rw [← hfb]; exact nibbleAt_write hs ..
      have hbyte : ∀ k, k ≠ pixelAddress s.w a b → fb₁.read k = s.fb.read k := by
        intro k hk; rw [← hfb, Memory.read_write hs, if_neg hk]
      have hself : written ((((a : Int), (b : Int)), c) :: l) a b := (hmem a b).2 (.inl ⟨rfl, rfl⟩)
      have hw' : ∀ x y, written l x y → written ((((a : Int), (b : Int)), c) :: l) x y :=
        fun x y h => (hmem x y).2 (.inr h)
      have ih₁ := ih { s with fb := fb₁ } hwf₁
      refine ⟨fun h => ?_, fun h => ?_⟩
      · obtain ⟨m, hr, hm, hl, hn, hb⟩ := ih₁.1 fun x y hf hx => h x y hf (hw' x y hx)
        refine ⟨m, hrun.trans hr, hm, fun x y d hf hd => ?_, fun n hne => ?_, fun k hne => ?_⟩
        · rcases hlast x y d hd with hd | ⟨hnw, hx, hy, rfl⟩
          · exact hl x y d hf hd
          · obtain rfl := Int.ofNat.inj hx
            obtain rfl := Int.ofNat.inj hy
            rw [hn, hnib, if_pos rfl]
            intro x' y' hf' hw he
            obtain ⟨rfl, rfl⟩ := nibbleIndex_injective hf' hf he
            exact hnw hw
        · rw [hn n fun x y hf hx => hne x y hf (hw' x y hx), hnib, if_neg (hne a b hin hself).symm]
        · rw [hb k fun x y hf hx => hne x y hf (hw' x y hx), hbyte k (hne a b hin hself).symm]
      · have hcond : ¬ ∀ x y, inFrame { s with fb := fb₁ } x y → written l x y →
            pixelAddress s.w x y < s.cfg.fbBytes := by
          intro hc
          refine h fun x y hf hx => ?_
          rcases (hmem x y).1 hx with ⟨hx, hy⟩ | hx
          · obtain rfl := Int.ofNat.inj hx
            obtain rfl := Int.ofNat.inj hy
            exact ha
          · exact hc x y hf hx
        obtain ⟨m, hr, hm, hb⟩ := ih₁.2 hcond
        refine ⟨m, hrun.trans hr, hm, fun k hne => ?_⟩
        rw [hb k fun x y hf hx => hne x y hf (hw' x y hx), hbyte k (hne a b hin hself).symm]
    · rw [hp] at hrun
      refine ⟨fun h => absurd (h a b hin ((hmem a b).2 (.inl ⟨rfl, rfl⟩))) ha, fun _ => ⟨s.fb, hrun, hs, fun _ _ => rfl⟩⟩

/-- A list of pixel writes that ends leaves all but FB as it was. -/
theorem plotLevels_ok {l : List LevelPixel} {s : State} (hs : s.fb.wf = true) (hl : bytesExist s l) :
    ∃ m, plotLevels l s = .ok () { s with fb := m } ∧ paintedBy s l m := by
  obtain ⟨m, hr, hm, hlast, hrest, -⟩ := (plotLevels_spec l s hs).1 fun x y hf ⟨b, hb⟩ => hl x y b hf hb
  exact ⟨m, hr, hm, hlast, fun n hn => hrest n fun x y hf ⟨b, hb⟩ => hn x y b hf hb⟩

/-- A list of pixel writes either finds every byte it needs or stops at the first that FB lacks. -/
theorem reaches_cases (s : State) (l : List LevelPixel) : bytesExist s l ∨ ∃ done, stopsAfter s l done := by
  induction l with
  | nil => exact .inl fun x y b _ h => by cases h
  | cons p l ih =>
    obtain ⟨⟨X, Y⟩, c⟩ := p
    by_cases hp : ∃ x y : Nat, X = x ∧ Y = y ∧ inFrame s x y ∧ s.cfg.fbBytes ≤ pixelAddress s.w x y
    · obtain ⟨x, y, rfl, rfl, hf, ha⟩ := hp
      exact .inr ⟨[], x, y, c, l, rfl, hf, ha, fun x y b _ h => by cases h⟩
    · have hhead : ∀ (x y : Nat) (b : Nibble), inFrame s x y → (((x : Int), (y : Int)), b) = ((X, Y), c) →
          pixelAddress s.w x y < s.cfg.fbBytes := fun x y b hf h =>
        Nat.lt_of_not_le fun ha =>
          hp ⟨x, y, (congrArg (·.1.1) h).symm, (congrArg (·.1.2) h).symm, hf, ha⟩
      rcases ih with ih | ⟨done, x, y, b, rest, rfl, hf, ha, hd⟩
      · exact .inl fun x y b hf h => (List.mem_cons.1 h).elim (hhead x y b hf) (ih x y b hf)
      · exact .inr ⟨((X, Y), c) :: done, x, y, b, rest, rfl, hf, ha,
          fun x y b hf h => (List.mem_cons.1 h).elim (hhead x y b hf) (hd x y b hf)⟩

/-- A list of pixel writes that meets a pixel FB has no byte for raises StorageOverrun with those before it made. -/
theorem plotLevels_stops {l done : List LevelPixel} {s : State} (hs : s.fb.wf = true) (h : stopsAfter s l done) :
    ∃ m, plotLevels l s = .error .ended (latchFault .storageOverrun { s with fb := m }) ∧ paintedBy s done m := by
  obtain ⟨x, y, b, rest, rfl, hf, ha, hd⟩ := h
  obtain ⟨m, hr, hm⟩ := plotLevels_ok hs hd
  refine ⟨m, (forEach_append ..).trans ?_, hm⟩
  rw [show forEach done (fun p => plot p.1.1 p.1.2 (p.2.setWidth 8)) s = _ from hr]
  refine forEach_cons_error (?_ : plot (x : Int) (y : Int) _ _ = _)
  rw [plot_natCast]
  exact setPixel_fault (s := { s with fb := m }) _ hf (Nat.not_lt.2 ha)

/-- An in-range pixel's byte lies below `ceil(W·H/2)` (R51), so a framebuffer that fits holds every pixel. -/
theorem pixelAddress_lt {s : State} {x y : Nat} (h : inFrame s x y) : pixelAddress s.w x y < pixelBytes s.w s.h := by
  unfold pixelAddress pixelBytes nibbleIndex
  unfold inFrame at h
  have h1 : (y + 1) * s.w.toNat ≤ s.h.toNat * s.w.toNat := Nat.mul_le_mul_right _ h.2
  rw [Nat.succ_mul, Nat.mul_comm s.h.toNat] at h1
  omega

theorem pixelAddress_lt_of_fits {s : State} {x y : Nat} (hs : s.fits = true) (h : inFrame s x y) :
    pixelAddress s.w x y < s.cfg.fbBytes := by
  have h1 := pixelAddress_lt h
  have h2 : pixelBytes s.w s.h ≤ s.cfg.fbBytes := by simpa [State.fits] using hs
  omega

/-! ## Transmits and framings -/

/-- `CMD(c)` when its transmit succeeds: four events, one transmit, chip-select released (R201). -/
theorem sendCmd_ok {s : State} (c : Byte) (h : txOk s (s.txCount + 1) = true) :
    sendCmd c s = .ok () { s with
      wire := s.wire ++ cmdEvents c, txCount := s.txCount + 1, cs := true, dc := false } := by
  have h' : (!s.txFails.contains (s.txCount + 1)) = true := h
  simp [sendCmd, bind_apply, emit, tx, emitted, driveLatch, txOk, cmdEvents] at h' ⊢
  simp [h']

/-- `CMD(c)` when its transmit fails: nothing follows the transmit (R203). -/
theorem sendCmd_lost {s : State} (c : Byte) (h : txOk s (s.txCount + 1) = false) :
    sendCmd c s = .error .ended (busLost { s with
      wire := s.wire ++ [.pinSelectLow, .pinModeCommand, .transmitByte c], txCount := s.txCount + 1, cs := false,
      dc := false }) := by
  have h' : (!s.txFails.contains (s.txCount + 1)) = false := h
  simp [sendCmd, bind_apply, emit, tx, emitted, driveLatch, txOk] at h' ⊢
  simp [h']

/-- `DAT(d)` when its transmit succeeds (R202). -/
theorem sendDat_ok {s : State} (d : Byte) (h : txOk s (s.txCount + 1) = true) :
    sendDat d s = .ok () { s with
      wire := s.wire ++ datEvents d, txCount := s.txCount + 1, cs := true, dc := true } := by
  have h' : (!s.txFails.contains (s.txCount + 1)) = true := h
  simp [sendDat, bind_apply, emit, tx, emitted, driveLatch, txOk, datEvents] at h' ⊢
  simp [h']

/-- `DAT(d)` when its transmit fails (R203). -/
theorem sendDat_lost {s : State} (d : Byte) (h : txOk s (s.txCount + 1) = false) :
    sendDat d s = .error .ended (busLost { s with
      wire := s.wire ++ [.pinSelectLow, .pinModeData, .transmitByte d], txCount := s.txCount + 1, cs := false,
      dc := true }) := by
  have h' : (!s.txFails.contains (s.txCount + 1)) = false := h
  simp [sendDat, bind_apply, emit, tx, emitted, driveLatch, txOk] at h' ⊢
  simp [h']

/-- `BULK(data, n)` when its transmit succeeds (R224). -/
theorem sendBulk_ok {s : State} (data : List Byte) (n : Nat) (h : txOk s (s.txCount + 1) = true) :
    sendBulk data n s = .ok () { s with
      wire := s.wire ++ bulkEvents data n, txCount := s.txCount + 1, cs := true, dc := true } := by
  have h' : (!s.txFails.contains (s.txCount + 1)) = true := h
  simp [sendBulk, bind_apply, emit, tx, emitted, driveLatch, txOk, bulkEvents] at h' ⊢
  simp [h']

/-- `BULK(data, n)` when its transmit fails (R203, R224). -/
theorem sendBulk_lost {s : State} (data : List Byte) (n : Nat) (h : txOk s (s.txCount + 1) = false) :
    sendBulk data n s = .error .ended (busLost { s with
      wire := s.wire ++ [.pinSelectLow, .pinModeData, .transmitArray data n], txCount := s.txCount + 1, cs := false,
      dc := true }) := by
  have h' : (!s.txFails.contains (s.txCount + 1)) = false := h
  simp [sendBulk, bind_apply, emit, tx, emitted, driveLatch, txOk] at h' ⊢
  simp [h']

/-- A framing runs to its end or stops at its transmit, according to the bus. -/
theorem framing_cases {m : Op Unit} {s t u : State} (hok : txOk s (s.txCount + 1) = true → m s = .ok () t)
    (hlost : txOk s (s.txCount + 1) = false → m s = .error .ended u) : m s = .ok () t ∨ m s = .error .ended u := by
  cases h : txOk s (s.txCount + 1) with
  | true => exact .inl (hok h)
  | false => exact .inr (hlost h)

end Sys2Proof.Machine
end

