-- ==== Sys2Proof/Laws/Abandon.lean ====
section
/-! SUPPORT. What an operation that reset abandons leaves in FB (R281). -/

namespace Sys2Proof.Machine

/-- After a list of pixel writes FB holds exactly those that were made, however the list ended. -/
theorem fbLeftBy_plotLevels {s : State} (hs : s.fb.wf = true) (l : List LevelPixel) :
    ∃ done, reaches s l done ∧ paintedBy s done (fbLeftBy (plotLevels l) s) := by
  unfold fbLeftBy
  rcases reaches_cases s l with h | ⟨done, h⟩
  · obtain ⟨m, hr, hm⟩ := plotLevels_ok hs h
    exact ⟨l, .inl ⟨h, rfl⟩, by rw [hr]; exact hm⟩
  · obtain ⟨m, hr, hm⟩ := plotLevels_stops hs h
    exact ⟨done, .inr h, by rw [hr]; exact hm⟩

/-- After a fill FB holds the byte as far as the fill went and FB goes. -/
theorem read_fbLeftBy_fbFill {s : State} (hs : s.fb.wf = true) (n : Nat) (v : Byte) (a : Nat) :
    (fbLeftBy (fbFill n v) s).read a = if a < min n s.cfg.fbBytes then v else s.fb.read a := by
  unfold fbLeftBy
  by_cases h : n ≤ s.cfg.fbBytes
  · rw [fbFill_ok h, Nat.min_eq_left h]
    exact Memory.read_fill hs n a v
  · rw [fbFill_fault h, Nat.min_eq_right (by omega)]
    exact Memory.read_fill hs _ a v

end Sys2Proof.Machine
end

