-- ==== Sys2Proof/Laws/Decode.lean ====
section
/-! SUPPORT. The fields of a packed descriptor (R81), and a descriptor carried as its 14 bytes (R82). -/

namespace Sys2Proof

/-- Every bit of a packed descriptor, by the field it lies in (R81). -/
theorem getLsbD_packFields (op v : Byte) (a b : Coord) (dc p : Word32) (i : Nat) :
    (packFields op v a b dc p).getLsbD i =
      if i < 8 then op.getLsbD i
      else if i < 16 then v.getLsbD (i - 8)
      else if i < 32 then a.getLsbD (i - 16)
      else if i < 48 then b.getLsbD (i - 32)
      else if i < 80 then dc.getLsbD (i - 48)
      else p.getLsbD (i - 80) := by
  have h : BitVec.getLsbD (w := 32 + 32 + 16 + 16 + 8 + 8) (p ++ dc ++ b ++ a ++ v ++ op) i = _ :=
    BitVec.getLsbD_append
  refine h.trans ?_
  rw [BitVec.getLsbD_append, BitVec.getLsbD_append, BitVec.getLsbD_append, BitVec.getLsbD_append]
  simp only [Nat.sub_sub]
  split
  · rfl
  · repeat' split
    all_goals first | rfl | omega

theorem fieldOp_packFields (op v : Byte) (a b : Coord) (dc p : Word32) : fieldOp (packFields op v a b dc p) = op := by
  apply BitVec.eq_of_getLsbD_eq
  intro i hi
  rw [fieldOp, BitVec.getLsbD_extractLsb', getLsbD_packFields]
  simp [hi]

theorem fieldV_packFields (op v : Byte) (a b : Coord) (dc p : Word32) : fieldV (packFields op v a b dc p) = v := by
  apply BitVec.eq_of_getLsbD_eq
  intro i hi
  rw [fieldV, BitVec.getLsbD_extractLsb', getLsbD_packFields, if_neg (by omega), if_pos (by omega)]
  simp [hi]

theorem fieldA_packFields (op v : Byte) (a b : Coord) (dc p : Word32) : fieldA (packFields op v a b dc p) = a := by
  apply BitVec.eq_of_getLsbD_eq
  intro i hi
  rw [fieldA, BitVec.getLsbD_extractLsb', getLsbD_packFields, if_neg (by omega), if_neg (by omega),
    if_pos (by omega)]
  simp [hi]

theorem fieldB_packFields (op v : Byte) (a b : Coord) (dc p : Word32) : fieldB (packFields op v a b dc p) = b := by
  apply BitVec.eq_of_getLsbD_eq
  intro i hi
  rw [fieldB, BitVec.getLsbD_extractLsb', getLsbD_packFields, if_neg (by omega), if_neg (by omega),
    if_neg (by omega), if_pos (by omega)]
  simp [hi]

theorem fieldN_packFields (op v : Byte) (a b : Coord) (dc p : Word32) : fieldN (packFields op v a b dc p) = dc := by
  apply BitVec.eq_of_getLsbD_eq
  intro i hi
  rw [fieldN, BitVec.getLsbD_extractLsb', getLsbD_packFields, if_neg (by omega), if_neg (by omega),
    if_neg (by omega), if_neg (by omega), if_pos (by omega)]
  simp [hi]

theorem fieldP_packFields (op v : Byte) (a b : Coord) (dc p : Word32) : fieldP (packFields op v a b dc p) = p := by
  apply BitVec.eq_of_getLsbD_eq
  intro i hi
  rw [fieldP, BitVec.getLsbD_extractLsb', getLsbD_packFields, if_neg (by omega), if_neg (by omega),
    if_neg (by omega), if_neg (by omega), if_neg (by omega)]
  simp [hi]

/-- `c` is the low half of `n` (R21, R81). -/
theorem fieldC_eq (d : Descriptor) : fieldC d = (fieldN d).extractLsb' 0 16 := by
  apply BitVec.eq_of_getLsbD_eq
  intro i hi
  simp only [fieldC, fieldN, BitVec.getLsbD_extractLsb']
  simp [hi]
  omega

/-- `d` is the high half of `n` (R21, R81). -/
theorem fieldD_eq (d : Descriptor) : fieldD d = (fieldN d).extractLsb' 16 16 := by
  apply BitVec.eq_of_getLsbD_eq
  intro i hi
  simp only [fieldD, fieldN, BitVec.getLsbD_extractLsb']
  have h : 16 + i < 32 := by omega
  simp only [hi, h, decide_true, Bool.true_and, ← Nat.add_assoc]

/-! A number carried as bytes (R82) -/

theorem leValue_leBytes (n w : Nat) (h : w < 256 ^ n) : leValue (leBytes n w) = w := by
  induction n generalizing w with
  | zero => simp at h; simp [leBytes, leValue, h]
  | succ n ih =>
    rw [leBytes, leValue, ih (w / 256) (by rw [Nat.pow_succ] at h; omega), BitVec.toNat_ofNat]
    omega

theorem length_leBytes (n w : Nat) : (leBytes n w).length = n := by
  induction n generalizing w with
  | zero => rfl
  | succ n ih => rw [leBytes, List.length_cons, ih]

/-- Bytes least significant first lose no descriptor. -/
theorem decodeBytes_leBytes (d : Descriptor) : decodeBytes (leBytes 14 d.toNat) = decode d := by
  unfold decodeBytes
  rw [if_pos (length_leBytes ..), leValue_leBytes _ _ (lt_of_lt_of_le d.isLt (by decide)), BitVec.ofNat_toNat,
    BitVec.setWidth_eq]

end Sys2Proof
end

