-- ==== Sys2Proof/Laws/Frames.lean ====
section
/-! SUPPORT. What the pieces of pseudocode keep. A claim about every operation is a relation `R` from the start of a piece
to its end and a relation `E` from its start to where it stopped early; if the primitive effects are in `R` and `E`, so
is every piece built of them. -/

namespace Sys2Proof.Machine

/-- A piece of pseudocode that ends relates start and end by `R`; one that stops, by `E`. -/
def Keeps {α : Type} (R : State → State → Prop) (E : Stop → State → State → Prop) (m : Op α) : Prop :=
  ∀ s, match m s with
    | .ok _ t => R s t
    | .error e t => E e s t

/-- Relations that go through sequences. -/
structure Closed (R : State → State → Prop) (E : Stop → State → State → Prop) : Prop where
  refl : ∀ s, R s s
  trans : ∀ s t u, R s t → R t u → R s u
  after : ∀ e s t u, R s t → E e t u → E e s u

/-- Relations that hold the effects of a pixel write. -/
structure Paints (R : State → State → Prop) (E : Stop → State → State → Prop) : Prop extends Closed R E where
  pixel : ∀ s x y b, inFrame s x y → pixelAddress s.w x y < s.cfg.fbBytes →
    R s { s with
      fb := s.fb.write (pixelAddress s.w x y)
        (putNibble (nibbleIndex s.w x y) (s.fb.read (pixelAddress s.w x y)) b) }
  storage : ∀ s, E .ended s (latchFault .storageOverrun s)

/-- Relations that hold the fault of an ASSET read. -/
structure ReadsAsset (R : State → State → Prop) (E : Stop → State → State → Prop) : Prop extends Closed R E where
  asset : ∀ s, E .ended s (latchFault .assetOverrun s)

/-- Relations that hold the fault and the refusals of a font read. -/
structure ReadsFont (R : State → State → Prop) (E : Stop → State → State → Prop) : Prop extends Closed R E where
  font : ∀ s, E .ended s (latchFault .fontOverrun s)
  refuse : ∀ s r, E (.refused r) s s

/-- The four pin events of a framing. -/
def isFramePin : TransportEvent → Prop
  | .pinSelectLow | .pinSelectHigh | .pinModeCommand | .pinModeData => True
  | .pinResetLow | .pinResetHigh | .transmitByte _ | .transmitArray _ _ | .delayMs _ => False

/-- Relations that hold the effects of framings. -/
structure Sends (R : State → State → Prop) (E : Stop → State → State → Prop) : Prop extends Closed R E where
  pin : ∀ s e, isFramePin e → R s (emitted e s)
  sent : ∀ s e, isTransmit e = true → txOk s (s.txCount + 1) = true → R s (emitted e s)
  lost : ∀ s e, isTransmit e = true → txOk s (s.txCount + 1) = false → E .ended s (busLost (emitted e s))

section

variable {R : State → State → Prop} {E : Stop → State → State → Prop}

/-! ## Composition -/

theorem Keeps.pure (h : Closed R E) {α : Type} (a : α) : Keeps R E (pure a : Op α) := fun s => h.refl s

theorem Keeps.bind (h : Closed R E) {α β : Type} {m : Op α} {f : α → Op β} (hm : Keeps R E m)
    (hf : ∀ a, Keeps R E (f a)) : Keeps R E (m >>= f) := by
  intro s
  rw [bind_apply]
  have h₁ := hm s
  cases he : m s with
  | ok a t =>
    rw [he] at h₁
    have h₂ := hf a t
    show match f a t with
      | .ok _ u => R s u
      | .error e u => E e s u
    cases hfe : f a t with
    | ok b u => rw [hfe] at h₂; exact h.trans _ _ _ h₁ h₂
    | error e u => rw [hfe] at h₂; exact h.after _ _ _ _ h₁ h₂
  | error e t => rw [he] at h₁; exact h₁

theorem Keeps.get_bind {β : Type} {f : State → Op β} (hf : ∀ s, Keeps R E (f s)) :
    Keeps R E ((get : Op State) >>= f) := fun s => hf s s

theorem Keeps.forEach (h : Closed R E) {α : Type} (l : List α) {f : α → Op Unit} (hf : ∀ a, Keeps R E (f a)) :
    Keeps R E (forEach l f) := by
  induction l with
  | nil => exact fun s => h.refl s
  | cons a l ih => exact Keeps.bind h (hf a) fun _ => ih

/-- What a whole operation's next state comes from. -/
theorem Keeps.of_finish {m : Op Unit} (hm : Keeps R E m) {s t : State} (h : finish m s = .next t) :
    (∃ u, R s u ∧ t = complete .ok u) ∨ E .ended s t := by
  have hk := hm s
  rcases finish_next h with ⟨u, hu, rfl⟩ | he
  · rw [hu] at hk; exact .inl ⟨u, hk, rfl⟩
  · rw [he] at hk; exact .inr hk

/-- A whole operation whose pieces never refuse answers a next state. -/
theorem Keeps.exists_next {m : Op Unit} (hm : Keeps R E m) (hr : ∀ r s t, ¬ E (.refused r) s t) (s : State) :
    ∃ t, finish m s = .next t := by
  have hk := hm s
  cases he : m s with
  | ok u t => exact ⟨_, finish_ok he⟩
  | error e t =>
    rw [he] at hk
    cases e with
    | ended => exact ⟨t, finish_ended he⟩
    | refused r => exact absurd hk (hr r s t)

/-! ## Writing FB -/

theorem setPixel_keeps (h : Paints R E) (x y : Nat) (v : Byte) : Keeps R E (setPixel x y v) := by
  intro s
  by_cases hf : inFrame s x y
  · by_cases ha : pixelAddress s.w x y < s.cfg.fbBytes
    · rw [setPixel_written v hf ha]; exact h.pixel s x y _ hf ha
    · rw [setPixel_fault v hf ha]; exact h.storage s
  · rw [setPixel_dropped v hf]; exact h.refl s

theorem plot_keeps (h : Paints R E) (x y : Int) (v : Byte) : Keeps R E (plot x y v) := by
  unfold plot
  split
  · exact Keeps.pure h.toClosed ()
  · exact setPixel_keeps h _ _ v

theorem plotAll_keeps (h : Paints R E) (ps : List (Int × Int)) (v : Byte) : Keeps R E (plotAll ps v) :=
  Keeps.forEach h.toClosed ps fun p => plot_keeps h p.1 p.2 v

theorem aaLine_keeps (h : Paints R E) (x0 y0 x1 y1 : Nat) (b : Nibble) : Keeps R E (aaLine x0 y0 x1 y1 b) :=
  Keeps.get_bind fun _ => Keeps.forEach h.toClosed _ fun p => plot_keeps h p.1.1 p.1.2 _

/-! ## Reading ASSET and fonts -/

theorem assetRead_keeps (h : ReadsAsset R E) (a : Nat) : Keeps R E (assetRead a) := by
  intro s
  cases ha : s.cfg.asset[a]? with
  | some b => rw [assetRead_ok ha]; exact h.refl s
  | none => rw [assetRead_fault ha]; exact h.asset s

theorem assetReadOut_keeps (h : ReadsAsset R E) (n a : Nat) : Keeps R E (assetReadOut n a) := by
  induction n generalizing a with
  | zero => exact Keeps.pure h.toClosed []
  | succ n ih =>
    exact Keeps.bind h.toClosed (assetRead_keeps h a) fun b =>
      Keeps.bind h.toClosed (ih (a + 1)) fun l => Keeps.pure h.toClosed (b :: l)

theorem blit8Pixel_keeps (h : Paints R E) (ha : ReadsAsset R E) (x0 y0 w p : Nat) (ji : Nat × Nat) :
    Keeps R E (blit8Pixel x0 y0 w p ji) :=
  Keeps.bind h.toClosed (assetRead_keeps ha _) fun _ => setPixel_keeps h _ _ _

theorem blit4Pixel_keeps (h : Paints R E) (ha : ReadsAsset R E) (x0 y0 w p : Nat) (ji : Nat × Nat) :
    Keeps R E (blit4Pixel x0 y0 w p ji) :=
  Keeps.bind h.toClosed (assetRead_keeps ha _) fun _ => setPixel_keeps h _ _ _

theorem fontByte_keeps (h : ReadsFont R E) (f : Font) (i : Nat) : Keeps R E (fontByte f i) := by
  intro s
  cases hb : f.bitmap[i]? with
  | some b => rw [fontByte_ok hb]; exact h.refl s
  | none => rw [fontByte_fault hb]; exact h.font s

theorem drawGlyph_keeps (h : Paints R E) (hf : ReadsFont R E) (f : Font) (g : Glyph) (x y : Int) (v : Byte) :
    Keeps R E (drawGlyph f g x y v) := by
  refine Keeps.forEach h.toClosed _ fun rc => Keeps.bind h.toClosed (fontByte_keeps hf f _) fun b => ?_
  split
  · exact plot_keeps h _ _ v
  · exact Keeps.pure h.toClosed ()

theorem drawCharOp_keeps (h : Paints R E) (hf : ReadsFont R E) (c : Byte) (x y : Int) (v : Byte) :
    Keeps R E (drawCharOp c x y v) := by
  refine Keeps.get_bind fun s => ?_
  split
  · split
    · exact fun s => hf.refuse s _
    · split
      · exact Keeps.pure h.toClosed _
      · split
        · exact fun s => hf.refuse s _
        · exact Keeps.bind h.toClosed (drawGlyph_keeps h hf _ _ x y v) fun _ => Keeps.pure h.toClosed _
  · exact Keeps.pure h.toClosed _

theorem drawString_keeps (h : Paints R E) (ha : ReadsAsset R E) (hf : ReadsFont R E) (l : List Byte) (x y : Int)
    (v : Byte) : Keeps R E (drawString l x y v) := by
  induction l generalizing x with
  | nil => exact fun s => ha.asset s
  | cons c l ih =>
    unfold drawString
    split
    · exact Keeps.pure h.toClosed ()
    · exact Keeps.bind h.toClosed (drawCharOp_keeps h hf c x y v) fun _ => ih _

/-! ## The wire -/

theorem emit_keeps (h : Sends R E) {e : TransportEvent} (he : isFramePin e) : Keeps R E (emit e) :=
  fun s => h.pin s e he

theorem tx_keeps (h : Sends R E) {e : TransportEvent} (he : isTransmit e = true) : Keeps R E (tx e) := by
  intro s
  have hc : txOk (emitted e s) (emitted e s).txCount = txOk s (s.txCount + 1) := by
    cases e <;> first | rfl | cases he
  unfold tx
  cases hk : txOk s (s.txCount + 1) with
  | true => rw [if_pos (hc.trans hk)]; exact h.sent s e he hk
  | false => rw [if_neg (by rw [hc, hk]; exact Bool.false_ne_true)]; exact h.lost s e he hk

theorem sendCmd_keeps (h : Sends R E) (c : Byte) : Keeps R E (sendCmd c) :=
  Keeps.bind h.toClosed (emit_keeps h trivial) fun _ => Keeps.bind h.toClosed (emit_keeps h trivial) fun _ =>
    Keeps.bind h.toClosed (tx_keeps h rfl) fun _ => emit_keeps h trivial

theorem sendDat_keeps (h : Sends R E) (d : Byte) : Keeps R E (sendDat d) :=
  Keeps.bind h.toClosed (emit_keeps h trivial) fun _ => Keeps.bind h.toClosed (emit_keeps h trivial) fun _ =>
    Keeps.bind h.toClosed (tx_keeps h rfl) fun _ => emit_keeps h trivial

theorem sendBulk_keeps (h : Sends R E) (data : List Byte) (n : Nat) : Keeps R E (sendBulk data n) :=
  Keeps.bind h.toClosed (emit_keeps h trivial) fun _ => Keeps.bind h.toClosed (emit_keeps h trivial) fun _ =>
    Keeps.bind h.toClosed (tx_keeps h rfl) fun _ => emit_keeps h trivial

theorem initSequence_keeps (h : Sends R E) (hx : ∀ s e, isTransmit e = false → R s (emitted e s))
    (hp : ∀ s p, R s { s with pstate := p }) (hm : ∀ s m, R s { s with mode := m }) (c : Config) :
    Keeps R E (initSequence c) := by
  have hi : ∀ i, Keeps R E (sendInitItem i) := by
    intro i
    unfold sendInitItem
    split
    · exact sendDat_keeps h _
    · exact sendCmd_keeps h _
  have he : ∀ e, isTransmit e = false → Keeps R E (emit e) := fun e he s => hx s e he
  refine Keeps.bind h.toClosed (fun s => hp s _) fun _ => ?_
  refine Keeps.bind h.toClosed (he _ rfl) fun _ => Keeps.bind h.toClosed (he _ rfl) fun _ => ?_
  refine Keeps.bind h.toClosed (he _ rfl) fun _ => Keeps.bind h.toClosed (he _ rfl) fun _ => ?_
  refine Keeps.bind h.toClosed (Keeps.forEach h.toClosed _ hi) fun _ => ?_
  refine Keeps.bind h.toClosed (fun s => hm s _) fun _ => Keeps.bind h.toClosed (he _ rfl) fun _ => ?_
  refine Keeps.bind h.toClosed (sendCmd_keeps h _) fun _ => ?_
  exact Keeps.bind h.toClosed (fun s => hp s _) fun _ => he _ rfl

theorem windowSequence_keeps (h : Sends R E) (sc ec sr er : Byte) : Keeps R E (windowSequence sc ec sr er) :=
  Keeps.bind h.toClosed (sendCmd_keeps h _) fun _ => Keeps.bind h.toClosed (sendDat_keeps h _) fun _ =>
    Keeps.bind h.toClosed (sendDat_keeps h _) fun _ => Keeps.bind h.toClosed (sendCmd_keeps h _) fun _ =>
      Keeps.bind h.toClosed (sendDat_keeps h _) fun _ => sendDat_keeps h _

theorem transferSequence_keeps (h : Sends R E) (hs : ∀ s, E .ended s (latchFault .storageOverrun s)) (c : Config)
    (p n : Nat) : Keeps R E (transferSequence c p n) := by
  refine Keeps.bind h.toClosed (sendCmd_keeps h _) fun _ => Keeps.bind h.toClosed ?_ fun _ => sendBulk_keeps h _ n
  intro s
  by_cases hr : n = 0 ∨ p + n ≤ s.cfg.fbBytes
  · rw [fbReadOut_ok hr]; exact h.refl s
  · rw [fbReadOut_fault hr]; exact hs s

theorem uploadTable_keeps (h : Sends R E) (hg : ∀ s, E .ended s (complete .errGrayRange s)) (c : Config)
    (t : List Byte) : Keeps R E (uploadTable c t) := by
  unfold uploadTable
  split
  · exact fun s => hg s
  · exact Keeps.bind h.toClosed (sendCmd_keeps h _) fun _ =>
      Keeps.bind h.toClosed (Keeps.forEach h.toClosed _ (sendDat_keeps h)) fun _ => sendCmd_keeps h _

/-! ## Whole operations -/

/-- Where the next state of an operation below 0x40 comes from, given what its primitive effects keep. The two register
operations and the missing DRAW_AA_LINE write what is said here and no more. -/
theorem exec_drawing (h : Paints R E) (ha : ReadsAsset R E) (hf : ReadsFont R E)
    {i : Instr} (hc : ∀ v, i = .clear v → ∀ s n v, n ≤ s.cfg.fbBytes → n ≤ pixelBytes s.w s.h →
      R s { s with fb := s.fb.fill n v }) {s t : State} (hi : i.opcode.toNat < 0x40) (he : exec i s = .next t) :
    (∃ u, R s u ∧ t = complete .ok u) ∨ E .ended s t
    ∨ (∃ a b, i = .configure a b ∧ t = complete .ok { s with w := a, h := b })
    ∨ (∃ p, i = .selectFont p ∧ p.toNat < s.cfg.fontRom.length
        ∧ t = complete .ok { s with fontSel := p, fontValid := true })
    ∨ (∃ p, i = .selectFont p ∧ t = complete .ok { s with fontValid := false })
    ∨ (i.opcode = 0x23 ∧ s.cfg.hasAaLine = false ∧ t = complete .errIllegal s) := by
  have fin : ∀ {C : Prop} {m : Op Unit}, Keeps R E m → finish m s = .next t →
      (∃ u, R s u ∧ t = complete .ok u) ∨ E .ended s t ∨ C := fun hm he =>
    (hm.of_finish he).imp_right .inl
  cases i with
  | configure a b => injection he with he; exact .inr (.inr (.inl ⟨a, b, rfl, he.symm⟩))
  | clear v =>
    by_cases hn : pixelBytes s.w s.h ≤ s.cfg.fbBytes
    · injection (finish_ok (fbFill_ok hn)).symm.trans he with he
      exact .inl ⟨_, hc v rfl s _ _ hn (Nat.le_refl _), he.symm⟩
    · injection (finish_ended (fbFill_fault hn)).symm.trans he with he
      refine .inr (.inl ?_)
      rw [← he]
      exact h.after _ _ _ _ (hc v rfl s _ _ (Nat.le_refl _) (Nat.le_of_not_le hn)) (h.storage _)
  | setPixel x y v => exact fin (setPixel_keeps h _ _ v) he
  | drawVLine x y0 y1 v => exact fin (plotAll_keeps h _ v) he
  | drawHLine y x0 x1 v => exact fin (plotAll_keeps h _ v) he
  | drawLine x0 y0 x1 y1 v => exact fin (plotAll_keeps h _ v) he
  | drawAaLine x0 y0 x1 y1 v =>
    change execDrawAaLine x0 y0 x1 y1 v s = _ at he
    unfold execDrawAaLine at he
    split at he
    · split at he
      · exact fin (plotAll_keeps h _ v) he
      · split at he
        · exact fin (plotAll_keeps h _ v) he
        · exact fin (aaLine_keeps h _ _ _ _ _) he
    · rename_i hn
      injection he with he
      exact .inr (.inr (.inr (.inr (.inr ⟨rfl, Bool.eq_false_iff.2 hn, he.symm⟩))))
  | drawRect x0 y0 x1 y1 v => exact fin (plotAll_keeps h _ v) he
  | drawRectFilled x0 y0 x1 y1 v => exact fin (plotAll_keeps h _ v) he
  | drawCircle x0 y0 r v => exact fin (plotAll_keeps h _ v) he
  | drawBitmap8bpp x0 y0 w hh p => exact fin (Keeps.forEach h.toClosed _ (blit8Pixel_keeps h ha _ _ _ _)) he
  | drawBitmap4bpp x0 y0 w hh p => exact fin (Keeps.forEach h.toClosed _ (blit4Pixel_keeps h ha _ _ _ _)) he
  | selectFont p =>
    change execSelectFont p s = _ at he
    unfold execSelectFont at he
    split at he
    · rename_i hp
      injection he with he
      exact .inr (.inr (.inr (.inl ⟨p, rfl, hp, he.symm⟩)))
    · injection he with he
      exact .inr (.inr (.inr (.inr (.inl ⟨p, rfl, he.symm⟩))))
  | drawChar c x y v =>
    exact fin (Keeps.bind h.toClosed (drawCharOp_keeps h hf c _ _ v) fun _ => Keeps.pure h.toClosed ()) he
  | drawText p x y v =>
    change execDrawText p x y v s = _ at he
    unfold execDrawText at he
    split at he
    · exact fin (drawString_keeps h ha hf _ _ _ v) he
    · injection he with he
      exact .inl ⟨s, h.refl s, he.symm⟩
  | sendCommand | sendData | initDisplay | setMode | sleepOn | sleepOff | setContrast | setBrightness | uploadGrayscale
  | resetGrayscale | setWindow | transfer | push => exact absurd hi (by simp [Instr.opcode])

/-- Where the next state of an operation from 0x40 up comes from, given what its primitive effects keep. -/
theorem exec_sending (h : Sends R E) (hs : ∀ s, E .ended s (latchFault .storageOverrun s))
    (ha : ∀ s, E .ended s (latchFault .assetOverrun s)) (hg : ∀ s, E .ended s (complete .errGrayRange s)) {i : Instr}
    (hx : i = .initDisplay → ∀ s e, isTransmit e = false → R s (emitted e s))
    (hp : i = .initDisplay ∨ i = .sleepOn ∨ i = .sleepOff → ∀ s p, R s { s with pstate := p })
    (hm : (i = .initDisplay ∨ ∃ m, i = .setMode m) → ∀ s m, R s { s with mode := m }) {s t : State} (hi : 0x40 ≤ i.opcode.toNat) (he : exec i s = .next t) :
    (∃ u, R s u ∧ t = complete .ok u) ∨ E .ended s t := by
  have hra : ReadsAsset R E := { toClosed := h.toClosed, asset := ha }
  cases i with
  | sendCommand v => exact (sendCmd_keeps h v).of_finish he
  | sendData v => exact (sendDat_keeps h v).of_finish he
  | initDisplay => exact (initSequence_keeps h (hx rfl) (hp (.inl rfl)) (hm (.inl rfl)) _).of_finish he
  | setMode m => exact (Keeps.bind h.toClosed (sendCmd_keeps h _) fun _ s => hm (.inr ⟨m, rfl⟩) s _).of_finish he
  | sleepOn => exact (Keeps.bind h.toClosed (sendCmd_keeps h _) fun _ s => hp (.inr (.inl rfl)) s _).of_finish he
  | sleepOff => exact (Keeps.bind h.toClosed (sendCmd_keeps h _) fun _ s => hp (.inr (.inr rfl)) s _).of_finish he
  | setContrast v => exact (Keeps.bind h.toClosed (sendCmd_keeps h _) fun _ => sendDat_keeps h _).of_finish he
  | setBrightness v => exact (Keeps.bind h.toClosed (sendCmd_keeps h _) fun _ => sendDat_keeps h _).of_finish he
  | uploadGrayscale p =>
    exact (Keeps.bind h.toClosed (assetReadOut_keeps hra 16 _) fun t => uploadTable_keeps h hg _ t).of_finish he
  | resetGrayscale => exact (sendCmd_keeps h _).of_finish he
  | setWindow sc ec sr er => exact (windowSequence_keeps h sc ec sr er).of_finish he
  | transfer p n => exact (transferSequence_keeps h hs _ _ _).of_finish he
  | push ox oy =>
    exact (Keeps.bind h.toClosed (windowSequence_keeps h _ _ _ _) fun _ =>
      transferSequence_keeps h hs _ _ _).of_finish he
  | configure | clear | setPixel | drawVLine | drawHLine | drawLine | drawAaLine | drawRect | drawRectFilled
  | drawCircle | drawBitmap8bpp | drawBitmap4bpp | selectFont | drawChar | drawText =>
    exact absurd hi (by simp [Instr.opcode])

end

end Sys2Proof.Machine
end

