-- ==== Sys2Proof/Laws/PerInstr.lean ====
section
/-! SUPPORT. Statements about every instruction as syntax, one lemma per constructor. -/

namespace Sys2Proof.Laws.OpcodeByte

/-- An instruction's descriptor carries, as its first byte, the instruction's opcode, and that is an opcode of the
table (R81, R84, R87). -/
def Statement (i : Instr) : Prop := fieldOp (encode i) = i.opcode ∧ i.opcode ∈ opcodes

theorem opcode_mem (i : Instr) : i.opcode ∈ opcodes := by
  cases i <;> simp [opcodes, Instr.opcode]

theorem configure (width height : Coord) : Statement (.configure width height) :=
  ⟨fieldOp_packFields .., opcode_mem _⟩
theorem clear (v : Byte) : Statement (.clear v) :=
  ⟨fieldOp_packFields .., opcode_mem _⟩
theorem setPixel (x y : Coord) (v : Byte) : Statement (.setPixel x y v) :=
  ⟨fieldOp_packFields .., opcode_mem _⟩
theorem drawVLine (x y0 y1 : Coord) (v : Byte) : Statement (.drawVLine x y0 y1 v) :=
  ⟨fieldOp_packFields .., opcode_mem _⟩
theorem drawHLine (y x0 x1 : Coord) (v : Byte) : Statement (.drawHLine y x0 x1 v) :=
  ⟨fieldOp_packFields .., opcode_mem _⟩
theorem drawLine (x0 y0 x1 y1 : Coord) (v : Byte) : Statement (.drawLine x0 y0 x1 y1 v) :=
  ⟨fieldOp_packFields .., opcode_mem _⟩
theorem drawAaLine (x0 y0 x1 y1 : Coord) (v : Byte) : Statement (.drawAaLine x0 y0 x1 y1 v) :=
  ⟨fieldOp_packFields .., opcode_mem _⟩
theorem drawRect (x0 y0 x1 y1 : Coord) (v : Byte) : Statement (.drawRect x0 y0 x1 y1 v) :=
  ⟨fieldOp_packFields .., opcode_mem _⟩
theorem drawRectFilled (x0 y0 x1 y1 : Coord) (v : Byte) : Statement (.drawRectFilled x0 y0 x1 y1 v) :=
  ⟨fieldOp_packFields .., opcode_mem _⟩
theorem drawCircle (x0 y0 r : Coord) (v : Byte) : Statement (.drawCircle x0 y0 r v) :=
  ⟨fieldOp_packFields .., opcode_mem _⟩
theorem drawBitmap8bpp (x0 y0 w h : Coord) (p : Word32) : Statement (.drawBitmap8bpp x0 y0 w h p) :=
  ⟨fieldOp_packFields .., opcode_mem _⟩
theorem drawBitmap4bpp (x0 y0 w h : Coord) (p : Word32) : Statement (.drawBitmap4bpp x0 y0 w h p) :=
  ⟨fieldOp_packFields .., opcode_mem _⟩
theorem selectFont (p : Word32) : Statement (.selectFont p) :=
  ⟨fieldOp_packFields .., opcode_mem _⟩
theorem drawChar (c : Byte) (x y : Coord) (v : Byte) : Statement (.drawChar c x y v) :=
  ⟨fieldOp_packFields .., opcode_mem _⟩
theorem drawText (p : Word32) (x y : Coord) (v : Byte) : Statement (.drawText p x y v) :=
  ⟨fieldOp_packFields .., opcode_mem _⟩
theorem sendCommand (v : Byte) : Statement (.sendCommand v) :=
  ⟨fieldOp_packFields .., opcode_mem _⟩
theorem sendData (v : Byte) : Statement (.sendData v) :=
  ⟨fieldOp_packFields .., opcode_mem _⟩
theorem initDisplay : Statement .initDisplay :=
  ⟨fieldOp_packFields .., opcode_mem _⟩
theorem setMode (m : BitVec 2) : Statement (.setMode m) :=
  ⟨fieldOp_packFields .., opcode_mem _⟩
theorem sleepOn : Statement .sleepOn :=
  ⟨fieldOp_packFields .., opcode_mem _⟩
theorem sleepOff : Statement .sleepOff :=
  ⟨fieldOp_packFields .., opcode_mem _⟩
theorem setContrast (v : Byte) : Statement (.setContrast v) :=
  ⟨fieldOp_packFields .., opcode_mem _⟩
theorem setBrightness (v : Byte) : Statement (.setBrightness v) :=
  ⟨fieldOp_packFields .., opcode_mem _⟩
theorem uploadGrayscale (p : Word32) : Statement (.uploadGrayscale p) :=
  ⟨fieldOp_packFields .., opcode_mem _⟩
theorem resetGrayscale : Statement .resetGrayscale :=
  ⟨fieldOp_packFields .., opcode_mem _⟩
theorem setWindow (startCol endCol startRow endRow : Byte) : Statement (.setWindow startCol endCol startRow endRow) :=
  ⟨fieldOp_packFields .., opcode_mem _⟩
theorem transfer (p n : Word32) : Statement (.transfer p n) :=
  ⟨fieldOp_packFields .., opcode_mem _⟩
theorem push (originX originY : Coord) : Statement (.push originX originY) :=
  ⟨fieldOp_packFields .., opcode_mem _⟩

end Sys2Proof.Laws.OpcodeByte
end

