-- ==== Sys2Proof/Laws/Protocol.lean ====
section
/-! SUPPORT. The wire sequences as lists of framings: what such a list does when the bus takes all of it, and what when
one of its transmits fails. -/

namespace Sys2Proof.Machine

/-! ## One framing -/

/-- A framing: whether it is a data framing, and its transmit event (R201, R202, R224). -/
abbrev Framing := Bool × TransportEvent

def cmdFraming (c : Byte) : Framing := (false, .transmitByte c)
def datFraming (d : Byte) : Framing := (true, .transmitByte d)
def bulkFraming (data : List Byte) (n : Nat) : Framing := (true, .transmitArray data n)

def framingEvents (f : Framing) : List TransportEvent :=
  [.pinSelectLow, if f.1 then .pinModeData else .pinModeCommand, f.2, .pinSelectHigh]

/-- The pseudocode of a framing. -/
def sendFraming (f : Framing) : Op Unit := do
  emit .pinSelectLow
  emit (if f.1 then .pinModeData else .pinModeCommand)
  tx f.2
  emit .pinSelectHigh

theorem sendCmd_eq (c : Byte) : sendCmd c = sendFraming (cmdFraming c) := rfl
theorem sendDat_eq (d : Byte) : sendDat d = sendFraming (datFraming d) := rfl
theorem sendBulk_eq (data : List Byte) (n : Nat) : sendBulk data n = sendFraming (bulkFraming data n) := rfl

/-- The state after a framing that succeeds. -/
def framed (f : Framing) (s : State) : State :=
  { s with wire := s.wire ++ framingEvents f, txCount := s.txCount + 1, cs := true, dc := f.1 }

theorem sendFraming_ok {f : Framing} {s : State} (hf : isTransmit f.2 = true) (h : txOk s (s.txCount + 1) = true) :
    sendFraming f s = .ok () (framed f s) := by
  have h' : (!s.txFails.contains (s.txCount + 1)) = true := h
  obtain ⟨d, e⟩ := f
  cases d <;> cases e <;> first
    | (cases hf; done)
    | (simp [sendFraming, bind_apply, emit, tx, emitted, driveLatch, txOk, framed, framingEvents] at h' ⊢; simp [h'])

theorem sendFraming_lost {f : Framing} {s : State} (hf : isTransmit f.2 = true)
    (h : txOk s (s.txCount + 1) = false) : sendFraming f s = .error .ended (lostIn (framingEvents f) 1 s) := by
  have h' : (!s.txFails.contains (s.txCount + 1)) = false := h
  obtain ⟨d, e⟩ := f
  cases d <;> cases e <;> first
    | (cases hf; done)
    | (simp [sendFraming, bind_apply, emit, tx, emitted, driveLatch, txOk, framingEvents, lostIn, busLost,
        statusByte] at h' ⊢; simp [h'])

/-! ## The bus -/

theorem busOk_iff {s : State} {n : Nat} :
    busOk s n = true ↔ ∀ k, s.txCount < k → k ≤ s.txCount + n → txOk s k = true := by
  unfold busOk
  rw [List.all_eq_true]
  refine ⟨fun h k h₁ h₂ => ?_, fun h k hk => h _ (by omega) (by have := List.mem_range.1 hk; omega)⟩
  have := h (k - s.txCount - 1) (List.mem_range.2 (by omega))
  rwa [show s.txCount + (k - s.txCount - 1 + 1) = k by omega] at this

theorem busOk_mono {s : State} {n m : Nat} (h : busOk s n = true) (hm : m ≤ n) : busOk s m = true :=
  busOk_iff.2 fun k h₁ h₂ => busOk_iff.1 h k h₁ (by omega)

theorem busOk_head {s : State} {n : Nat} (h : busOk s (n + 1) = true) : txOk s (s.txCount + 1) = true :=
  busOk_iff.1 h _ (by omega) (by omega)

/-- What is left of a good run of the bus after one framing. -/
theorem busOk_framed {s : State} {n : Nat} (f : Framing) (h : busOk s (n + 1) = true) : busOk (framed f s) n = true :=
  busOk_iff.2 fun k h₁ h₂ => busOk_iff.1 h k (Nat.lt_of_succ_lt h₁) (by
    have : (framed f s).txCount = s.txCount + 1 := rfl
    omega)

/-! ## A list of framings -/

/-- The state after a list of framings that all succeed. -/
def framedAll (l : List Framing) (s : State) : State := l.foldl (fun s f => framed f s) s

/-- A list of framings appends its events and counts its transmits; the pin latches depend on the last one. -/
theorem framedAll_eq (l : List Framing) (s : State) : framedAll l s =
    { s with
      wire := s.wire ++ l.flatMap framingEvents
      txCount := s.txCount + l.length
      cs := if l = [] then s.cs else true
      dc := (l.getLast?.map Prod.fst).getD s.dc } := by
  induction l generalizing s with
  | nil => simp [framedAll]
  | cons f l ih =>
    have h : framedAll (f :: l) s = framedAll l (framed f s) := rfl
    rw [h, ih]
    cases l with
    | nil => simp [framed]
    | cons g l =>
      simp [framed, List.getLast?_cons_cons]
      refine ⟨?_, by omega⟩
      cases h : (g :: l).getLast? with
      | none => simp at h
      | some r => rfl

/-- Every item of the list is a framing of a transmit. -/
def transmits (l : List Framing) : Prop := ∀ f ∈ l, isTransmit f.2 = true

theorem framings_ok {l : List Framing} {s : State} (hl : transmits l) (h : busOk s l.length = true) :
    forEach l sendFraming s = .ok () (framedAll l s) := by
  induction l generalizing s with
  | nil => rfl
  | cons f l ih =>
    exact (forEach_cons_ok (sendFraming_ok (hl f (List.mem_cons_self ..)) (busOk_head h))).trans
      (ih (fun g hg => hl g (List.mem_cons_of_mem _ hg)) (busOk_framed f h))

/-- Losing the `k`-th transmit after a framing that succeeded is losing the next one of the whole list. -/
theorem lostIn_framed (f : Framing) (ev : List TransportEvent) {k : Nat} (hk : 1 ≤ k) (s : State) :
    lostIn ev k (framed f s) = lostIn (framingEvents f ++ ev) (k + 1) s := by
  unfold lostIn framed
  have hlen : (framingEvents f).length = 4 := rfl
  have h₁ : (framingEvents f ++ ev).take (4 * (k + 1) - 1) = framingEvents f ++ ev.take (4 * k - 1) := by
    rw [List.take_append, List.take_of_length_le (by omega), hlen,
      show 4 * (k + 1) - 1 - 4 = 4 * k - 1 by omega]
  have h₂ : (framingEvents f ++ ev)[4 * (k + 1) - 3]? = ev[4 * k - 3]? := by
    rw [List.getElem?_append_right (by omega), hlen, show 4 * (k + 1) - 3 - 4 = 4 * k - 3 by omega]
  simp only [h₁, h₂, List.append_assoc, Nat.add_assoc, Nat.add_comm 1 k]

/-- Only the events of the framings up to the lost one count. -/
theorem lostIn_append {ev ev' : List TransportEvent} {k : Nat} (hk : 1 ≤ k) (h : 4 * k ≤ ev.length) (s : State) :
    lostIn (ev ++ ev') k s = lostIn ev k s := by
  unfold lostIn
  rw [List.take_append_of_le_length (by omega), List.getElem?_append_left (by omega)]

/-- A list of framings whose transmit number `k + 1` is the first to fail. -/
theorem framings_lost {l : List Framing} {s : State} {k : Nat} (hl : transmits l) (hk : k < l.length)
    (h : busOk s k = true) (hx : txOk s (s.txCount + (k + 1)) = false) :
    forEach l sendFraming s = .error .ended (lostIn (l.flatMap framingEvents) (k + 1) s) := by
  induction l generalizing s k with
  | nil => exact absurd hk (Nat.not_lt_zero _)
  | cons f l ih =>
    have hf := hl f (List.mem_cons_self ..)
    cases k with
    | zero =>
      refine (forEach_cons_error (sendFraming_lost hf hx)).trans ?_
      rw [List.flatMap_cons, Nat.zero_add, lostIn_append (Nat.le_refl 1) (show 4 * 1 ≤ (framingEvents f).length from Nat.le_refl 4)]
    | succ k =>
      refine (forEach_cons_ok (sendFraming_ok hf (busOk_head h))).trans ?_
      rw [ih (fun g hg => hl g (List.mem_cons_of_mem _ hg)) (Nat.lt_of_succ_lt_succ hk) (busOk_framed f h)
        (by rw [show (framed f s).txCount + (k + 1) = s.txCount + (k + 1 + 1) by
              show s.txCount + 1 + (k + 1) = _; omega]; exact hx),
        lostIn_framed f _ (by omega), List.flatMap_cons]

/-! ## The sequences of the operations -/

/-- The six framings of a window (R220). -/
def windowFramings (sc ec sr er : Byte) : List Framing :=
  [cmdFraming cmdSetColumn, datFraming (biasedColumn sc), datFraming (biasedColumn ec), cmdFraming cmdSetRow,
    datFraming sr, datFraming er]

theorem forEach_singleton {α : Type} (a : α) (f : α → Op Unit) : forEach [a] f = f a := by
  funext s
  rw [forEach_cons]
  cases f a s <;> rfl

theorem windowSequence_eq (sc ec sr er : Byte) :
    windowSequence sc ec sr er = forEach (windowFramings sc ec sr er) sendFraming := by
  unfold windowSequence
  rw [sendDat_eq er, ← forEach_singleton (datFraming er) sendFraming]
  rfl

theorem windowFramings_events (sc ec sr er : Byte) :
    (windowFramings sc ec sr er).flatMap framingEvents = windowEvents sc ec sr er := rfl

/-- The framings of a list of data bytes. -/
theorem forEach_sendDat (l : List Byte) (s : State) : forEach l sendDat s = forEach (l.map datFraming) sendFraming s := by
  induction l generalizing s with
  | nil => rfl
  | cons b l ih =>
    rw [List.map_cons, forEach_cons, forEach_cons, sendDat_eq]
    cases sendFraming (datFraming b) s with
    | ok u t => exact ih t
    | error e t => rfl

/-- The framing of an item of `INIT_BODY` (R209). -/
def initFraming (i : InitItem) : Framing := (i.isData, .transmitByte i.byte)

theorem forEach_sendInitItem (l : List InitItem) (s : State) :
    forEach l sendInitItem s = forEach (l.map initFraming) sendFraming s := by
  have hi : ∀ i, sendInitItem i = sendFraming (initFraming i) := by
    rintro ⟨d, b, t⟩
    cases d <;> rfl
  induction l generalizing s with
  | nil => rfl
  | cons i l ih =>
    rw [List.map_cons, forEach_cons, forEach_cons, hi]
    cases sendFraming (initFraming i) s with
    | ok u t => exact ih t
    | error e t => rfl

/-- The framings of a grayscale table (R217). -/
def uploadFramings (c : Config) (t : List Byte) : List Framing :=
  cmdFraming c.cmd.setGrayTable :: (t.map datFraming ++ [cmdFraming c.cmd.enableGrayTable])

theorem uploadTable_eq {c : Config} {t : List Byte} (h : ∀ b ∈ t, b.toNat ≤ grayMax) (s : State) :
    uploadTable c t s = forEach (uploadFramings c t) sendFraming s := by
  unfold uploadTable uploadFramings
  rw [if_neg (by simpa using h)]
  rw [forEach_cons, sendCmd_eq, sendCmd_eq, bind_apply]
  cases sendFraming (cmdFraming c.cmd.setGrayTable) s with
  | error e u => rfl
  | ok x u =>
    show (forEach t sendDat >>= fun _ => sendFraming (cmdFraming c.cmd.enableGrayTable)) u
      = forEach (t.map datFraming ++ [cmdFraming c.cmd.enableGrayTable]) sendFraming u
    rw [bind_apply, forEach_append, ← forEach_sendDat, forEach_singleton]
    cases forEach t sendDat u <;> rfl

/-- The framings of a transfer whose bytes exist (R222). -/
def transferFramings (c : Config) (m : Memory) (p n : Nat) : List Framing :=
  [cmdFraming c.cmd.writeRam, bulkFraming (fbSlice m p n) n]

theorem transferSequence_eq (c : Config) {p n : Nat} {s : State} (hr : n = 0 ∨ p + n ≤ s.cfg.fbBytes) :
    transferSequence c p n s = forEach (transferFramings c s.fb p n) sendFraming s := by
  unfold transferFramings
  rw [forEach_cons]
  show (sendFraming (cmdFraming c.cmd.writeRam) >>= fun _ => fbReadOut p n >>= fun d => sendBulk d n) s = _
  rw [bind_apply]
  cases h : txOk s (s.txCount + 1) with
  | true =>
    rw [sendFraming_ok (f := cmdFraming c.cmd.writeRam) rfl h]
    rw [forEach_singleton]
    exact bind_ok (fbReadOut_ok (s := framed (cmdFraming c.cmd.writeRam) s) hr)
  | false => rw [sendFraming_lost (f := cmdFraming c.cmd.writeRam) rfl h]

/-- A transfer one of whose bytes does not exist: StorageOverrun comes after the command and before the bulk framing,
if the command gets through (R222, R256). -/
theorem transferSequence_fault (c : Config) {p n : Nat} {s : State} (h : txOk s (s.txCount + 1) = true)
    (hr : ¬ (n = 0 ∨ p + n ≤ s.cfg.fbBytes)) :
    transferSequence c p n s
      = .error .ended (latchFault .storageOverrun (framed (cmdFraming c.cmd.writeRam) s)) :=
  (bind_ok (sendFraming_ok (f := cmdFraming c.cmd.writeRam) rfl h)).trans
    (bind_error (fbReadOut_fault (s := framed (cmdFraming c.cmd.writeRam) s) hr))

/-- A transfer whose command fails, whatever bytes exist (R256). -/
theorem transferSequence_lost (c : Config) {p n : Nat} {s : State} (h : txOk s (s.txCount + 1) = false) :
    transferSequence c p n s = .error .ended (lostIn (cmdEvents c.cmd.writeRam) 1 s) :=
  bind_error (sendFraming_lost (f := cmdFraming c.cmd.writeRam) rfl h)

end Sys2Proof.Machine
end

