-- ==== Sys2Proof/Laws/Shapes.lean ====
section
/-! SUPPORT. The pixel lists of the straight lines, and the circle loop: the number of its steps and its pixels. -/

namespace Sys2Proof.Machine

theorem mem_upTo {lo hi z : Nat} : z ∈ upTo lo hi ↔ lo ≤ z ∧ z ≤ hi := by
  simp only [upTo, List.mem_range'_1]
  omega

theorem mem_vlinePixels {x y0 y1 px py : Nat} :
    ((px : Int), (py : Int)) ∈ vlinePixels x y0 y1 ↔ px = x ∧ min y0 y1 ≤ py ∧ py ≤ max y0 y1 := by
  simp [vlinePixels, mem_upTo]
  omega

theorem mem_hlinePixels {y x0 x1 px py : Nat} :
    ((px : Int), (py : Int)) ∈ hlinePixels y x0 x1 ↔ py = y ∧ min x0 x1 ≤ px ∧ px ≤ max x0 x1 := by
  simp [hlinePixels, mem_upTo]
  omega

theorem mem_filledPixels {x0 y0 x1 y1 px py : Nat} :
    ((px : Int), (py : Int)) ∈ filledPixels x0 y0 x1 y1 ↔ x0 ≤ px ∧ px ≤ x1 ∧ y0 ≤ py ∧ py ≤ y1 := by
  simp [filledPixels, mem_upTo]
  omega

/-- `x` advances by 1 at each step of the circle loop, and `y` never grows (R156). -/
theorem octantStep_gap (o : Octant) : (octantStep o).x = o.x + 1 ∧ (octantStep o).y ≤ o.y := by
  unfold octantStep
  refine ⟨rfl, ?_⟩
  simp only
  split <;> omega

/-- A loop with more steps allowed than `y − x` is the same loop. -/
theorem octantPixels_enough (cx cy : Int) (n k : Nat) (o : Octant) (h : o.y - o.x ≤ n) :
    octantPixels cx cy (n + k) o = octantPixels cx cy n o := by
  induction n generalizing o with
  | zero =>
    cases k with
    | zero => rfl
    | succ k =>
      rw [Nat.zero_add]
      unfold octantPixels
      rw [if_neg (by omega)]
  | succ n ih =>
    rw [Nat.succ_add, octantPixels, octantPixels]
    have hg := octantStep_gap o
    split
    · rw [ih (octantStep o) (by omega)]
    · rfl

/-- `r` steps are all the steps of the circle loop (R153). -/
theorem octantPixels_radius (cx cy : Int) (r k : Nat) :
    octantPixels cx cy (r + k) (octantStart r) = octantPixels cx cy r (octantStart r) :=
  octantPixels_enough cx cy r k _ (by simp [octantStart])

/-- The loop's pixels are the eight points of each step taken while `x < y` held at it and at every step before it. -/
theorem mem_octantPixels {cx cy : Int} {n : Nat} {o : Octant} {q : Int × Int} :
    q ∈ octantPixels cx cy n o ↔
      ∃ k < n, (∀ j ≤ k, (octantStep^[j] o).x < (octantStep^[j] o).y)
        ∧ q ∈ eightPoints cx cy (octantStep^[k + 1] o).x (octantStep^[k + 1] o).y := by
  induction n generalizing o with
  | zero => simp [octantPixels]
  | succ n ih =>
    unfold octantPixels
    split
    · rename_i h
      rw [List.mem_append, ih]
      constructor
      · rintro (hq | ⟨k, hk, hl, hq⟩)
        · exact ⟨0, Nat.succ_pos n, by simpa using h, hq⟩
        · refine ⟨k + 1, by omega, fun j hj => ?_, hq⟩
          cases j with
          | zero => exact h
          | succ j => exact hl j (by omega)
      · rintro ⟨k, hk, hl, hq⟩
        cases k with
        | zero => exact .inl hq
        | succ k => exact .inr ⟨k, by omega, fun j hj => hl (j + 1) (by omega), hq⟩
    · rename_i h
      simp only [List.not_mem_nil, false_iff]
      rintro ⟨k, -, hl, -⟩
      exact h (hl 0 (Nat.zero_le k))

end Sys2Proof.Machine
end

