-- ==== Sys2Proof/Laws/Sources.lean ====
section
/-! SUPPORT. Blits and glyphs as lists of pixel writes: each item of a loop reads its source, which gives a pixel, gives
none, or does not exist. -/

namespace Sys2Proof.Machine

/-- One item whose source is known. -/
def drawSource (c : Cause) : Source → Op Unit
  | none => raiseFault c
  | some none => pure ()
  | some (some p) => plot p.1.1 p.1.2 (p.2.setWidth 8)

theorem mem_sourcePixels {l : List Source} (h : ∀ o ∈ l, o ≠ none) (p : LevelPixel) :
    p ∈ sourcePixels l ↔ some (some p) ∈ l := by
  induction l with
  | nil => simp [sourcePixels]
  | cons o l ih =>
    have ih := ih fun o ho => h o (List.mem_cons_of_mem _ ho)
    rcases o with _ | _ | q
    · exact absurd rfl (h _ (List.mem_cons_self ..))
    · simp [sourcePixels, ih]
    · simp [sourcePixels, ih]

/-- A pixel write that ends leaves all but FB as it was. -/
theorem plot_ok {x y : Int} {v : Byte} {s t : State} (h : plot x y v s = .ok () t) : t = { s with fb := t.fb } := by
  rcases plot_cases x y v s with ⟨hp, -⟩ | ⟨a, b, -, -, -, ⟨-, hp⟩ | ⟨-, hp⟩⟩
  · rw [hp] at h; injection h with _ h; rw [← h]
  · rw [hp] at h; injection h with _ h; rw [← h]
  · rw [hp] at h; cases h

/-- A loop over sources is the list of their pixels, and then the fault of the first source that does not exist. -/
theorem forEach_source (c : Cause) (l : List Source) (s : State) :
    forEach l (drawSource c) s = match plotLevels (sourcePixels l) s with
      | .ok _ t => if none ∈ l then .error .ended (latchFault c t) else .ok () t
      | .error e t => .error e t := by
  induction l generalizing s with
  | nil => rfl
  | cons o l ih =>
    rcases o with _ | _ | q
    · rw [forEach_cons_error (show drawSource c none s = .error .ended (latchFault c s) from rfl)]
      simp [sourcePixels, plotLevels, forEach_nil]
    · rw [forEach_cons_ok (show drawSource c (some none) s = .ok () s from rfl), ih]
      simp [sourcePixels]
    · rw [forEach_cons]
      have h : plotLevels (q :: sourcePixels l) s = match plot q.1.1 q.1.2 (q.2.setWidth 8) s with
        | .ok _ t => plotLevels (sourcePixels l) t
        | .error e t => .error e t := forEach_cons ..
      rw [show sourcePixels (some (some q) :: l) = q :: sourcePixels l from rfl, h]
      show (match plot q.1.1 q.1.2 (q.2.setWidth 8) s with
        | .ok _ t => forEach l (drawSource c) t
        | .error e t => .error e t) = _
      cases plot q.1.1 q.1.2 (q.2.setWidth 8) s with
      | error e t => rfl
      | ok u t =>
        refine (ih t).trans ?_
        have hm : (none ∈ some (some q) :: l) = (none ∈ l) := by simp
        simp only [hm]

/-- Loops whose items do alike on every state of one configuration do alike. -/
theorem forEach_congr_cfg {α : Type} (l : List α) (f g : α → Op Unit) (s : State)
    (h : ∀ a ∈ l, ∀ t, t.cfg = s.cfg → f a t = g a t) (hg : ∀ a ∈ l, ∀ t u, g a t = .ok () u → u.cfg = t.cfg) :
    forEach l f s = forEach l g s := by
  have key : ∀ t, t.cfg = s.cfg → forEach l f t = forEach l g t := by
    induction l with
    | nil => exact fun _ _ => rfl
    | cons a l ih =>
      intro t ht
      rw [forEach_cons, forEach_cons, h a (List.mem_cons_self ..) t ht]
      cases hga : g a t with
      | error e u => rfl
      | ok u v =>
        exact ih (fun b hb => h b (List.mem_cons_of_mem _ hb)) (fun b hb => hg b (List.mem_cons_of_mem _ hb)) v
          ((hg a (List.mem_cons_self ..) t v hga).trans ht)
  exact key s rfl

theorem drawSource_cfg {c : Cause} {o : Source} {s t : State} (h : drawSource c o s = .ok () t) : t.cfg = s.cfg := by
  rcases o with _ | _ | q
  · cases h
  · injection h with _ h; rw [h]
  · rw [plot_ok h]

theorem forEach_map {α β : Type} (l : List α) (g : α → β) (f : β → Op Unit) (s : State) :
    forEach (l.map g) f s = forEach l (fun a => f (g a)) s := by
  induction l generalizing s with
  | nil => rfl
  | cons a l ih =>
    rw [List.map_cons, forEach_cons, forEach_cons]
    cases f (g a) s with
    | ok u t => exact ih t
    | error e t => rfl

/-- A loop whose items read sources, as those sources. -/
theorem forEach_eq_sources {α : Type} (c : Cause) (l : List α) (f : α → Op Unit) (src : α → Source) (s : State)
    (h : ∀ a ∈ l, ∀ t, t.cfg = s.cfg → f a t = drawSource c (src a) t) :
    forEach l f s = forEach (l.map src) (drawSource c) s := by
  rw [forEach_map]
  exact forEach_congr_cfg l f _ s h fun _ _ _ _ => drawSource_cfg

/-! ## The three loops -/

theorem blit8Pixel_eq (x0 y0 w p : Nat) (ji : Nat × Nat) (s : State) :
    blit8Pixel x0 y0 w p ji s = drawSource .assetOverrun (blit8Source s.cfg.asset x0 y0 w p ji) s := by
  unfold blit8Source
  cases h : s.cfg.asset[p + ji.1 * w + ji.2]? with
  | none => exact bind_error (assetRead_fault h)
  | some b =>
    refine (bind_ok (assetRead_ok h)).trans ?_
    rw [← plot_natCast]
    rfl

theorem blit4Pixel_eq (x0 y0 w p : Nat) (ji : Nat × Nat) (s : State) :
    blit4Pixel x0 y0 w p ji s = drawSource .assetOverrun (blit4Source s.cfg.asset x0 y0 w p ji) s := by
  unfold blit4Source
  cases h : s.cfg.asset[p + (ji.1 * w + ji.2) / 2]? with
  | none => exact bind_error (assetRead_fault h)
  | some b =>
    refine (bind_ok (assetRead_ok h)).trans ?_
    rw [← plot_natCast]
    rfl

/-- Brightness is masked where it is used (R114). -/
theorem plot_mask (x y : Int) (v : Byte) : plot x y ((lowNibble v).setWidth 8) = plot x y v := by
  unfold plot setPixel
  rw [lowNibble_setWidth]

theorem glyphPixel_eq (f : Font) (g : Glyph) (x y : Int) (v : Byte) (rc : Nat × Nat) (s : State) :
    glyphPixel f g x y v rc s = drawSource .fontOverrun (glyphSource f g x y v rc) s := by
  unfold glyphSource
  cases h : f.bitmap[g.bitmapOffset.toNat + (rc.1 * g.width.toNat + rc.2) / 8]? with
  | none => exact bind_error (fontByte_fault h)
  | some b =>
    refine (bind_ok (fontByte_ok h)).trans ?_
    show (if glyphBit (rc.1 * g.width.toNat + rc.2) b then _ else _ : Op Unit) s = _
    cases hb : glyphBit (rc.1 * g.width.toNat + rc.2) b with
    | false => simp only [Option.map_some, hb]; rfl
    | true =>
      simp only [Option.map_some, hb, if_true]
      exact congrFun (plot_mask ..).symm s

/-- The order of a loop over a rectangle: item number `j·w + i` is (j, i). -/
theorem mem_rowMajor {w h : Nat} {ji : Nat × Nat} : ji ∈ rowMajor w h ↔ ji.1 < h ∧ ji.2 < w := by
  obtain ⟨j, i⟩ := ji
  simp [rowMajor]

end Sys2Proof.Machine
end

