-- ==== Sys2Proof/Tests/Slice0.lean ====
section
/-! SUPPORT. The model's own tests: decoding of words written out from the spec's tables, the checks of WellFormed,
single operations against the vectors of spec/95_test_vectors.md (named in each docstring), and for each statement with
hypotheses a state and operands that meet them (the theorems `wit_...`). -/

namespace Sys2Proof.Tests

set_option Elab.async false

open Sys2Proof.Machine

/-! Decoding: every constructor, from the 14 bytes of vectors E1 to E29 -/

/-- E1. -/
theorem test_decode_configure : decodeBytes [0x10, 0, 0, 1, 0x40, 0, 0, 0, 0, 0, 0, 0, 0, 0]
    = .ok (.configure 256 64) := by decide +kernel
/-- E2. -/
theorem test_decode_clear : decodeBytes [0x11, 7, 0, 0, 0, 0, 0, 0, 0, 0, 0, 0, 0, 0] = .ok (.clear 7) := by
  decide +kernel
/-- E3. -/
theorem test_decode_setPixel : decodeBytes [0x12, 0xF, 3, 0, 1, 0, 0, 0, 0, 0, 0, 0, 0, 0]
    = .ok (.setPixel 3 1 0xF) := by decide +kernel
/-- E29: ignored fields. -/
theorem test_decode_ignored_fields :
    decodeBytes [0x12, 0xFF, 3, 0, 1, 0, 0xAA, 0xAA, 0xBB, 0xBB, 0xCC, 0xCC, 0xDD, 0xDD]
    = .ok (.setPixel 3 1 0xFF) := by decide +kernel
/-- E4. -/
theorem test_decode_drawVLine : decodeBytes [0x20, 0xF, 1, 0, 3, 0, 1, 0, 0, 0, 0, 0, 0, 0]
    = .ok (.drawVLine 1 3 1 0xF) := by decide +kernel
/-- E5: row first. -/
theorem test_decode_drawHLine : decodeBytes [0x21, 9, 2, 0, 0, 0, 3, 0, 0, 0, 0, 0, 0, 0]
    = .ok (.drawHLine 2 0 3 9) := by decide +kernel
/-- E6. -/
theorem test_decode_drawLine : decodeBytes [0x22, 0xF, 0, 0, 0, 0, 7, 0, 3, 0, 0, 0, 0, 0]
    = .ok (.drawLine 0 0 7 3 15) := by decide +kernel
/-- E7. -/
theorem test_decode_drawAaLine : decodeBytes [0x23, 0xF, 0, 0, 0, 0, 7, 0, 3, 0, 0, 0, 0, 0]
    = .ok (.drawAaLine 0 0 7 3 15) := by decide +kernel
/-- E8. -/
theorem test_decode_drawRect : decodeBytes [0x24, 0xF, 0, 0, 0, 0, 3, 0, 2, 0, 0, 0, 0, 0]
    = .ok (.drawRect 0 0 3 2 0xF) := by decide +kernel
/-- E9. -/
theorem test_decode_drawRectFilled : decodeBytes [0x25, 0xF, 0xA, 0, 0xA, 0, 0x14, 0, 0x14, 0, 0, 0, 0, 0]
    = .ok (.drawRectFilled 10 10 20 20 15) := by decide +kernel
/-- E10. -/
theorem test_decode_drawCircle : decodeBytes [0x26, 0xA, 4, 0, 4, 0, 3, 0, 0, 0, 0, 0, 0, 0]
    = .ok (.drawCircle 4 4 3 0xA) := by decide +kernel
/-- E11. -/
theorem test_decode_drawBitmap8bpp : decodeBytes [0x27, 0, 0, 0, 1, 0, 4, 0, 2, 0, 0, 0, 0, 0]
    = .ok (.drawBitmap8bpp 0 1 4 2 0) := by decide +kernel
/-- E12. -/
theorem test_decode_drawBitmap4bpp : decodeBytes [0x28, 0, 2, 0, 1, 0, 3, 0, 3, 0, 0, 1, 0, 0]
    = .ok (.drawBitmap4bpp 2 1 3 3 0x100) := by decide +kernel
/-- E13. -/
theorem test_decode_selectFont : decodeBytes [0x30, 0, 0, 0, 0, 0, 0, 0, 0, 0, 0, 0, 0, 0]
    = .ok (.selectFont 0) := by decide +kernel
/-- E14: x, y in `a`, `b`; the code in `c`. -/
theorem test_decode_drawChar : decodeBytes [0x31, 0xF, 0xA, 0, 4, 0, 0x41, 0, 0, 0, 0, 0, 0, 0]
    = .ok (.drawChar 0x41 10 4 0xF) := by decide +kernel
/-- E15. -/
theorem test_decode_drawText : decodeBytes [0x32, 0xF, 1, 0, 4, 0, 0, 0, 0, 0, 0x20, 0, 0, 0]
    = .ok (.drawText 0x20 1 4 15) := by decide +kernel
/-- E16. -/
theorem test_decode_sendCommand : decodeBytes [0x40, 0xA6, 0, 0, 0, 0, 0, 0, 0, 0, 0, 0, 0, 0]
    = .ok (.sendCommand 0xA6) := by decide +kernel
/-- E17. -/
theorem test_decode_sendData : decodeBytes [0x41, 0x12, 0, 0, 0, 0, 0, 0, 0, 0, 0, 0, 0, 0]
    = .ok (.sendData 0x12) := by decide +kernel
/-- E18. -/
theorem test_decode_initDisplay : decodeBytes [0x42, 0, 0, 0, 0, 0, 0, 0, 0, 0, 0, 0, 0, 0]
    = .ok .initDisplay := by decide +kernel
/-- P10 and R83: `v[7:2]` is ignored, so 0x05 is mode 1. -/
theorem test_decode_setMode : decodeBytes [0x43, 5, 0, 0, 0, 0, 0, 0, 0, 0, 0, 0, 0, 0]
    = .ok (.setMode 1) := by decide +kernel
/-- E20. -/
theorem test_decode_sleepOn : decodeBytes [0x44, 0, 0, 0, 0, 0, 0, 0, 0, 0, 0, 0, 0, 0]
    = .ok .sleepOn := by decide +kernel
/-- E20. -/
theorem test_decode_sleepOff : decodeBytes [0x45, 0, 0, 0, 0, 0, 0, 0, 0, 0, 0, 0, 0, 0]
    = .ok .sleepOff := by decide +kernel
/-- E21. -/
theorem test_decode_setContrast : decodeBytes [0x46, 0x80, 0, 0, 0, 0, 0, 0, 0, 0, 0, 0, 0, 0]
    = .ok (.setContrast 0x80) := by decide +kernel
/-- E22. -/
theorem test_decode_setBrightness : decodeBytes [0x47, 0xF7, 0, 0, 0, 0, 0, 0, 0, 0, 0, 0, 0, 0]
    = .ok (.setBrightness 0xF7) := by decide +kernel
/-- E23. -/
theorem test_decode_uploadGrayscale : decodeBytes [0x48, 0, 0, 0, 0, 0, 0, 0, 0, 0, 0x40, 0, 0, 0]
    = .ok (.uploadGrayscale 0x40) := by decide +kernel
/-- E24. -/
theorem test_decode_resetGrayscale : decodeBytes [0x49, 0, 0, 0, 0, 0, 0, 0, 0, 0, 0, 0, 0, 0]
    = .ok .resetGrayscale := by decide +kernel
/-- E25, with bits 15:8 of every field set, which are ignored (R83). -/
theorem test_decode_setWindow : decodeBytes [0x4A, 0, 0, 1, 0x3F, 2, 0, 3, 0x7F, 4, 0, 0, 0, 0]
    = .ok (.setWindow 0 63 0 127) := by decide +kernel
/-- E26: `n` in bytes 6 .. 9, `p` in 10 .. 13. -/
theorem test_decode_transfer : decodeBytes [0x4B, 0, 0, 0, 0, 0, 0x45, 0x23, 1, 0, 0x10, 0, 0, 0]
    = .ok (.transfer 0x10 0x12345) := by decide +kernel
/-- E27. -/
theorem test_decode_push : decodeBytes [0x50, 0, 0, 0, 1, 0, 0, 0, 0, 0, 0, 0, 0, 0]
    = .ok (.push 0 1) := by decide +kernel
/-- E28: illegal opcodes are rejected by name. -/
theorem test_decode_illegal : decodeBytes (List.replicate 14 0) = .error (.illegalOpcode 0)
    ∧ decodeBytes (List.replicate 14 0xFF) = .error (.illegalOpcode 0xFF) := by decide +kernel
/-- R80: a descriptor has 14 bytes. -/
theorem test_decode_wrong_length : decodeBytes (List.replicate 13 0x11) = .error (.wrongLength 13) := by
  decide +kernel
/-- E26 through the table's numbering of bits. -/
theorem test_decodeTableWord_transfer :
    decodeTableWord 112 0x000000100001234500000000004B = some (.transfer 0x10 0x12345) := by decide +kernel

/-! WellFormed: an ill-formed term for each check -/

/-- R86: no DRAW_AA_LINE without the parameter. -/
theorem test_wf_no_aa_line : Instr.wf false (.drawAaLine 0 0 7 3 15) = false := by decide
/-- R187: `first > last`. -/
theorem test_wf_font_order : Font.wf ⟨0x42, 0x41, 6, [], []⟩ = false := by decide
/-- R187: a glyph record is missing. -/
theorem test_wf_font_glyphs : Font.wf ⟨0x41, 0x42, 6, [⟨3, 5, 4, 0, 0, 0⟩], []⟩ = false := by decide
/-- R187: a bad font makes the configuration ill-formed. -/
theorem test_wf_config_font :
    Config.wf { defaultConfig with fontRom := [⟨0x42, 0x41, 6, [], []⟩] } = false := by decide +kernel
/-- R210: the unlock command does not come first. -/
theorem test_wf_init_unlock_first :
    initBodyWf defaultCmd (initCmd 0xAE none :: defaultInitBody) = false := by decide +kernel
/-- R210: a topic out of order. -/
theorem test_wf_init_order :
    initBodyWf defaultCmd (initCmd 0xFD (some .unlock) :: initCmd 0xCA (some .multiplexRatio) :: defaultInitBody.drop 2)
    = false := by decide +kernel
/-- R210: a topic missing (no clock divider). -/
theorem test_wf_init_missing_topic :
    initBodyWf defaultCmd (initCmd 0xFD (some .unlock) :: defaultInitBody.drop 5) = false := by decide +kernel
/-- R210: the last two items are fixed. -/
theorem test_wf_init_last_two : initBodyWf defaultCmd (defaultInitBody ++ [initCmd 0xA9 (some .fullPanel)]) = false := by
  decide +kernel
/-- R210: VCOMH does not come before VSL; a data item before the unlock command does not make it less the first command. -/
theorem test_wf_init_electrical_order :
    initBodyWf defaultCmd (defaultInitBodyA ++ initCmd 0xBE (some .vcomh) :: defaultInitBodyB) = false
    ∧ initBodyWf defaultCmd (initDat 0x00 none :: defaultInitBody) = true := by decide +kernel
/-- R57 and log 23: one byte more than 32-bit addresses reach. -/
theorem test_wf_asset_addressable : assetAddressable (List.replicate 4294967297 0) = false := by
  unfold assetAddressable
  rw [List.length_replicate]
  decide
/-- R240: an odd panel width. -/
theorem test_wf_panel_even : Config.wf { defaultConfig with panelWPx := 255 } = false := by decide +kernel
/-- R7, R211: the defaults are a configuration the model accepts. -/
theorem test_wf_default : Config.wf defaultConfig = true := by decide +kernel

/-! Single operations -/

/-- A memory holding bytes from address 0. -/
def memOf (bs : List Byte) : Memory := bs.zipIdx.foldl (fun m p => m.write p.2 p.1) []

/-- A reset state with dimensions, and FB exactly these bytes. -/
def fbState (w h : Coord) (bs : List Byte) : State :=
  { State.reset with w := w, h := h, fb := memOf bs, cfg := { defaultConfig with fbBytes := bs.length } }

/-- `fbState` with FB of `n` zero bytes. -/
def zeroState (w h : Coord) (n : Nat) : State := fbState w h (List.replicate n 0)

/-- `s` with an ASSET memory. -/
def withAsset (bs : List Byte) (s : State) : State := { s with cfg := { s.cfg with asset := bs } }

/-- The next state, if there is one. -/
def nextOf : Host.Outcome State Fault Refusal → Option State
  | .next t => some t
  | .fault _ => none
  | .refused _ => none

/-- The first `n` bytes of FB. -/
def fbBytesOf (n : Nat) (s : State) : List Byte := (List.range n).map s.fb.read

/-- What one operation leaves in FB, with `STATUS`, `FAULTED` and `FCAUSE`. -/
def fbAfter (n : Nat) (i : Instr) (s : State) : Option (List Byte × Byte × Bool × Byte) :=
  (nextOf (exec i s)).map fun t => (fbBytesOf n t, t.status, t.faulted, t.fcause)

/-- What one operation leaves on the wire, with `STATUS` and `TXCOUNT`. -/
def wireAfter (i : Instr) (s : State) : Option (List TransportEvent × Byte × Nat) :=
  (nextOf (exec i s)).map fun t => (t.wire, t.status, t.txCount)

/-- R110's example. -/
theorem test_configure : (nextOf (exec (.configure 256 64) State.reset)).map (fun t => (t.w, t.h, t.status))
    = some (256, 64, 0) := by decide +kernel
/-- F8: five bytes of an odd size. -/
theorem test_clear_odd : fbAfter 8 (.clear 0xC) (fbState 3 3 (List.replicate 8 0xEE))
    = some ([0xCC, 0xCC, 0xCC, 0xCC, 0xCC, 0xEE, 0xEE, 0xEE], 0, false, 0) := by decide +kernel
/-- F13: the fill stops at the end of FB; no status. -/
theorem test_clear_fault : fbAfter 8 (.clear 3) { fbState 5 4 (List.replicate 8 0xEE) with status := 2 }
    = some (List.replicate 8 0x33, 2, true, 1) := by decide +kernel
/-- F4: low nibble, brightness masked. -/
theorem test_setPixel : fbAfter 4 (.setPixel 2 1 0x13) (fbState 4 2 [0x5A, 0, 0, 0xF0])
    = some ([0x5A, 0, 0, 0xF3], 0, false, 0) := by decide +kernel
/-- F5: x = W is dropped although its nibble index names a stored nibble. -/
theorem test_setPixel_dropped : fbAfter 4 (.setPixel 4 0 9) (fbState 4 2 [0x5A, 0, 0, 0xF3])
    = some ([0x5A, 0, 0, 0xF3], 0, false, 0) := by decide +kernel
/-- L1: reversed endpoints. -/
theorem test_drawVLine : fbAfter 8 (.drawVLine 1 3 1 0xF) (zeroState 4 4 8)
    = some ([0, 0, 0xF0, 0, 0xF0, 0, 0xF0, 0], 0, false, 0) := by decide +kernel
/-- L4: clipped at the right edge. -/
theorem test_drawHLine : fbAfter 8 (.drawHLine 2 2 9 9) (zeroState 4 4 8)
    = some ([0, 0, 0, 0, 0, 0x99, 0, 0], 0, false, 0) := by decide +kernel
/-- L7, backwards. -/
theorem test_drawLine : fbAfter 16 (.drawLine 7 3 0 0 15) (zeroState 8 8 32)
    = some ([0xFF, 0, 0, 0, 0, 0xFF, 0, 0, 0, 0, 0xFF, 0, 0, 0, 0, 0xFF], 0, false, 0) := by decide +kernel
/-- L8: a steep line. -/
theorem test_drawLine_steep : fbAfter 32 (.drawLine 1 6 3 0 9) (zeroState 8 8 32)
    = some ([0, 0x90, 0, 0, 0, 0x90, 0, 0, 0, 9, 0, 0, 0, 9, 0, 0, 0, 9, 0, 0, 0x90, 0, 0, 0, 0x90, 0, 0, 0, 0, 0, 0, 0],
      0, false, 0) := by decide +kernel
/-- A1: the reference instance. -/
theorem test_drawAaLine : fbAfter 16 (.drawAaLine 0 0 7 3 15)
    { zeroState 8 8 32 with
      cfg := { defaultConfig with fbBytes := 32, hasAaLine := true, aaLine := .reference } }
    = some ([0x87, 2, 0, 0, 0x60, 0xAC, 4, 0, 0, 0x40, 0xCA, 6, 0, 0, 0x20, 0x78], 0, false, 0) := by decide +kernel
/-- R86: no such operation. -/
theorem test_drawAaLine_illegal : fbAfter 4 (.drawAaLine 0 0 0 0 15) (zeroState 8 8 32)
    = some ([0, 0, 0, 0], 3, false, 0) := by decide +kernel
/-- R1 of the vectors, corners exchanged. -/
theorem test_drawRect : fbAfter 8 (.drawRect 3 2 0 0 0xF) (zeroState 4 4 8)
    = some ([0xFF, 0xFF, 0xF, 0xF0, 0xFF, 0xFF, 0, 0], 0, false, 0) := by decide +kernel
/-- R3 of the vectors. -/
theorem test_drawRectFilled : fbAfter 8 (.drawRectFilled 1 1 2 3 0xB) (zeroState 4 4 8)
    = some ([0, 0, 0xB0, 0xB, 0xB0, 0xB, 0xB0, 0xB], 0, false, 0) := by decide +kernel
/-- R4 of the vectors: reversed corners. -/
theorem test_drawRectFilled_reversed : fbAfter 8 (.drawRectFilled 2 1 1 3 0xB) (zeroState 4 4 8)
    = some (List.replicate 8 0, 0, false, 0) := by decide +kernel
/-- C4: a 9 by 9 framebuffer. -/
theorem test_drawCircle : fbAfter 41 (.drawCircle 4 4 3 0xF) (zeroState 9 9 41)
    = some ([0, 0, 0, 0, 0, 0, 0xFF, 0xF, 0, 0, 0xF, 0, 0xF, 0, 0xF, 0, 0, 0xF, 0xF0, 0, 0, 0xF0, 0, 0xF, 0, 0, 0xF, 0,
      0xF, 0, 0xF, 0, 0, 0xFF, 0xF, 0, 0, 0, 0, 0, 0], 0, false, 0) := by decide +kernel
/-- C6: negative coordinates are dropped. -/
theorem test_drawCircle_clipped : fbAfter 8 (.drawCircle 0 0 2 0xF) (zeroState 4 4 8)
    = some ([0, 0xF, 0, 0xF, 0xFF, 0, 0, 0], 0, false, 0) := by decide +kernel
/-- B1. -/
theorem test_drawBitmap8bpp :
    fbAfter 8 (.drawBitmap8bpp 0 1 4 2 0) (withAsset [0, 0x1F, 0x80, 0xFF, 0x7F, 0x10, 0xA5, 0xE0] (zeroState 4 4 8))
    = some ([0, 0, 0x10, 0xF8, 0x17, 0xEA, 0, 0], 0, false, 0) := by decide +kernel
/-- B3: the ninth source byte does not exist. -/
theorem test_drawBitmap8bpp_fault :
    fbAfter 8 (.drawBitmap8bpp 0 0 3 3 0) (withAsset [0, 0x1F, 0x80, 0xFF, 0x7F, 0x10, 0xA5, 0xE0] (zeroState 4 4 8))
    = some ([0x10, 8, 0x7F, 1, 0xEA, 0, 0, 0], 0, true, 2) := by decide +kernel
/-- B5: dropped pixels still consume their nibbles. -/
theorem test_drawBitmap4bpp :
    fbAfter 8 (.drawBitmap4bpp 2 1 3 3 0) (withAsset [0x12, 0x34, 0x56, 0x78, 0x9A] (zeroState 4 4 8))
    = some ([0, 0, 0, 0x21, 0, 0x54, 0, 0x87], 0, false, 0) := by decide +kernel
/-- B7: the source starts at ASSET[1]. -/
theorem test_drawBitmap4bpp_offset :
    fbAfter 8 (.drawBitmap4bpp 1 0 2 2 1) (withAsset [0x12, 0x34, 0x56, 0x78, 0x9A] (zeroState 4 4 8))
    = some ([0x30, 4, 0x50, 6, 0, 0, 0, 0], 0, false, 0) := by decide +kernel

/-- The test font of the vectors' section "Text". -/
def testFont (blob : List Byte) : Font :=
  ⟨0x41, 0x43, 6, [⟨3, 5, 4, 0, 0xFC, 0⟩, ⟨2, 2, 3, 1, 0xFF, 2⟩, ⟨0, 0, 2, 0, 0, 3⟩], blob⟩

/-- The text vectors' start state, with the font selected. -/
def textState (blob asset : List Byte) : State :=
  { zeroState 12 6 36 with
    fontValid := true
    cfg := { defaultConfig with fbBytes := 36, fontRom := [testFont blob], asset := asset } }

/-- T7 and R180. -/
theorem test_selectFont : (nextOf (exec (.selectFont 3) (textState [] []))).map (fun t => (t.fontValid, t.status))
    = some (false, 0) := by decide +kernel
/-- R180's example. -/
theorem test_selectFont_valid :
    (nextOf (exec (.selectFont 0) { textState [] [] with fontValid := false, fontSel := 9 })).map
      (fun t => (t.fontValid, t.fontSel)) = some (true, 0) := by decide +kernel
/-- T4. -/
theorem test_drawChar : fbAfter 36 (.drawChar 0x41 10 4 0xF) (textState [0x57, 0xDA, 0xF0] [])
    = some ([0, 0, 0, 0, 0, 0xF0, 0, 0, 0, 0, 0, 0xF, 0, 0, 0, 0, 0, 0xFF, 0, 0, 0, 0, 0, 0xF, 0, 0, 0, 0, 0, 0xF,
      0, 0, 0, 0, 0, 0], 0, false, 0) := by decide +kernel
/-- T8: the blob ends after 8 bits. -/
theorem test_drawChar_fault : fbAfter 14 (.drawChar 0x41 0 4 0xF) (textState [0x57] [])
    = some ([0xF0, 0, 0, 0, 0, 0, 0xF, 0xF, 0, 0, 0, 0, 0xFF, 0], 0, true, 3) := by decide +kernel
/-- T3: "A@B" with rows above the framebuffer and a character outside the font. -/
theorem test_drawText :
    fbAfter 18 (.drawText 4 0 2 7) (textState [0x57, 0xDA, 0xF0] [0x41, 0x43, 0x42, 0, 0x41, 0x40, 0x42, 0])
    = some ([0x77, 7, 0, 0, 0, 0, 7, 7, 0x70, 7, 0, 0, 7, 7, 0x70, 7, 0, 0], 0, false, 0) := by decide +kernel
/-- T8: no terminator. -/
theorem test_drawText_fault :
    (nextOf (exec (.drawText 0 0 4 0xF) (textState [0x57, 0xDA, 0xF0] [0x41, 0x42]))).map
      (fun t => (fbBytesOf 6 t, fbBytesOf 24 t |>.drop 18, t.faulted, t.fcause))
    = some ([0xF0, 0, 0, 0, 0, 0], [0xF, 0xF, 0xF0, 0xF, 0, 0], true, 2) := by decide +kernel

/-- P1. -/
theorem test_sendCommand : wireAfter (.sendCommand 0xA6) State.reset = some (cmdEvents 0xA6, 0, 1) := by decide +kernel
/-- P2. -/
theorem test_sendData : wireAfter (.sendData 0x12) State.reset = some (datEvents 0x12, 0, 1) := by decide +kernel
/-- P15: 166 events, 40 transmits, and the registers after it. -/
theorem test_initDisplay :
    (nextOf (exec .initDisplay { State.reset with mode := .forceOn })).map
      (fun t => ([t.wire.length, t.txCount], t.pstate, t.mode, [t.rst, t.cs, t.dc]))
    = some ([166, 40], .awake, .normal, [true, true, false]) := by decide +kernel
/-- P17: the first transmit fails. -/
theorem test_initDisplay_fails :
    wireAfter .initDisplay { State.reset with txFails := [1] }
    = some ([.pinResetLow, .delayMs 1, .pinResetHigh, .delayMs 50, .pinSelectLow, .pinModeCommand, .transmitByte 0xFD],
      2, 1) := by decide +kernel
/-- P10. -/
theorem test_setMode : (nextOf (exec (.setMode 2) State.reset)).map (fun t => (t.wire, t.mode))
    = some (cmdEvents 0xA5, .forceOn) := by decide +kernel
/-- P11. -/
theorem test_sleepOn : (nextOf (exec .sleepOn State.reset)).map (fun t => (t.wire, t.pstate))
    = some (cmdEvents 0xAE, .asleep) := by decide +kernel
/-- P11. -/
theorem test_sleepOff : (nextOf (exec .sleepOff State.reset)).map (fun t => (t.wire, t.pstate))
    = some (cmdEvents 0xAF, .awake) := by decide +kernel
/-- P3. -/
theorem test_setContrast : wireAfter (.setContrast 0x80) State.reset
    = some (cmdEvents 0xC1 ++ datEvents 0x80, 0, 2) := by decide +kernel
/-- P3. -/
theorem test_setBrightness : wireAfter (.setBrightness 0xF7) State.reset
    = some (cmdEvents 0xC7 ++ datEvents 7, 0, 2) := by decide +kernel
/-- P6: steps of 12 up to 180. -/
theorem test_uploadGrayscale :
    wireAfter (.uploadGrayscale 1) (withAsset (99 :: (List.range 16).map fun i => BitVec.ofNat 8 (12 * i)) State.reset)
    = some (cmdEvents 0xB8 ++ ((List.range 16).map fun i => BitVec.ofNat 8 (12 * i)).flatMap datEvents ++ cmdEvents 0,
      0, 18) := by decide +kernel
/-- P7: the last entry is 181. -/
theorem test_uploadGrayscale_range :
    wireAfter (.uploadGrayscale 0) (withAsset (List.replicate 15 180 ++ [181]) State.reset)
    = some ([], 1, 0) := by decide +kernel
/-- P9. -/
theorem test_resetGrayscale : wireAfter .resetGrayscale State.reset = some (cmdEvents 0xB9, 0, 1) := by decide +kernel
/-- P4 (source S8). -/
theorem test_setWindow : wireAfter (.setWindow 0 63 0 127) State.reset
    = some (cmdEvents 0x15 ++ datEvents 28 ++ datEvents 91 ++ cmdEvents 0x75 ++ datEvents 0 ++ datEvents 127, 0, 6) := by
  decide +kernel
/-- P16: the third transmit fails; chip-select stays low. -/
theorem test_setWindow_fails :
    (nextOf (exec (.setWindow 0 63 0 127) { State.reset with txFails := [3] })).map
      (fun t => (t.wire, t.status, t.cs, t.dc, t.faulted))
    = some (cmdEvents 0x15 ++ datEvents 28 ++ [.pinSelectLow, .pinModeData, .transmitByte 0x5B], 2, false, true, false) := by
  decide +kernel
/-- P12. -/
theorem test_transfer : wireAfter (.transfer 0 4) (fbState 4 2 [0x5A, 0, 0, 0xF3])
    = some (cmdEvents 0x5C ++ [.pinSelectLow, .pinModeData, .transmitArray [0x5A, 0, 0, 0xF3] 4, .pinSelectHigh], 0, 2) := by
  decide +kernel
/-- P14: the command is sent, then the fault. -/
theorem test_transfer_fault :
    (nextOf (exec (.transfer 2 3) (fbState 4 2 [0x5A, 0, 0, 0xF3]))).map (fun t => (t.wire, t.faulted, t.fcause))
    = some (cmdEvents 0x5C, true, 1) := by decide +kernel
/-- U3 on a 4 by 2 panel: offset 2·2 + 3 = 7, 4 bytes. -/
theorem test_push :
    (nextOf (exec (.push 3 2) { fbState 0 0 [0, 1, 2, 3, 4, 5, 6, 7, 8, 9, 10] with
      cfg := { defaultConfig with fbBytes := 11, panelWPx := 4, panelHPx := 2 } })).map
      (fun t => (t.wire.length, t.wire.drop 28, t.txCount))
    = some (32, [.pinSelectLow, .pinModeData, .transmitArray [7, 8, 9, 10] 4, .pinSelectHigh], 8) := by decide +kernel
/-- U2: the window and the command are sent, then the fault. -/
theorem test_push_fault : (nextOf (exec (.push 1 0) State.reset)).map (fun t => (t.wire.length, t.faulted, t.fcause))
    = some (28, true, 1) := by decide +kernel

/-! Steps -/

/-- Program 5, step 5: a fault leaves the position where it is, and the block then accepts nothing. -/
theorem test_step_fault :
    (nextOf (step ((fbState 5 4 (List.replicate 8 0x22)).withFetchWord 112 0x000300010912))).map
      (fun t => (t.faulted, t.fcause, t.pos, t.status)) = some (true, 1, 0, 0) := by decide +kernel
/-- E28 and R86: an illegal opcode completes with status 3. -/
theorem test_step_illegal :
    (nextOf (step (State.reset.withFetchWord 112 0xFF))).map (fun t => (t.status, t.pos, t.op, t.faulted))
    = some (3, 1, 0, false) := by decide +kernel
/-- R280: the reset input ends a fault and keeps FB. -/
theorem test_step_reset :
    (nextOf (step { fbState 5 4 [0x22] with faulted := true, resetIn := true, txCount := 7 })).map
      (fun t => (t.faulted, t.w, t.fb, t.txCount)) = some (false, 0, [(0, 0x22)], 0) := by decide +kernel

/-- R281: reset during a fill keeps the bytes written, and no more. -/
theorem test_step_abandon :
    (nextOf (step ({ fbState 4 2 [1, 2, 3, 4] with resetDuring := some 2 }.withFetchWord 112 0x0511))).map
      (fun t => (fbBytesOf 4 t, t.w, t.pos, t.status)) = some ([0x55, 0x55, 3, 4], 0, 0, 0) := by decide +kernel
/-- R281: reset during a line keeps the pixels written: two of T1's column. -/
theorem test_step_abandon_pixels :
    (nextOf (step ({ zeroState 4 4 8 with resetDuring := some 2 }.withFetchWord 112
      (encode (.drawVLine 1 3 1 0xF)).toNat))).map (fun t => fbBytesOf 8 t)
    = some [0, 0, 0xF0, 0, 0xF0, 0, 0, 0] := by decide +kernel

/-! Witnesses: for each statement with hypotheses, what meets them -/

open Sys2Proof.Statement

/-- A next state with a property, from a check that evaluates. -/
theorem next_with {o : Host.Outcome State Fault Refusal} {P : State → Bool} (h : (nextOf o).any P = true) :
    ∃ t, o = .next t ∧ P t = true := by
  cases o with
  | next t => exact ⟨t, rfl, h⟩
  | fault r => cases h
  | refused r => cases h

/-- A framebuffer that fits holds the bytes of all its pixels. -/
theorem pixelsInFb_of_fits {s : State} (h : s.fits = true) (lv : Nat → Nat → Nibble → Prop) : pixelsInFb s lv :=
  fun _ _ _ hf _ => pixelAddress_lt_of_fits h hf

/-- A pixel whose byte FB lacks. -/
theorem not_pixelsInFb {s : State} {lv : Nat → Nat → Nibble → Prop} (x y : Nat) (b : Nibble) (hx : x < s.w.toNat)
    (hy : y < s.h.toNat) (hl : lv x y b) (ha : ¬ pixelAddress s.w x y < s.cfg.fbBytes) : ¬ pixelsInFb s lv :=
  fun h => ha (h x y b ⟨hx, hy⟩ hl)

/-- Four by two pixels in four bytes. -/
def small : State := fbState 4 2 [0x5A, 0, 0, 0xF3]
/-- Four by four pixels, of which FB holds the first row and a half. -/
def short : State := fbState 4 4 [1, 2, 3]
/-- `small` with an antialiased line. -/
def smallAa : State := { small with cfg := { small.cfg with hasAaLine := true } }
/-- `small` with a descriptor presented. -/
def presenting (i : Instr) (s : State) : State := { s with program := [encode i] }

theorem wit_OpcodeAloneSelectsTheOperation : fieldOp (encode .sleepOn) ∈ opcodes ∧ fieldOp 0xFF ∉ opcodes := by
  decide +kernel
theorem wit_UnusedBitsAreIgnored : decode 0x0011CCBBAA = .ok (.clear 0xAA) ∨ decode 0xCCBBAA11 = .ok (.clear 0xAA)
    ∧ (0xCCBBAA11 : Descriptor) &&& operandMask (.clear 0xAA) = 0xAA11 &&& operandMask (.clear 0xAA) := by
  decide +kernel
theorem wit_StepRunsTheDecodedOperation : (presenting .sleepOn small).Accepting
    ∧ (presenting .sleepOn small).program[(presenting .sleepOn small).pos]? = some (encode .sleepOn)
    ∧ decode (encode .sleepOn) = .ok .sleepOn ∧ Instr.sleepOn.wf small.cfg.hasAaLine = true := by
  unfold State.Accepting; decide +kernel
theorem wit_PlacedDescriptorIsPresentedNext : 0 < [(1 : Descriptor), 2].length ∧ 0 ≠ 1 := by decide
theorem wit_IllegalDescriptor_undefined : { small with program := [0xFF] }.Accepting
    ∧ ({ small with program := [0xFF] } : State).program[0]? = some 0xFF ∧ fieldOp 0xFF ∉ opcodes := by
  unfold State.Accepting; decide +kernel
theorem wit_IllegalDescriptor_no_aa_line : { small with program := [0x23] }.Accepting
    ∧ ({ small with program := [0x23] } : State).program[0]? = some 0x23 ∧ fieldOp 0x23 = 0x23
    ∧ small.cfg.hasAaLine = false := by
  unfold State.Accepting; decide +kernel
theorem wit_FaultedBlockIsStuck : ({ small with faulted := true } : State).resetIn = false
    ∧ ({ small with faulted := true } : State).faulted = true := by decide
theorem wit_ResetInputRestoresTheBlock : ({ short with resetIn := true, faulted := true } : State).resetIn = true := rfl
theorem wit_ResetAbandonsTheOperation :
    let i : Instr := .drawHLine 1 0 3 9
    let s := { presenting i small with resetDuring := some 4 }
    s.resetIn = false ∧ s.faulted = false ∧ s.cfg.wf = true ∧ s.fb.wf = true ∧ s.program[s.pos]? = some (encode i)
      ∧ decode (encode i) = .ok i ∧ i.wf s.cfg.hasAaLine = true ∧ writeCount i s ≤ 4
      ∧ (nextOf (exec i s)).isSome = true := by decide +kernel
/-- R281: CLEAR abandoned after two of its eight bytes; a row abandoned after its second pixel; a column whose second
pixel FB has no byte for. -/
theorem wit_ResetAbandonsTheOperation_middle :
    (nextOf (step { presenting (.clear 7) small with resetDuring := some 2 })).map (fun t => (t.fb.read 1, t.fb.read 3))
      = some (0x77, 0xF3)
    ∧ (nextOf (step { presenting (.drawHLine 1 0 3 9) small with resetDuring := some 2 })).map
      (fun t => (t.fb.read 2, t.fb.read 3)) = some (0x99, 0xF3)
    ∧ (nextOf (step { presenting (.drawVLine 3 0 2 9) short with resetDuring := some 3 })).map
      (fun t => (t.fb.read 1, t.faulted)) = some (0x92, false) := by decide +kernel
theorem wit_ResetAbandonsTheOperation_illegal : fieldOp 0xFF ∉ opcodes
    ∧ (nextOf (step { small with program := [0xFF], resetDuring := some 0 })).isSome = true := by decide +kernel
theorem wit_IdleBlockKeepsAllState : small.resetIn = false ∧ small.Final := by unfold State.Final; decide
theorem wit_PositionMovesOnlyOnCompletion : ∃ t, step (presenting .sleepOn small) = .next t ∧ (t.pos == 1) = true :=
  next_with (by decide +kernel)
theorem wit_IllFormedConfigurationIsRefused :
    let s := { presenting .sleepOn small with cfg := { small.cfg with panelWPx := 255 } }
    s.resetIn = false ∧ s.faulted = false ∧ s.pos < s.program.length ∧ s.cfg.wf = false := by decide +kernel

theorem small_inv : small.Inv where
  fbCanonical := by decide
  fbBounded := by decide
  fontInTable := by decide
  statusLegal := by decide
  causeLegal := by decide
  txCounted := by decide
  csDriven := by decide
  dcDriven := by decide
  rstDriven := by decide

theorem wit_EveryStepKeepsTheInvariant : (presenting (.setPixel 3 1 0xF) small).Inv
    ∧ ∃ t, step (presenting (.setPixel 3 1 0xF) small) = .next t ∧ (t.pos == 1) = true :=
  ⟨{ small_inv with }, next_with (by decide +kernel)⟩
theorem wit_EveryOperationCompletesOrFaults : small.cfg.wf = true ∧ small.faulted = false
    ∧ (small.fontValid = true → small.fontSel.toNat < small.cfg.fontRom.length) := by decide +kernel
theorem wit_StatusCodes_range : ∃ t, exec (.uploadGrayscale 0) (withAsset (List.replicate 16 181) small) = .next t
    ∧ (t.status == 1 && !t.faulted) = true := next_with (by decide +kernel)
theorem wit_StatusCodes_bus : ∃ t, exec (.sendData 1) { small with txFails := [1] } = .next t
    ∧ (t.status == 2 && !t.faulted) = true := next_with (by decide +kernel)
theorem wit_StatusCodes_illegal : ∃ t, exec (.drawAaLine 0 0 1 2 3) small = .next t
    ∧ (t.status == 3 && !t.faulted) = true := next_with (by decide +kernel)
theorem wit_FaultCauses_storage : ∃ t, exec (.setPixel 3 3 1) short = .next t ∧ (t.faulted && t.fcause == 1) = true :=
  next_with (by decide +kernel)
theorem wit_FaultCauses_asset : ∃ t, exec (.drawBitmap4bpp 0 0 1 1 0) short = .next t
    ∧ (t.faulted && t.fcause == 2) = true := next_with (by decide +kernel)
theorem wit_FaultCauses_font : ∃ t, exec (.drawChar 0x41 0 4 0xF) (textState [0x57] []) = .next t
    ∧ (t.faulted && t.fcause == 3) = true := next_with (by decide +kernel)

/-- The text vectors' state with its whole blob. -/
def sound : State := textState [0x57, 0xDA, 0xF0] [0x41, 0x42, 0]

theorem wit_CallerContract : sound.cfg.wf = true
    ∧ (sound.fontValid = true → sound.fontSel.toNat < sound.cfg.fontRom.length)
    ∧ [Instr.clear 3, .drawCircle 4 4 3 1, .drawChar 0x41 0 4 1, .drawText 0 0 4 1, .drawBitmap8bpp 0 0 3 1 0,
      .drawBitmap4bpp 0 0 3 2 0, .transfer 0 36, .sleepOn].all (callerContract · sound) = true
    ∧ callerContract (.uploadGrayscale 1) (withAsset (List.replicate 17 9) small) = true
    ∧ callerContract (.push 0 0) { small with cfg := { defaultConfig with fbBytes := 8192 } } = true := by
  decide +kernel
theorem wit_RegistersHaveOneWriter_dimensions : ∃ t, exec (.configure 8 9) small = .next t ∧ (t.w != small.w) = true :=
  next_with (by decide +kernel)
theorem wit_RegistersHaveOneWriter_font : ∃ t, exec (.selectFont 7) sound = .next t
    ∧ (t.fontValid != sound.fontValid) = true := next_with (by decide +kernel)
theorem wit_RegistersHaveOneWriter_rst : ∃ t, exec .initDisplay { small with rst := false } = .next t
    ∧ (t.rst != false) = true := next_with (by decide +kernel)
theorem wit_DisplayRegistersFollowTheTable : busOk { small with txFails := [3, 5], txCount := 3 } 1 = true
    ∧ ∃ t, exec .sleepOn { small with txFails := [3, 5], txCount := 3 } = .next t
      ∧ (t.pstate == .asleep && t.txCount == 4) = true :=
  ⟨by decide, next_with (by decide +kernel)⟩
theorem wit_DrawingAndTransportAreSeparate_drawing : (Instr.setPixel 0 0 1).opcode.toNat < 0x40
    ∧ ∃ t, exec (.setPixel 0 0 1) small = .next t ∧ (t.fb != small.fb) = true :=
  ⟨by decide, next_with (by decide +kernel)⟩
theorem wit_DrawingAndTransportAreSeparate_wire : 0x40 ≤ Instr.sleepOn.opcode.toNat
    ∧ ∃ t, exec .sleepOn small = .next t ∧ (t.wire != small.wire) = true := ⟨by decide, next_with (by decide +kernel)⟩
theorem wit_NothingBeyondThePictureIsWritten :
    let s := fbState 3 3 (List.replicate 8 0xEE)
    s.fb.wf = true ∧ (∃ t, exec (.setPixel 2 2 1) s = .next t ∧ (t.fb != s.fb) = true) ∧ (s.w.toNat * s.h.toNat + 1) / 2 ≤ 5
      ∧ (∀ v, Instr.setPixel 2 2 1 ≠ .clear v) ∧ s.w.toNat * s.h.toNat ≤ 9 := by
  refine ⟨by decide, next_with (by decide +kernel), by decide, ?_, by decide⟩
  intro v h
  cases h
theorem wit_WireIsAppendOnly : ∃ t, exec (.push 0 0) State.reset = .next t ∧ (t.txCount == 8) = true :=
  next_with (by decide +kernel)
theorem wit_DisplayStateGatesNothing_next : ∃ t, exec .initDisplay small = .next t ∧ (t.pstate == .awake) = true :=
  next_with (by decide +kernel)
theorem wit_DisplayStateGatesNothing_refused :
    exec (.drawChar 0x41 0 0 1) { small with fontValid := true } = .refused .noSuchFont := by rfl
theorem wit_NothingFollowsAFailedTransmit : 0x40 ≤ (Instr.setWindow 0 1 2 3).opcode.toNat
    ∧ ∃ t, exec (.setWindow 0 1 2 3) { small with txFails := [3] } = .next t
      ∧ (decide (0 < 2 ∧ 2 < t.txCount) && !txOk { small with txFails := [3] } t.txCount && !t.faulted && t.status == 2)
        = true := ⟨by decide, next_with (by decide +kernel)⟩

theorem wit_ClearFillsThePixelBytes : small.fb.wf = true ∧ (small.w.toNat * small.h.toNat + 1) / 2 ≤ small.cfg.fbBytes
    ∧ short.fb.wf = true ∧ short.cfg.fbBytes < (short.w.toNat * short.h.toNat + 1) / 2 := by decide
/-- The last pixel of FB, the first column past the right edge, and the first pixel past the end of FB. -/
theorem wit_PixelWriteLaws : (3 < small.w.toNat ∧ 1 < small.h.toNat ∧ (1 * small.w.toNat + 3) / 2 < small.cfg.fbBytes)
    ∧ small.w.toNat ≤ 4 ∧ small.h.toNat ≤ 2
    ∧ (2 < short.w.toNat ∧ 1 < short.h.toNat ∧ short.cfg.fbBytes ≤ (1 * short.w.toNat + 2) / 2) := by decide
theorem wit_drawing_fits (lv : Nat → Nat → Nibble → Prop) : small.fb.wf = true ∧ pixelsInFb small lv :=
  ⟨by decide, pixelsInFb_of_fits (by decide) lv⟩
/-- FB holds the first of the three pixels of this column, which stays written. -/
theorem wit_StorageFaults_keeps_the_pixels_before :
    (nextOf (exec (.drawVLine 3 0 2 9) short)).map (fun t => (t.fb.read 1, t.fb.read 0, t.faulted, t.fcause))
      = some (0x92, 1, true, 1) := by decide +kernel
theorem wit_StraightLinesDraw_fault : short.fb.wf = true
    ∧ ¬ pixelsInFb short (flat (fun px py => px = 2 ∧ between 1 0 py) 7)
    ∧ ¬ pixelsInFb short (flat (fun px py => py = 1 ∧ between 0 2 px) 7) :=
  ⟨by decide, not_pixelsInFb 2 1 7 (by decide) (by decide) ⟨⟨rfl, by unfold between; decide⟩, by decide⟩ (by decide),
    not_pixelsInFb 2 1 7 (by decide) (by decide) ⟨⟨rfl, by unfold between; decide⟩, by decide⟩ (by decide)⟩
theorem wit_LineDrawsItsPixels_fault : short.fb.wf = true
    ∧ ¬ pixelsInFb short (flat (fun px py => ((px : Int), (py : Int)) ∈ linePixels 0 0 3 3) 7) :=
  ⟨by decide, not_pixelsInFb 2 2 7 (by decide) (by decide) ⟨by decide, by decide⟩ (by decide)⟩
theorem wit_LineWalk : (0 : Coord) ≠ 65535 ∧ (65535 : Coord) ≠ 0 ∧ (5, 65530) ∈ linePixels 0 65535 5 65530 := by decide
theorem wit_AntialiasedLineOptionalAndDegenerate : small.cfg.hasAaLine = false ∧ smallAa.cfg.hasAaLine = true
    ∧ ((3 : Coord) = 3 ∨ (0 : Coord) = 1) := by decide
theorem wit_AntialiasedLineDrawsItsLevels : smallAa.fb.wf = true ∧ smallAa.cfg.hasAaLine = true ∧ (0 : Coord) ≠ 3
    ∧ (0 : Coord) ≠ 1 := by decide
/-- With the reference instance, a pixel of the line that FB has no byte for. -/
theorem wit_AntialiasedLineDrawsItsLevels_fault :
    let s := { short with cfg := { short.cfg with hasAaLine := true, aaLine := .reference } }
    ∃ t, exec (.drawAaLine 0 0 3 2 7) s = .next t ∧ (t.faulted && t.fcause == 1) = true :=
  next_with (by decide +kernel)
theorem wit_RectangleDrawsItsEdges_fault : ¬ pixelsInFb short (flat (fun px py =>
    ((px = 3 ∨ px = 0) ∧ between 3 0 py) ∨ ((py = 3 ∨ py = 0) ∧ between 3 0 px)) 7) :=
  not_pixelsInFb 3 3 7 (by decide) (by decide) ⟨.inl ⟨.inl rfl, by unfold between; decide⟩, by decide⟩ (by decide)
theorem wit_FilledRectangleFills_fault :
    ¬ pixelsInFb short (flat (fun px py => 0 ≤ px ∧ px ≤ 3 ∧ 1 ≤ py ∧ py ≤ 3) 7) :=
  not_pixelsInFb 3 3 7 (by decide) (by decide) ⟨by decide, by decide⟩ (by decide)
theorem wit_FilledRectangleFills_reversed : (1 : Coord).toNat < (2 : Coord).toNat := by decide
theorem wit_CircleDrawsItsPoints_fault :
    ¬ pixelsInFb short (flat (fun px py => ((px : Int), (py : Int)) ∈ circlePixels 0 0 3) 7) :=
  not_pixelsInFb 0 3 7 (by decide) (by decide) ⟨by decide, by decide⟩ (by decide)
/-- The worked examples of R156, `r = 6` and `r = 3`: each step is taken at `x < y`, and the loop ends on the diagonal.
Of the circle `r = 3` about (4, 4), a reflection of (1, 3) and the last point (2, 2) are pixels; (3, 3) from the centre
is none. -/
theorem wit_OctantDecisionVariable :
    (List.range 5).map (fun k => ((octantStep^[k] (octantStart 6)).x, (octantStep^[k] (octantStart 6)).y))
      = [(0, 6), (1, 6), (2, 6), (3, 5), (4, 4)]
    ∧ (List.range 4).map (fun k => (octantStep^[k + 1] (octantStart 6)).f) = [-2, 3, 0, 1]
    ∧ (∀ j ≤ 1, (octantStep^[j] (octantStart 3)).x < (octantStep^[j] (octantStart 3)).y)
    ∧ (4 + -3, 4 + 1) ∈ circlePixels 4 4 3 ∧ (4 + 2, 4 + -2) ∈ circlePixels 4 4 3
    ∧ (4 + 3, 4 + 3) ∉ circlePixels 4 4 3 := by decide
/-- A source that ends exactly with ASSET, and one a byte longer. -/
theorem wit_Bitmap8Blits (lv : Nat → Nat → Nibble → Prop) : let s := withAsset (List.replicate 8 1) small
    s.fb.wf = true ∧ pixelsInFb s lv
      ∧ (0 : Word32).toNat + (4 : Coord).toNat * (2 : Coord).toNat ≤ s.cfg.asset.length
      ∧ (4 : Coord).toNat * (2 : Coord).toNat ≠ 0
      ∧ s.cfg.asset.length < (1 : Word32).toNat + (4 : Coord).toNat * (2 : Coord).toNat :=
  ⟨by decide, pixelsInFb_of_fits (by decide) lv, by decide, by decide, by decide⟩
/-- Nine pixels are five bytes. -/
theorem wit_Bitmap4Blits (lv : Nat → Nat → Nibble → Prop) : let s := withAsset (List.replicate 5 1) small
    s.fb.wf = true ∧ pixelsInFb s lv
      ∧ (0 : Word32).toNat + ((3 : Coord).toNat * (3 : Coord).toNat + 1) / 2 ≤ s.cfg.asset.length
      ∧ (3 : Coord).toNat * (3 : Coord).toNat ≠ 0
      ∧ s.cfg.asset.length < (1 : Word32).toNat + ((3 : Coord).toNat * (3 : Coord).toNat + 1) / 2 :=
  ⟨by decide, pixelsInFb_of_fits (by decide) lv, by decide, by decide, by decide⟩
theorem wit_Bitmaps_storage :
    let s := withAsset (List.replicate 16 1) short
    s.fb.wf = true ∧ 16 ≤ s.cfg.asset.length ∧ ¬ pixelsInFb s (blit8Level s 0 0 4 4 0)
      ∧ ¬ pixelsInFb s (blit4Level s 0 0 4 4 0) :=
  ⟨by decide, by decide,
    not_pixelsInFb 3 3 0 (by decide) (by decide) ⟨3, 3, 1, by decide, by decide, rfl, rfl, by decide, by decide⟩
      (by decide),
    not_pixelsInFb 3 3 1 (by decide) (by decide) ⟨3, 3, 1, by decide, by decide, rfl, rfl, by decide, by decide⟩
      (by decide)⟩
/-- A source that ends one byte short, with a pixel before its end that FB has no byte for (R256). -/
theorem wit_Bitmap8Blits_storage_before_asset :
    let s := withAsset (List.replicate 15 1) short
    (4 : Coord).toNat * (4 : Coord).toNat ≠ 0
      ∧ s.cfg.asset.length < (0 : Word32).toNat + (4 : Coord).toNat * (4 : Coord).toNat
      ∧ ¬ pixelsInFb s (blit8Level s 0 0 4 4 0) :=
  ⟨by decide, by decide,
    not_pixelsInFb 2 3 0 (by decide) (by decide) ⟨2, 3, 1, by decide, by decide, rfl, rfl, by decide, by decide⟩
      (by decide)⟩
theorem wit_SelectFont : (0 : Word32).toNat < sound.cfg.fontRom.length ∧ sound.cfg.fontRom.length ≤ (1 : Word32).toNat := by
  decide
theorem wit_NoFontDrawsNothing : small.fontValid = false := rfl
theorem wit_CharacterDrawsItsGlyph (lv : Nat → Nat → Nibble → Prop) : sound.fb.wf = true ∧ sound.fontValid = true
    ∧ sound.cfg.fontRom[sound.fontSel.toNat]? = some (testFont [0x57, 0xDA, 0xF0])
    ∧ (testFont [0x57, 0xDA, 0xF0]).wf = true ∧ pixelsInFb sound lv
    ∧ glyphOf (testFont [0x57, 0xDA, 0xF0]) 0x43 = some ⟨0, 0, 2, 0, 0, 3⟩
    ∧ glyphInBlob (testFont [0x57, 0xDA, 0xF0]) ⟨0, 0, 2, 0, 0, 3⟩ = true
    ∧ glyphOf (testFont [0x57]) 0x41 = some ⟨3, 5, 4, 0, 0xFC, 0⟩
    ∧ glyphInBlob (testFont [0x57]) ⟨3, 5, 4, 0, 0xFC, 0⟩ = false :=
  ⟨by decide, by decide, by decide, by decide, pixelsInFb_of_fits (by decide) lv, by decide, by decide, by decide, by decide⟩
theorem wit_CharacterDrawsItsGlyph_fault (lv : Nat → Nat → Nibble → Prop) : let s := textState [0x57] []
    s.fb.wf = true ∧ s.fontValid = true ∧ s.cfg.fontRom[s.fontSel.toNat]? = some (testFont [0x57])
      ∧ (testFont [0x57]).wf = true ∧ pixelsInFb s lv :=
  ⟨by decide, by decide, by decide, by decide, pixelsInFb_of_fits (by decide) lv⟩
/-- "AB" with its zero byte, and without one. -/
theorem wit_TextDrawsItsCharacters (lv : Nat → Nat → Nibble → Prop) :
    let f := testFont [0x57, 0xDA, 0xF0]
    let cs : List Byte := [0x41, 0x42]
    sound.fb.wf = true ∧ sound.fontValid = true ∧ sound.cfg.fontRom[sound.fontSel.toNat]? = some f ∧ f.wf = true
      ∧ (∀ c ∈ cs, c ≠ 0) ∧ (∀ c ∈ cs, (glyphOf f c).all (glyphInBlob f) = true) ∧ pixelsInFb sound lv
      ∧ sound.cfg.asset.drop (0 : Word32).toNat = cs ++ 0 :: []
      ∧ (withAsset [0x41, 0x42] sound).cfg.asset.drop (0 : Word32).toNat = cs :=
  ⟨by decide, by decide, by decide, by decide, by decide, by decide, pixelsInFb_of_fits (by decide) lv, by decide,
    by decide⟩
/-- 'A' fits the first blob byte no longer; 'C' has no bits and is drawn before it. FB ends before the pixels. -/
theorem wit_TextDrawsItsCharacters_fault (lv : Nat → Nat → Nibble → Prop) :
    let s := textState [0x57] [0x43, 0x41, 0]
    s.fb.wf = true ∧ s.fontValid = true ∧ s.cfg.fontRom[s.fontSel.toNat]? = some (testFont [0x57])
      ∧ s.cfg.asset.drop (0 : Word32).toNat = [0x43] ++ 0x41 :: [0]
      ∧ glyphOf (testFont [0x57]) 0x41 = some ⟨3, 5, 4, 0, 0xFC, 0⟩
      ∧ glyphInBlob (testFont [0x57]) ⟨3, 5, 4, 0, 0xFC, 0⟩ = false ∧ pixelsInFb s lv :=
  ⟨by decide, by decide, by decide, by decide, by decide, by decide, pixelsInFb_of_fits (by decide) lv⟩
theorem wit_Text_storage :
    let s := { sound with cfg := { sound.cfg with fbBytes := 2 } }
    let lit := flat (charLit (testFont [0x57, 0xDA, 0xF0]) 0x41 0 4) 15
    s.fb.wf = true ∧ ¬ pixelsInFb s lit ∧ ¬ pixelsInFb s (flat (textLit (testFont [0x57, 0xDA, 0xF0]) [0x41] 0 4) 15) :=
  have lit : charLit (testFont [0x57, 0xDA, 0xF0]) 0x41 0 4 0 1 :=
    ⟨⟨3, 5, 4, 0, 0xFC, 0⟩, 1, 0, by decide, by decide, by decide, ⟨0x57, by decide, by decide⟩, by decide, by decide⟩
  ⟨by decide, not_pixelsInFb 0 1 15 (by decide) (by decide) ⟨lit, by decide⟩ (by decide),
    not_pixelsInFb 0 1 15 (by decide) (by decide) ⟨.inl lit, by decide⟩ (by decide)⟩

theorem wit_bus_ok : txOk small (small.txCount + 1) = true ∧ txOk small (small.txCount + 2) = true := by decide
/-- A run whose only failing transmit comes later, or first, or in between. -/
theorem wit_bus_of_an_operation : busOk { small with txFails := [19] } 18 = true
    ∧ busOk { small with txFails := [5] } (5 - 1) = true ∧ txOk { small with txFails := [5] } (0 + 5) = false := by decide
theorem wit_InitializeSendsItsSequence : small.cfg.initBody.length = 39 ∧ busOk small (39 + 1) = true
    ∧ busOk { small with txFails := [40] } 39 = true ∧ txOk { small with txFails := [40] } (0 + 39 + 1) = false := by
  decide
theorem wit_bus_first_fails : txOk { small with txFails := [1] } 1 = false := by decide
theorem wit_bus_second_fails : txOk { small with txFails := [2] } 1 = true
    ∧ txOk { small with txFails := [2] } 2 = false := by decide
theorem wit_SetModeSendsAndRecords : [(0, Mode.normal, small.cfg.cmd.modeNormal), (1, Mode.inverted, small.cfg.cmd.modeInverted),
    (2, Mode.forceOn, small.cfg.cmd.modeForceOn), (3, Mode.forceOff, small.cfg.cmd.modeForceOff)].map
      (fun p => (modeOf p.1, modeCommand small.cfg.cmd (modeOf p.1))) = [(Mode.normal, 0xA6), (Mode.inverted, 0xA7),
    (Mode.forceOn, 0xA5), (Mode.forceOff, 0xA4)] := by decide
theorem wit_GrayscaleUploadSends : let s := withAsset (List.replicate 16 180) small
    ((s.cfg.asset.drop (0 : Word32).toNat).take 16).length = 16
      ∧ (∀ b ∈ (s.cfg.asset.drop (0 : Word32).toNat).take 16, b.toNat ≤ 180) ∧ busOk s 18 = true := by decide
theorem wit_GrayscaleUploadRejects : let s := withAsset (List.replicate 15 180 ++ [181]) small
    ((s.cfg.asset.drop (0 : Word32).toNat).take 16).length = 16
      ∧ (∃ b ∈ (s.cfg.asset.drop (0 : Word32).toNat).take 16, 180 < b.toNat)
      ∧ ((s.cfg.asset.drop (1 : Word32).toNat).take 16).length < 16 := by decide
theorem wit_TransferSendsTheBytes : busOk small 2 = true ∧ (0 : Word32).toNat + (4 : Word32).toNat ≤ small.cfg.fbBytes
    ∧ (4 : Word32) ≠ 0 ∧ small.cfg.fbBytes < (1 : Word32).toNat + (4 : Word32).toNat := by decide
/-- R256: the array transmit fails after the command went through; a failed command wins over StorageOverrun. -/
theorem wit_TransferSendsTheBytes_fails :
    (nextOf (exec (.transfer 0 4) { small with txFails := [2] })).map (fun t => (t.status, t.faulted, t.wire.length))
      = some (2, false, 7)
    ∧ (nextOf (exec (.transfer 1 4) { small with txFails := [1] })).map (fun t => (t.status, t.faulted, t.wire.length))
      = some (2, false, 3) := by decide +kernel
/-- R256: in PUSH a failure in the window wins over StorageOverrun, which wins over a failure of the array transmit. -/
theorem wit_PushSendsTheWindowAndTheBytes_fails :
    (nextOf (exec (.push 1 0) { State.reset with txFails := [7, 8] })).map (fun t => (t.status, t.faulted, t.wire.length))
      = some (2, false, 27)
    ∧ (nextOf (exec (.push 1 0) { State.reset with txFails := [8] })).map (fun t => (t.fcause, t.faulted, t.wire.length))
      = some (1, true, 28) := by decide +kernel
theorem wit_PushSendsTheWindowAndTheBytes : busOk State.reset 8 = true
    ∧ 0 * (State.reset.cfg.panelWPx / 2) + 0 + State.reset.cfg.panelWPx * State.reset.cfg.panelHPx / 2
      ≤ State.reset.cfg.fbBytes
    ∧ State.reset.cfg.panelWPx * State.reset.cfg.panelHPx / 2 ≠ 0
    ∧ State.reset.cfg.fbBytes < 0 * (State.reset.cfg.panelWPx / 2) + 1
      + State.reset.cfg.panelWPx * State.reset.cfg.panelHPx / 2 := by decide +kernel
theorem wit_PushIsWindowThenTransfer_ok : (0 : Word32).toNat = 0 * (State.reset.cfg.panelWPx / 2) + 0
    ∧ (8192 : Word32).toNat = State.reset.cfg.panelWPx * State.reset.cfg.panelHPx / 2
    ∧ ∃ t, exec (.setWindow 0 63 0 127) State.reset = .next t ∧ (t.status == 0) = true :=
  ⟨by decide, by decide, next_with (by decide +kernel)⟩
theorem wit_PushIsWindowThenTransfer_fails :
    ∃ t, exec (.setWindow 0 63 0 127) { State.reset with txFails := [6] } = .next t ∧ (t.status == 2) = true :=
  next_with (by decide +kernel)

end Sys2Proof.Tests
end

section
/-! ## Proofs: encoding. What the step does with a descriptor that is no operation of this hardware (R86). -/

namespace Sys2Proof

/-- What decodes has the opcode of the descriptor it came from (R87). -/
theorem opcode_of_decode {d : Descriptor} {i : Instr} (h : decode d = .ok i) : i.opcode = fieldOp d := by
  simp only [decode] at h
  split at h <;> cases h
  all_goals
    rename_i hop
    exact (BitVec.eq_of_toNat_eq hop).symm

/-- Opcode 0x23 is DRAW_AA_LINE, which needs `HAS_AA_LINE`. -/
theorem Instr.wf_of_opcode_drawAaLine {i : Instr} (h : i.opcode = 0x23) (hasAaLine : Bool) :
    i.wf hasAaLine = hasAaLine := by
  cases i
  case drawAaLine => rfl
  all_goals simp [Instr.opcode] at h

namespace Machine

/-- A descriptor stands for no operation exactly when all it decodes to is an operation the hardware lacks. -/
theorem legalInstr_eq_none_iff {hasAaLine : Bool} {d : Descriptor} :
    legalInstr hasAaLine d = none ↔ ∀ i, decode d = .ok i → i.wf hasAaLine = false := by
  unfold legalInstr
  cases decode d with
  | ok i => simp
  | error e => simp

/-- R86: an undefined opcode, or opcode 0x23 without `HAS_AA_LINE`, stands for no operation. -/
theorem legalInstr_eq_none {hasAaLine : Bool} {d : Descriptor}
    (h : fieldOp d ∉ opcodes ∨ fieldOp d = 0x23 ∧ hasAaLine = false) : legalInstr hasAaLine d = none := by
  refine legalInstr_eq_none_iff.mpr fun i hi => ?_
  have hop := opcode_of_decode hi
  rcases h with hundef | ⟨haa, hno⟩
  · exact absurd (hop ▸ Laws.OpcodeByte.opcode_mem i) hundef
  · rw [Instr.wf_of_opcode_drawAaLine (hop.trans haa), hno]

/-- An accepting block runs the descriptor presented next (R31, R32). -/
theorem step_eq_runDescriptor {s : State} {d : Descriptor} (hs : s.Accepting) (hd : s.program[s.pos]? = some d) :
    step s = runDescriptor d s := by
  obtain ⟨hreset, hduring, hfaulted, hwf⟩ := hs
  simp [step, sequenceStep, nextDescriptor, hreset, hfaulted, hd, hwf, hduring]

/-- A descriptor that stands for no operation completes with ERR_ILLEGAL (R86). -/
theorem runDescriptor_of_legalInstr_eq_none {s : State} {d : Descriptor} (h : legalInstr s.cfg.hasAaLine d = none) :
    runDescriptor d s = .next (advance (complete .errIllegal s)) := by
  rw [runDescriptor, h]

/-- R84: the table leaves 228 of the 256 opcode values undefined. -/
theorem length_undefined_opcodes :
    ((List.range 256).filter fun n => !opcodes.contains (BitVec.ofNat 8 n)).length = 228 := by
  decide +kernel

/-- Settles O7: such a descriptor stands for no operation (`legalInstr_eq_none`), and an accepting block only completes
it, so `STATUS` and the host's position are all that change. -/
theorem illegalDescriptorCompletesWithErrIllegal : Obligations.IllegalDescriptorCompletesWithErrIllegal := by
  refine ⟨length_undefined_opcodes, fun s d hs hd hillegal => ?_⟩
  calc step s
    _ = runDescriptor d s := step_eq_runDescriptor hs hd
    _ = .next (advance (complete .errIllegal s)) := runDescriptor_of_legalInstr_eq_none (legalInstr_eq_none hillegal)
    _ = .next { s with status := 3, pos := s.pos + 1 } := rfl

end Machine
end Sys2Proof
end

section
/-! ## Proofs: the framebuffer. What SET_PIXEL does to FB (R112, R113, R115). -/

namespace Sys2Proof.Machine

open Sys2Proof.Statement

/-- FB after a pixel write at nibble index `n`: one byte is read and written back with one nibble replaced (R112). -/
def writeNibble (m : Memory) (n : Nat) (b : Nibble) : Memory :=
  m.write (n / 2) (putNibble n (m.read (n / 2)) b)

theorem wf_writeNibble {m : Memory} (hm : m.wf = true) (n : Nat) (b : Nibble) : (writeNibble m n b).wf = true :=
  Memory.wf_write hm _ _

theorem nibbleAt_writeNibble_same {m : Memory} (hm : m.wf = true) (n : Nat) (b : Nibble) :
    nibbleAt (writeNibble m n b) n = b :=
  (nibbleAt_write hm n n b).trans (if_pos rfl)

theorem nibbleAt_writeNibble_of_ne {m : Memory} (hm : m.wf = true) {n k : Nat} (b : Nibble) (h : k ≠ n) :
    nibbleAt (writeNibble m n b) k = nibbleAt m k :=
  (nibbleAt_write hm n k b).trans (if_neg h)

theorem read_writeNibble_of_ne {m : Memory} (hm : m.wf = true) {n a : Nat} (b : Nibble) (h : a ≠ n / 2) :
    (writeNibble m n b).read a = m.read a :=
  (Memory.read_write hm _ a _).trans (if_neg h)

/-- SET_PIXEL on a pixel whose byte FB has (R112, R113). -/
theorem exec_setPixel_written {s : State} {x y : Coord} (v : Byte) (hf : inFrame s x.toNat y.toNat)
    (ha : pixelAddress s.w x.toNat y.toNat < s.cfg.fbBytes) :
    exec (.setPixel x y v) s
      = .next (drawn s (writeNibble s.fb (nibbleIndex s.w x.toNat y.toNat) (lowNibble v))) :=
  finish_ok (setPixel_written v hf ha)

/-- SET_PIXEL outside the logical framebuffer only completes (R112). -/
theorem exec_setPixel_dropped {s : State} {x y : Coord} (v : Byte) (hf : ¬ inFrame s x.toNat y.toNat) :
    exec (.setPixel x y v) s = .next (complete .ok s) :=
  finish_ok (setPixel_dropped v hf)

/-- SET_PIXEL on a pixel of the logical framebuffer whose byte FB does not have only latches the fault (R52). -/
theorem exec_setPixel_fault {s : State} {x y : Coord} (v : Byte) (hf : inFrame s x.toNat y.toNat)
    (ha : s.cfg.fbBytes ≤ pixelAddress s.w x.toNat y.toNat) :
    exec (.setPixel x y v) s = .next (latchFault .storageOverrun s) :=
  finish_ended (setPixel_fault v hf (Nat.not_lt.mpr ha))

/-- Settles O30: SET_PIXEL ends in one of three ways (`exec_setPixel_written`, `exec_setPixel_dropped`,
`exec_setPixel_fault`), and the one that writes FB replaces a single nibble (`writeNibble`). -/
theorem pixelWriteLaws : Obligations.PixelWriteLaws := by
  intro s x y v hwf
  refine ⟨fun hx hy ha => ?_, fun hout => ?_, fun hx hy ha => ?_⟩
  · exact ⟨_, exec_setPixel_written v ⟨hx, hy⟩ ha, wf_writeNibble hwf _ _, nibbleAt_writeNibble_same hwf _ _,
      fun _ => nibbleAt_writeNibble_of_ne hwf _, fun _ => read_writeNibble_of_ne hwf _⟩
  · exact exec_setPixel_dropped v fun ⟨hx, hy⟩ => by omega
  · exact exec_setPixel_fault v ⟨hx, hy⟩ ha

end Sys2Proof.Machine
end

section
/-! ## Proofs: lines. The walk of DRAW_LINE in closed form (R133 to R136), and the degenerate DRAW_AA_LINE (R139). -/

namespace Sys2Proof.Machine

/-- The steps taken along the short axis before column `i` of a walk whose accumulator starts at `err`. -/
def shortSteps (dx dy err i : Int) : Int := -((err - i * dy) / dx)

theorem shortSteps_zero {dx dy err : Int} (h0 : 0 ≤ err) (h1 : err < dx) : shortSteps dx dy err 0 = 0 := by
  simp [shortSteps, Int.ediv_eq_zero_of_lt h0 h1]

/-- A column that keeps the row leaves `err - dy` in the accumulator. -/
theorem shortSteps_succ_of_keep (dx dy err i : Int) :
    shortSteps dx dy err (i + 1) = shortSteps dx dy (err - dy) i := by
  unfold shortSteps
  congr 2
  ring

/-- A column that changes the row refills the accumulator with `dx`. -/
theorem shortSteps_succ_of_step {dx : Int} (hdx : dx ≠ 0) (dy err i : Int) :
    shortSteps dx dy err (i + 1) = 1 + shortSteps dx dy (err - dy + dx) i := by
  have hsplit : err - dy + dx - i * dy = (err - (i + 1) * dy) + 1 * dx := by ring
  rw [shortSteps, shortSteps, hsplit, Int.add_mul_ediv_right _ _ hdx]
  ring

theorem shortSteps_last {dx dy err : Int} (h0 : 0 ≤ err) (h1 : err < dx) : shortSteps dx dy err dx = dy := by
  have hsplit : err - dx * dy = err + dx * -dy := by ring
  rw [shortSteps, hsplit, Int.add_mul_ediv_left _ _ (by omega), Int.ediv_eq_zero_of_lt h0 h1]
  ring

theorem shortSteps_mono {dx dy : Int} (hdx : 0 < dx) (hdy : 0 ≤ dy) (err : Int) {i j : Int} (h : i ≤ j) :
    shortSteps dx dy err i ≤ shortSteps dx dy err j := by
  have hmul : i * dy ≤ j * dy := Int.mul_le_mul_of_nonneg_right h hdy
  have hdiv : (err - j * dy) / dx ≤ (err - i * dy) / dx := Int.ediv_le_ediv hdx (by omega)
  unfold shortSteps
  omega

/-- The loop of R135 in closed form. The accumulator stays in `0 .. dx - 1` at the top of each iteration (R136), so that
`shortSteps` says in which columns the row changes. -/
theorem bresenhamWalk_eq (steep : Bool) {dx dy : Int} (ystep : Int) (hdy : 0 ≤ dy) (hle : dy ≤ dx) (n : Nat)
    (x y err : Int) (h0 : 0 ≤ err) (h1 : err < dx) :
    bresenhamWalk steep dx dy ystep n x y err
      = (List.range n).map fun i : Nat => unTranspose steep (x + i) (y + ystep * shortSteps dx dy err i) := by
  induction n generalizing x y err with
  | zero => rfl
  | succ n ih =>
    rw [bresenhamWalk, List.range_succ_eq_map, List.map_cons, List.map_map]
    congr 1
    · simp [shortSteps_zero h0 h1]
    · split
      · rw [ih _ _ _ (by omega) (by omega)]
        refine List.map_congr_left fun i _ => ?_
        simp only [Function.comp_apply, Nat.cast_succ, shortSteps_succ_of_step (by omega : dx ≠ 0)]
        congr 1 <;> ring
      · rw [ih _ _ _ (by omega) (by omega)]
        refine List.map_congr_left fun i _ => ?_
        simp only [Function.comp_apply, Nat.cast_succ, shortSteps_succ_of_keep]
        congr 1
        ring

/-- `p` lies in the rectangle with opposite corners `a` and `b`. -/
def InRectangle (a b p : Int × Int) : Prop :=
  min a.1 b.1 ≤ p.1 ∧ p.1 ≤ max a.1 b.1 ∧ min a.2 b.2 ≤ p.2 ∧ p.2 ≤ max a.2 b.2

theorem InRectangle.symm {a b p : Int × Int} (h : InRectangle a b p) : InRectangle b a p := by
  obtain ⟨hl, hr, hb, ht⟩ := h
  exact ⟨min_comm a.1 b.1 ▸ hl, max_comm a.1 b.1 ▸ hr, min_comm a.2 b.2 ▸ hb, max_comm a.2 b.2 ▸ ht⟩

namespace Walk

/-- The long extent of a walk. -/
def dx (k : Walk) : Int := k.x1 - k.x0

/-- The short extent of a walk. -/
def dy (k : Walk) : Int := (k.y1 - k.y0).natAbs

/-- The direction of the walk along the short axis (R135). -/
def ystep (k : Walk) : Int := if k.y0 < k.y1 then 1 else -1

/-- Pixel `i` of the walk, un-transposed. -/
def pixel (k : Walk) (i : Nat) : Int × Int :=
  unTranspose k.steep (k.x0 + i) (k.y0 + k.ystep * shortSteps k.dx k.dy (k.dx / 2) i)

/-- What step 1 of `bresenham` establishes (R133): the walk goes along its long axis, in increasing order. -/
structure Ordered (k : Walk) : Prop where
  dx_pos : 0 < k.dx
  dy_le : k.dy ≤ k.dx

theorem dy_nonneg (k : Walk) : 0 ≤ k.dy := Int.natCast_nonneg _

variable {k : Walk}

theorem Ordered.half_lt (h : k.Ordered) : k.dx / 2 < k.dx := by
  have := h.dx_pos
  omega

theorem Ordered.half_nonneg (h : k.Ordered) : 0 ≤ k.dx / 2 := by
  have := h.dx_pos
  omega

theorem Ordered.toNat_dx (h : k.Ordered) : ((k.dx.toNat : Nat) : Int) = k.dx := Int.toNat_of_nonneg h.dx_pos.le

theorem Ordered.pixel_zero (h : k.Ordered) : k.pixel 0 = unTranspose k.steep k.x0 k.y0 := by
  simp [pixel, shortSteps_zero h.half_nonneg h.half_lt]

theorem y0_add_ystep_mul_dy (k : Walk) : k.y0 + k.ystep * k.dy = k.y1 := by
  unfold ystep dy
  split <;> omega

theorem Ordered.pixel_last (h : k.Ordered) : k.pixel k.dx.toNat = unTranspose k.steep k.x1 k.y1 := by
  have hx : k.x0 + k.dx = k.x1 := by simp [dx]
  rw [pixel, h.toNat_dx, shortSteps_last h.half_nonneg h.half_lt, hx, y0_add_ystep_mul_dy]

/-- The row of a pixel lies between the rows of the two ends, since `shortSteps` grows from 0 to `dy`. -/
theorem Ordered.row_between (h : k.Ordered) {i : Nat} (hi : i ≤ k.dx.toNat) :
    min k.y0 k.y1 ≤ k.y0 + k.ystep * shortSteps k.dx k.dy (k.dx / 2) i
      ∧ k.y0 + k.ystep * shortSteps k.dx k.dy (k.dx / 2) i ≤ max k.y0 k.y1 := by
  have hcol : (i : Int) ≤ k.dx := by
    have := h.toNat_dx
    omega
  have hlo := shortSteps_mono h.dx_pos k.dy_nonneg (k.dx / 2) (Int.natCast_nonneg i)
  have hhi := shortSteps_mono h.dx_pos k.dy_nonneg (k.dx / 2) hcol
  rw [shortSteps_zero h.half_nonneg h.half_lt] at hlo
  rw [shortSteps_last h.half_nonneg h.half_lt] at hhi
  have hdy : k.dy = (k.y1 - k.y0).natAbs := rfl
  unfold ystep
  split <;> omega

theorem Ordered.pixel_inRectangle (h : k.Ordered) {i : Nat} (hi : i ≤ k.dx.toNat) :
    InRectangle (unTranspose k.steep k.x0 k.y0) (unTranspose k.steep k.x1 k.y1) (k.pixel i) := by
  obtain ⟨hbot, htop⟩ := h.row_between hi
  have hx : min k.x0 k.x1 ≤ k.x0 + i ∧ k.x0 + i ≤ max k.x0 k.x1 := by
    unfold dx at hi
    omega
  unfold pixel
  cases k.steep
  · exact ⟨hx.1, hx.2, hbot, htop⟩
  · exact ⟨hbot, htop, hx.1, hx.2⟩

end Walk

/-! ## The walk of a line -/

theorem walkOf_steep (x0 y0 x1 y1 : Nat) : (walkOf x0 y0 x1 y1).steep = isSteep x0 y0 x1 y1 := by
  simp only [walkOf, apply_ite Walk.steep, ite_self]

/-- Step 1 of a line that is not steep only orders the endpoints (R133). -/
theorem walkOf_of_flat {x0 y0 x1 y1 : Nat} (h : isSteep x0 y0 x1 y1 = false) :
    walkOf x0 y0 x1 y1 = if x0 > x1 then ⟨false, x1, y1, x0, y0⟩ else ⟨false, x0, y0, x1, y1⟩ := by
  simp [walkOf, h]

/-- Step 1 of a steep line transposes the endpoints and then orders them (R133). -/
theorem walkOf_of_steep {x0 y0 x1 y1 : Nat} (h : isSteep x0 y0 x1 y1 = true) :
    walkOf x0 y0 x1 y1 = if y0 > y1 then ⟨true, y1, x1, y0, x0⟩ else ⟨true, y0, x0, y1, x1⟩ := by
  simp [walkOf, h]

theorem walkOf_x0_le_x1 (x0 y0 x1 y1 : Nat) : (walkOf x0 y0 x1 y1).x0 ≤ (walkOf x0 y0 x1 y1).x1 := by
  cases hs : isSteep x0 y0 x1 y1
  · rw [walkOf_of_flat hs]
    split <;> simp only <;> omega
  · rw [walkOf_of_steep hs]
    split <;> simp only <;> omega

/-- The ends of the walk are the endpoints of the line, in one order or the other. -/
theorem walkOf_ends (x0 y0 x1 y1 : Nat) :
    let k := walkOf x0 y0 x1 y1
    let a : Int × Int := (x0, y0)
    let b : Int × Int := (x1, y1)
    (unTranspose k.steep k.x0 k.y0 = a ∧ unTranspose k.steep k.x1 k.y1 = b)
      ∨ (unTranspose k.steep k.x0 k.y0 = b ∧ unTranspose k.steep k.x1 k.y1 = a) := by
  cases hs : isSteep x0 y0 x1 y1
  · rw [walkOf_of_flat hs]
    split
    · exact .inr ⟨rfl, rfl⟩
    · exact .inl ⟨rfl, rfl⟩
  · rw [walkOf_of_steep hs]
    split
    · exact .inr ⟨rfl, rfl⟩
    · exact .inl ⟨rfl, rfl⟩

/-- The extents of the walk are those of the line, the greater one along the long axis (R134). -/
theorem walkOf_extents (x0 y0 x1 y1 : Nat) :
    (walkOf x0 y0 x1 y1).dx = max ((x1 : Int) - x0).natAbs ((y1 : Int) - y0).natAbs
      ∧ (walkOf x0 y0 x1 y1).dy = min ((x1 : Int) - x0).natAbs ((y1 : Int) - y0).natAbs := by
  have hle := walkOf_x0_le_x1 x0 y0 x1 y1
  have hends := walkOf_ends x0 y0 x1 y1
  unfold Walk.dx Walk.dy
  cases hs : isSteep x0 y0 x1 y1
  · have hflat : ((y1 : Int) - y0).natAbs ≤ ((x1 : Int) - x0).natAbs := by simpa [isSteep] using hs
    simp only [walkOf_steep, hs, unTranspose, Bool.false_eq_true, if_false, Prod.mk.injEq] at hends
    omega
  · have hsteep : ((x1 : Int) - x0).natAbs < ((y1 : Int) - y0).natAbs := by simpa [isSteep] using hs
    simp only [walkOf_steep, hs, unTranspose, if_true, Prod.mk.injEq] at hends
    omega

theorem walkOf_ordered {x0 y0 x1 y1 : Nat} (hx : x0 ≠ x1) : (walkOf x0 y0 x1 y1).Ordered := by
  obtain ⟨hdx, hdy⟩ := walkOf_extents x0 y0 x1 y1
  constructor <;> omega

theorem linePixels_of_vertical (x y0 y1 : Nat) : linePixels x y0 x y1 = vlinePixels x y0 y1 := if_pos rfl

theorem linePixels_of_horizontal {x0 x1 : Nat} (hx : x0 ≠ x1) (y : Nat) :
    linePixels x0 y x1 y = hlinePixels y x0 x1 := by
  simp [linePixels, hx]

section
variable {x0 y0 x1 y1 : Nat} (hx : x0 ≠ x1) (hy : y0 ≠ y1)
include hx hy

/-- The pixels of a line that is neither vertical nor horizontal, one for each column of its walk. -/
theorem linePixels_eq_map_pixel :
    linePixels x0 y0 x1 y1 = (List.range ((walkOf x0 y0 x1 y1).dx.toNat + 1)).map (walkOf x0 y0 x1 y1).pixel := by
  have h := walkOf_ordered (y0 := y0) (y1 := y1) hx
  rw [linePixels, if_neg hx, if_neg hy]
  exact bresenhamWalk_eq _ _ (Walk.dy_nonneg _) h.dy_le _ _ _ _ h.half_nonneg h.half_lt

theorem mem_linePixels {p : Int × Int} : p ∈ linePixels x0 y0 x1 y1
    ↔ ∃ i ≤ (walkOf x0 y0 x1 y1).dx.toNat, (walkOf x0 y0 x1 y1).pixel i = p := by
  simp only [linePixels_eq_map_pixel hx hy, List.mem_map, List.mem_range, Nat.lt_succ_iff]

theorem length_linePixels :
    (linePixels x0 y0 x1 y1).length = max ((x1 : Int) - x0).natAbs ((y1 : Int) - y0).natAbs + 1 := by
  rw [linePixels_eq_map_pixel hx hy, List.length_map, List.length_range, (walkOf_extents ..).1, Int.toNat_natCast]

/-- Different pixels of a walk differ in their long coordinate. -/
theorem nodup_long_coordinate_linePixels :
    ((linePixels x0 y0 x1 y1).map fun p => if isSteep x0 y0 x1 y1 then p.2 else p.1).Nodup := by
  rw [linePixels_eq_map_pixel hx hy, List.map_map]
  refine List.nodup_range.map fun i j hij => ?_
  simp only [Function.comp_apply, Walk.pixel, walkOf_steep, unTranspose] at hij
  cases hs : isSteep x0 y0 x1 y1 <;> simpa [hs] using hij

theorem endpoints_mem_linePixels :
    ((x0 : Int), (y0 : Int)) ∈ linePixels x0 y0 x1 y1 ∧ ((x1 : Int), (y1 : Int)) ∈ linePixels x0 y0 x1 y1 := by
  have h := walkOf_ordered (y0 := y0) (y1 := y1) hx
  have hfirst := (mem_linePixels hx hy).mpr ⟨0, Nat.zero_le _, h.pixel_zero⟩
  have hlast := (mem_linePixels hx hy).mpr ⟨_, Nat.le_refl _, h.pixel_last⟩
  obtain ⟨e0, e1⟩ | ⟨e0, e1⟩ := walkOf_ends x0 y0 x1 y1
  · exact ⟨e0 ▸ hfirst, e1 ▸ hlast⟩
  · exact ⟨e1 ▸ hlast, e0 ▸ hfirst⟩

theorem inRectangle_of_mem_linePixels {p : Int × Int} (hp : p ∈ linePixels x0 y0 x1 y1) :
    InRectangle (x0, y0) (x1, y1) p := by
  obtain ⟨i, hi, rfl⟩ := (mem_linePixels hx hy).mp hp
  have hin := (walkOf_ordered hx).pixel_inRectangle hi
  obtain ⟨e0, e1⟩ | ⟨e0, e1⟩ := walkOf_ends x0 y0 x1 y1 <;> rw [e0, e1] at hin
  · exact hin
  · exact hin.symm

end

theorem exec_drawLine (x0 y0 x1 y1 : Coord) (v : Byte) (s : State) :
    exec (.drawLine x0 y0 x1 y1 v) s
      = finish (plotAll (linePixels x0.toNat y0.toNat x1.toNat y1.toNat) v) s := rfl

/-- Settles O35: the pixels of the walk are one for each of its columns, in closed form (`linePixels_eq_map_pixel`). -/
theorem lineWalkShape : Obligations.LineWalkShape := by
  rintro x0 y0 x1 y1 walk hxc hyc rfl
  have hx : x0.toNat ≠ x1.toNat := BitVec.toNat_ne_iff_ne.mpr hxc
  have hy : y0.toNat ≠ y1.toNat := BitVec.toNat_ne_iff_ne.mpr hyc
  obtain ⟨hfirst, hlast⟩ := endpoints_mem_linePixels hx hy
  refine ⟨fun s v => exec_drawLine x0 y0 x1 y1 v s, length_linePixels hx hy, ?_, hfirst, hlast, fun p hp => ?_⟩
  · have hnodup := nodup_long_coordinate_linePixels hx hy
    split_ifs with hs <;> simpa [isSteep, hs] using hnodup
  · simpa only [InRectangle, Nat.cast_min, Nat.cast_max] using inRectangle_of_mem_linePixels hx hy hp

/-! ## The degenerate antialiased line -/

/-- Without `HAS_AA_LINE` the opcode is illegal (R86). -/
theorem exec_drawAaLine_illegal {s : State} (h : s.cfg.hasAaLine = false) (x0 y0 x1 y1 : Coord) (v : Byte) :
    exec (.drawAaLine x0 y0 x1 y1 v) s = .next (complete .errIllegal s) :=
  if_neg (by simp [h])

theorem exec_drawAaLine_vertical {s : State} (h : s.cfg.hasAaLine = true) (x y0 y1 : Coord) (v : Byte) :
    exec (.drawAaLine x y0 x y1 v) s = finish (plotAll (vlinePixels x.toNat y0.toNat y1.toNat) v) s :=
  (if_pos h).trans (if_pos rfl)

theorem exec_drawAaLine_horizontal {s : State} (h : s.cfg.hasAaLine = true) {x0 x1 : Coord} (hx : x0 ≠ x1) (y : Coord)
    (v : Byte) : exec (.drawAaLine x0 y x1 y v) s = finish (plotAll (hlinePixels y.toNat x0.toNat x1.toNat) v) s :=
  (if_pos h).trans ((if_neg hx).trans (if_pos rfl))

/-- Settles O37: both operations delegate a degenerate line to the same straight one, vertical before horizontal
(R132, R139). -/
theorem antialiasedLineOptionalAndDegenerate : Obligations.AntialiasedLineOptionalAndDegenerate := by
  intro s x0 y0 x1 y1 v
  refine ⟨fun hno => exec_drawAaLine_illegal hno x0 y0 x1 y1 v, fun haa hdeg => ?_⟩
  by_cases hx : x0 = x1
  · subst hx
    rw [exec_drawAaLine_vertical haa, exec_drawLine, linePixels_of_vertical]
  · obtain rfl := hdeg.resolve_left hx
    rw [exec_drawAaLine_horizontal haa hx, exec_drawLine, linePixels_of_horizontal (BitVec.toNat_ne_iff_ne.mpr hx)]

end Sys2Proof.Machine
end

section
/-! ## Proofs: drawing. What an operation that is a list of pixel writes does to FB (R112, R253), and DRAW_RECT_FILLED
(R151, R152). -/

namespace Sys2Proof.Machine

open Sys2Proof.Statement

theorem mem_of_lastLevel {l : List LevelPixel} {x y : Nat} {b : Nibble} (h : lastLevel l x y b) :
    (((x : Int), (y : Int)), b) ∈ l := by
  obtain ⟨before, after, rfl, -⟩ := h
  simp

theorem highNibble_append_lowNibble (b : Byte) : highNibble b ++ lowNibble b = b :=
  (BitVec.extractLsb'_append_extractLsb'_eq_extractLsb' rfl).trans BitVec.extractLsb'_eq_self

theorem read_eq_of_nibbleAt_eq {m m' : Memory} {a : Nat} (hlow : nibbleAt m (2 * a) = nibbleAt m' (2 * a))
    (hhigh : nibbleAt m (2 * a + 1) = nibbleAt m' (2 * a + 1)) : m.read a = m'.read a := by
  have heven : 2 * a / 2 = a := by omega
  have hodd : (2 * a + 1) / 2 = a := by omega
  simp only [nibbleAt, getNibble, heven, Nat.mul_mod_right, if_true] at hlow
  simp only [nibbleAt, getNibble, hodd, Nat.mul_add_mod, Nat.one_mod, one_ne_zero, if_false] at hhigh
  rw [← highNibble_append_lowNibble (m.read a), hhigh, hlow, highNibble_append_lowNibble]

/-- A byte that no written pixel lies in stays as it was. -/
theorem paintedBy.read_eq {s : State} {l : List LevelPixel} {m : Memory} (h : paintedBy s l m) {a : Nat}
    (ha : ∀ x y b, inFrame s x y → (((x : Int), (y : Int)), b) ∈ l → pixelAddress s.w x y ≠ a) :
    m.read a = s.fb.read a := by
  obtain ⟨-, -, hrest⟩ := h
  have hkept : ∀ n, n / 2 = a → nibbleAt m n = nibbleAt s.fb n := fun n hn =>
    hrest n fun x y b hf hb he => ha x y b hf hb (by rw [pixelAddress, he, hn])
  exact read_eq_of_nibbleAt_eq (hkept _ (by omega)) (hkept _ (by omega))

/-- The levels `lv` are what the writes of `l` leave: each write puts its pixel at its level in `lv`, and each level of
`lv` is the last one written to its pixel. -/
structure Leaves (l : List LevelPixel) (lv : Nat → Nat → Nibble → Prop) : Prop where
  level_of_mem : ∀ {x y : Nat} {b}, (((x : Int), (y : Int)), b) ∈ l → lv x y b
  lastLevel_of_level : ∀ {x y b}, lv x y b → lastLevel l x y b

section
variable {l : List LevelPixel} {lv : Nat → Nat → Nibble → Prop} (h : Leaves l lv)
include h

theorem Leaves.mem_of_level {x y : Nat} {b : Nibble} (hlv : lv x y b) : (((x : Int), (y : Int)), b) ∈ l :=
  mem_of_lastLevel (h.lastLevel_of_level hlv)

theorem Leaves.pixelsInFb_iff (s : State) : pixelsInFb s lv ↔ bytesExist s l :=
  ⟨fun hfb x y b hf hb => hfb x y b hf (h.level_of_mem hb), fun hl x y b hf hlv => hl x y b hf (h.mem_of_level hlv)⟩

variable {i : Instr} {s : State} (hs : s.fb.wf = true) (hexec : exec i s = finish (plotLevels l) s)
include hs hexec

theorem writesPixels_of_plotLevels (hl : bytesExist s l) : WritesPixels i s lv (drawn s) := by
  obtain ⟨m, hrun, hm⟩ := plotLevels_ok hs hl
  have ⟨hwf, hlast, hrest⟩ := hm
  refine ⟨m, hexec.trans (finish_ok hrun), hwf, fun x y b hf hlv => ?_, fun n hn => ?_, fun a ha => ?_⟩
  · exact hlast x y b hf (h.lastLevel_of_level hlv)
  · exact hrest n fun x y b hf hb => hn x y b hf (h.level_of_mem hb)
  · exact hm.read_eq fun x y b hf hb => ha x y b hf (h.level_of_mem hb)

theorem storageFaults_of_plotLevels (hwrites : pixelWrites i s = l) (hl : ¬ bytesExist s l) :
    StorageFaults i s lv := by
  obtain ⟨done, hstop⟩ := (reaches_cases s l).resolve_left hl
  obtain ⟨m, hrun, hm⟩ := plotLevels_stops hs hstop
  have hdone : ∀ p ∈ done, p ∈ l := by
    obtain ⟨x, y, b, rest, rfl, -⟩ := hstop
    exact fun p hp => List.mem_append_left _ hp
  refine ⟨m, done, hexec.trans (finish_ended hrun), hwrites ▸ hstop, hm, fun x y b _ hb => ?_, fun a ha => ?_⟩
  · exact h.level_of_mem (hdone _ hb)
  · exact hm.read_eq fun x y b hf hb => ha x y b hf (h.level_of_mem (hdone _ hb))

/-- The rule of every operation that is its list of pixel writes and nothing else. -/
theorem paintsOrFaults_of_plotLevels (hwrites : pixelWrites i s = l) : PaintsOrFaults i s lv (drawn s) := by
  rw [PaintsOrFaults, h.pixelsInFb_iff]
  exact ⟨writesPixels_of_plotLevels h hs hexec, storageFaults_of_plotLevels h hs hexec hwrites⟩

end

/-! ## One brightness -/

theorem mem_flatLevels {ps : List (Int × Int)} {v : Byte} {p : Int × Int} {b : Nibble} :
    (p, b) ∈ flatLevels ps v ↔ p ∈ ps ∧ b = lowNibble v := by
  simp only [flatLevels, List.mem_map, Prod.mk.injEq]
  exact ⟨fun ⟨_, hq, hp, hb⟩ => ⟨hp ▸ hq, hb.symm⟩, fun ⟨hp, hb⟩ => ⟨p, hp, rfl, hb.symm⟩⟩

/-- Where all writes carry one level, the last one to a pixel is any one to it. -/
theorem leaves_flatLevels {ps : List (Int × Int)} {lit : Nat → Nat → Prop}
    (hlit : ∀ x y : Nat, ((x : Int), (y : Int)) ∈ ps ↔ lit x y) (v : Byte) : Leaves (flatLevels ps v) (flat lit v) where
  level_of_mem hb := by
    obtain ⟨hp, hv⟩ := mem_flatLevels.mp hb
    exact ⟨(hlit _ _).mp hp, hv⟩
  lastLevel_of_level := by
    rintro x y b ⟨hp, rfl⟩
    obtain ⟨b, hb⟩ := written_lastLevel ⟨lowNibble v, mem_flatLevels.mpr ⟨(hlit x y).mpr hp, rfl⟩⟩
    obtain ⟨-, rfl⟩ := mem_flatLevels.mp (mem_of_lastLevel hb)
    exact hb

/-- The rule of an operation that writes a list of pixels with one brightness. -/
theorem paintsOrFaults_of_plotAll {i : Instr} {s : State} {ps : List (Int × Int)} {v : Byte} {lit : Nat → Nat → Prop}
    (hs : s.fb.wf = true) (hexec : exec i s = finish (plotAll ps v) s) (hwrites : pixelWrites i s = flatLevels ps v)
    (hlit : ∀ x y : Nat, ((x : Int), (y : Int)) ∈ ps ↔ lit x y) : PaintsOrFaults i s (flat lit v) (drawn s) :=
  have hplot : plotAll ps v = plotLevels (flatLevels ps v) := funext (plotAll_eq ps v)
  paintsOrFaults_of_plotLevels (leaves_flatLevels hlit v) hs (hplot ▸ hexec) hwrites

/-! ## The filled rectangle -/

theorem exec_drawRectFilled (x0 y0 x1 y1 : Coord) (v : Byte) (s : State) :
    exec (.drawRectFilled x0 y0 x1 y1 v) s
      = finish (plotAll (filledPixels x0.toNat y0.toNat x1.toNat y1.toNat) v) s := rfl

/-- An inclusive loop from a larger to a smaller bound has no iteration (R10). -/
theorem upTo_eq_nil {lo hi : Nat} (h : hi < lo) : upTo lo hi = [] := by
  rw [upTo, Nat.sub_eq_zero_of_le h, List.range'_zero]

/-- R152: reversed corners make no pixel. -/
theorem filledPixels_eq_nil {x0 y0 x1 y1 : Nat} (h : x1 < x0 ∨ y1 < y0) : filledPixels x0 y0 x1 y1 = [] := by
  rcases h with hx | hy
  · simp [filledPixels, upTo_eq_nil hx]
  · simp [filledPixels, upTo_eq_nil hy]

/-- Settles O40: the operation is the writes of `filledPixels` with one brightness (`paintsOrFaults_of_plotAll`), which
are the inclusive rectangle (`mem_filledPixels`), or none for reversed corners (`filledPixels_eq_nil`). -/
theorem filledRectangleFills : Obligations.FilledRectangleFills := by
  intro s x0 y0 x1 y1 v hs
  refine ⟨?_, fun hrev => ?_⟩
  · exact paintsOrFaults_of_plotAll hs (exec_drawRectFilled x0 y0 x1 y1 v s) rfl fun _ _ => mem_filledPixels
  · rw [exec_drawRectFilled, filledPixels_eq_nil hrev]
    exact finish_ok rfl

end Sys2Proof.Machine
end

section
/-! ## Proofs: text. DRAW_CHAR and DRAW_TEXT with no font selected (R181). -/

namespace Sys2Proof.Machine

/-- `draw_char` with no font selected advances by nothing and changes nothing (R181). -/
theorem drawCharOp_of_noFont {s : State} (hfont : s.fontValid = false) (c : Byte) (x y : Int) (v : Byte) :
    drawCharOp c x y v s = .ok 0 s := by
  rw [drawCharOp, get_bind_apply, hfont]
  rfl

/-- DRAW_CHAR with no font selected only completes (R181). -/
theorem exec_drawChar_of_noFont {s : State} (hfont : s.fontValid = false) (c : Byte) (x y : Coord) (v : Byte) :
    exec (.drawChar c x y v) s = .next (complete .ok s) :=
  finish_ok (bind_ok (drawCharOp_of_noFont hfont c x.toNat y.toNat v))

/-- DRAW_TEXT with no font selected completes before its string is looked at (R181). -/
theorem exec_drawText_of_noFont {s : State} (hfont : s.fontValid = false) (p : Word32) (x y : Coord) (v : Byte) :
    exec (.drawText p x y v) s = .next (complete .ok s) := by
  show execDrawText p x y v s = _
  rw [execDrawText, hfont]
  exact if_neg Bool.false_ne_true

/-- Settles O47: with no font selected, both operations only complete (`exec_drawChar_of_noFont`,
`exec_drawText_of_noFont`). -/
theorem noFontDrawsNothing : Obligations.NoFontDrawsNothing := by
  intro s c x y v p hfont
  exact ⟨exec_drawChar_of_noFont hfont c x y v, exec_drawText_of_noFont hfont p x y v⟩

end Sys2Proof.Machine
end

section
/-! ## Proofs: the display registers. `PSTATE` and `MODE` gate nothing (R207): two runs of a piece of pseudocode that
start alike but for these two registers end alike but for them, and so do two runs of an operation. -/

namespace Sys2Proof.Machine

open Sys2Proof.Statement

/-- The state with other values in `PSTATE` and `MODE`. -/
def withDisplay (p : PState) (q : Mode) (s : State) : State := { s with pstate := p, mode := q }

/-- Two runs of a piece of pseudocode end the same way, in states that are the same but for `PSTATE` and `MODE`. -/
inductive EndsAlike {α : Type} : EStateM.Result Stop State α → EStateM.Result Stop State α → Prop
  | ok {a : α} {t u : State} (h : sameButDisplay t u) : EndsAlike (.ok a t) (.ok a u)
  | error {e : Stop} {t u : State} (h : sameButDisplay t u) : EndsAlike (.error e t) (.error e u)

/-- A piece of pseudocode whose end, but for `PSTATE` and `MODE`, does not depend on these two registers. -/
def IgnoresDisplay {α : Type} (m : Op α) : Prop :=
  ∀ s p q, EndsAlike (m s) (m (withDisplay p q s))

/-- Two runs of an operation answer the same, but for `PSTATE` and `MODE` of the next state. -/
inductive AnswersAlike : Host.Outcome State Fault Refusal → Host.Outcome State Fault Refusal → Prop
  | next {t u : State} (h : sameButDisplay t u) : AnswersAlike (.next t) (.next u)
  | refused (r : Refusal) : AnswersAlike (.refused r) (.refused r)

theorem AnswersAlike.of_next {t : State} {o : Host.Outcome State Fault Refusal} (h : AnswersAlike (.next t) o) :
    ∃ u, o = .next u ∧ sameButDisplay t u := by
  cases h with
  | next h => exact ⟨_, rfl, h⟩

theorem AnswersAlike.of_refused {r : Refusal} {o : Host.Outcome State Fault Refusal}
    (h : AnswersAlike (.refused r) o) : o = .refused r := by
  cases h with
  | refused => rfl

/-- A branch taken by both runs relates what it relates on either side. -/
theorem ite_alike {α : Type} (R : α → α → Prop) {c : Prop} [Decidable c] {a a' b b' : α} (hpos : R a a')
    (hneg : R b b') : R (if c then a else b) (if c then a' else b') := by
  split
  · exact hpos
  · exact hneg

/-! ## Composition -/

theorem IgnoresDisplay.pure {α : Type} (a : α) : IgnoresDisplay (pure a : Op α) := fun _ _ _ => .ok rfl

theorem IgnoresDisplay.bind {α β : Type} {m : Op α} {f : α → Op β} (hm : IgnoresDisplay m)
    (hf : ∀ a, IgnoresDisplay (f a)) : IgnoresDisplay (m >>= f) := by
  intro s p q
  rw [bind_apply, bind_apply]
  have hends := hm s p q
  generalize m s = r at hends ⊢
  generalize m (withDisplay p q s) = r' at hends ⊢
  cases hends with
  | @ok a t u h =>
    rw [h]
    exact hf a t u.pstate u.mode
  | error h => exact .error h

/-- A piece that looks at the state, where what follows is chosen without `PSTATE` and `MODE`. -/
theorem IgnoresDisplay.get_bind {β : Type} {f : State → Op β} (hsame : ∀ s p q, f (withDisplay p q s) = f s)
    (hf : ∀ s, IgnoresDisplay (f s)) : IgnoresDisplay ((get : Op State) >>= f) := by
  intro s p q
  rw [get_bind_apply, get_bind_apply, hsame]
  exact hf s s p q

theorem IgnoresDisplay.forEach {α : Type} (l : List α) {f : α → Op Unit} (hf : ∀ a, IgnoresDisplay (f a)) :
    IgnoresDisplay (forEach l f) := by
  induction l with
  | nil => exact .pure ()
  | cons a l ih => exact .bind (hf a) fun _ => ih

/-- A whole operation made of such a piece. -/
theorem IgnoresDisplay.finish_alike {m : Op Unit} (hm : IgnoresDisplay m) (s : State) (p : PState) (q : Mode) :
    AnswersAlike (finish m s) (finish m (withDisplay p q s)) := by
  have hends := hm s p q
  unfold finish
  generalize m s = r at hends ⊢
  generalize m (withDisplay p q s) = r' at hends ⊢
  cases hends with
  | ok h =>
    rw [h]
    exact .next rfl
  | @error e _ _ h =>
    cases e with
    | ended => exact .next h
    | refused r => exact .refused r

theorem endWith_ignoresDisplay {α : Type} (code : StatusCode) : IgnoresDisplay (endWith code : Op α) :=
  fun _ _ _ => .error rfl

theorem refuse_ignoresDisplay {α : Type} (r : Refusal) : IgnoresDisplay (refuse r : Op α) := fun _ _ _ => .error rfl

theorem raiseFault_ignoresDisplay {α : Type} (cause : Cause) : IgnoresDisplay (raiseFault cause : Op α) :=
  fun _ _ _ => .error rfl

theorem setPState_ignoresDisplay (p : PState) : IgnoresDisplay (setPState p) := fun _ _ _ => .ok rfl

theorem setModeReg_ignoresDisplay (m : Mode) : IgnoresDisplay (setModeReg m) := fun _ _ _ => .ok rfl

/-! ## The three memories -/

theorem fbRead_ignoresDisplay (a : Nat) : IgnoresDisplay (fbRead a) :=
  fun _ _ _ => ite_alike EndsAlike (.ok rfl) (.error rfl)

theorem fbWrite_ignoresDisplay (a : Nat) (v : Byte) : IgnoresDisplay (fbWrite a v) :=
  fun _ _ _ => ite_alike EndsAlike (.ok rfl) (.error rfl)

theorem fbFill_ignoresDisplay (n : Nat) (v : Byte) : IgnoresDisplay (fbFill n v) :=
  fun _ _ _ => ite_alike EndsAlike (.ok rfl) (.error rfl)

theorem fbReadOut_ignoresDisplay (p n : Nat) : IgnoresDisplay (fbReadOut p n) :=
  fun _ _ _ => ite_alike EndsAlike (.ok rfl) (.error rfl)

theorem assetRead_ignoresDisplay (a : Nat) : IgnoresDisplay (assetRead a) := by
  intro s p q
  cases hb : s.cfg.asset[a]? with
  | some b =>
    rw [assetRead_ok hb, assetRead_ok (s := withDisplay p q s) hb]
    exact .ok rfl
  | none =>
    rw [assetRead_fault hb, assetRead_fault (s := withDisplay p q s) hb]
    exact .error rfl

theorem assetReadOut_ignoresDisplay (n a : Nat) : IgnoresDisplay (assetReadOut n a) := by
  induction n generalizing a with
  | zero => exact .pure []
  | succ n ih => exact .bind (assetRead_ignoresDisplay a) fun _ => .bind (ih _) fun _ => .pure _

theorem fontByte_ignoresDisplay (f : Font) (i : Nat) : IgnoresDisplay (fontByte f i) := by
  intro s p q
  unfold fontByte
  cases f.bitmap[i]? with
  | some b => exact .ok rfl
  | none => exact .error rfl

/-! ## Pixels, blits and text -/

theorem setPixel_ignoresDisplay (x y : Nat) (v : Byte) : IgnoresDisplay (setPixel x y v) := by
  refine .get_bind (fun _ _ _ => rfl) fun s => ?_
  split
  · exact .pure ()
  · exact .bind (fbRead_ignoresDisplay _) fun _ => fbWrite_ignoresDisplay _ _

theorem plot_ignoresDisplay (x y : Int) (v : Byte) : IgnoresDisplay (plot x y v) := by
  unfold plot
  split
  · exact .pure ()
  · exact setPixel_ignoresDisplay _ _ v

theorem plotAll_ignoresDisplay (ps : List (Int × Int)) (v : Byte) : IgnoresDisplay (plotAll ps v) :=
  .forEach ps fun _ => plot_ignoresDisplay _ _ v

/-- `AA_LINE_FN` reads no register but W and H (R140 (f)). -/
theorem aaLine_ignoresDisplay (x0 y0 x1 y1 : Nat) (b : Nibble) : IgnoresDisplay (aaLine x0 y0 x1 y1 b) :=
  .get_bind (fun _ _ _ => rfl) fun _ => .forEach _ fun _ => plot_ignoresDisplay _ _ _

theorem blit8Pixel_ignoresDisplay (x0 y0 w p : Nat) (ji : Nat × Nat) : IgnoresDisplay (blit8Pixel x0 y0 w p ji) :=
  .bind (assetRead_ignoresDisplay _) fun _ => setPixel_ignoresDisplay _ _ _

theorem blit4Pixel_ignoresDisplay (x0 y0 w p : Nat) (ji : Nat × Nat) : IgnoresDisplay (blit4Pixel x0 y0 w p ji) :=
  .bind (assetRead_ignoresDisplay _) fun _ => setPixel_ignoresDisplay _ _ _

theorem drawGlyph_ignoresDisplay (f : Font) (g : Glyph) (x y : Int) (v : Byte) :
    IgnoresDisplay (drawGlyph f g x y v) := by
  refine .forEach _ fun rc => .bind (fontByte_ignoresDisplay f _) fun b => ?_
  split
  · exact plot_ignoresDisplay _ _ v
  · exact .pure ()

theorem drawCharOp_ignoresDisplay (c : Byte) (x y : Int) (v : Byte) : IgnoresDisplay (drawCharOp c x y v) := by
  refine .get_bind (fun _ _ _ => rfl) fun s => ?_
  split
  · split
    · exact refuse_ignoresDisplay _
    · split
      · exact .pure 0
      · split
        · exact refuse_ignoresDisplay _
        · exact .bind (drawGlyph_ignoresDisplay _ _ x y v) fun _ => .pure _
  · exact .pure 0

theorem drawString_ignoresDisplay (l : List Byte) (x y : Int) (v : Byte) : IgnoresDisplay (drawString l x y v) := by
  induction l generalizing x with
  | nil => exact raiseFault_ignoresDisplay _
  | cons c l ih =>
    unfold drawString
    split
    · exact .pure ()
    · exact .bind (drawCharOp_ignoresDisplay c x y v) fun _ => ih _

/-! ## The wire -/

theorem emitted_withDisplay (e : TransportEvent) (p : PState) (q : Mode) (s : State) :
    emitted e (withDisplay p q s) = withDisplay p q (emitted e s) := by
  cases e <;> rfl

theorem emit_ignoresDisplay (e : TransportEvent) : IgnoresDisplay (emit e) := by
  intro s p q
  unfold emit
  rw [emitted_withDisplay]
  exact .ok rfl

/-- A failed transmit overwrites both registers with values drawn without them (R203). -/
theorem tx_ignoresDisplay (e : TransportEvent) : IgnoresDisplay (tx e) := by
  intro s p q
  unfold tx
  rw [emitted_withDisplay]
  exact ite_alike EndsAlike (.ok rfl) (.error rfl)

theorem sendFraming_ignoresDisplay (f : Framing) : IgnoresDisplay (sendFraming f) :=
  .bind (emit_ignoresDisplay _) fun _ => .bind (emit_ignoresDisplay _) fun _ =>
    .bind (tx_ignoresDisplay f.2) fun _ => emit_ignoresDisplay _

theorem sendCmd_ignoresDisplay (c : Byte) : IgnoresDisplay (sendCmd c) := sendFraming_ignoresDisplay (cmdFraming c)

theorem sendDat_ignoresDisplay (d : Byte) : IgnoresDisplay (sendDat d) := sendFraming_ignoresDisplay (datFraming d)

theorem sendInitItem_ignoresDisplay (i : InitItem) : IgnoresDisplay (sendInitItem i) := by
  unfold sendInitItem
  split
  · exact sendDat_ignoresDisplay _
  · exact sendCmd_ignoresDisplay _

theorem initSequence_ignoresDisplay (c : Config) : IgnoresDisplay (initSequence c) := by
  refine .bind (setPState_ignoresDisplay _) fun _ => ?_
  refine .bind (emit_ignoresDisplay _) fun _ => .bind (emit_ignoresDisplay _) fun _ => ?_
  refine .bind (emit_ignoresDisplay _) fun _ => .bind (emit_ignoresDisplay _) fun _ => ?_
  refine .bind (.forEach _ sendInitItem_ignoresDisplay) fun _ => ?_
  refine .bind (setModeReg_ignoresDisplay _) fun _ => .bind (emit_ignoresDisplay _) fun _ => ?_
  refine .bind (sendCmd_ignoresDisplay _) fun _ => ?_
  exact .bind (setPState_ignoresDisplay _) fun _ => emit_ignoresDisplay _

theorem windowSequence_ignoresDisplay (sc ec sr er : Byte) : IgnoresDisplay (windowSequence sc ec sr er) := by
  rw [windowSequence_eq]
  exact .forEach _ sendFraming_ignoresDisplay

theorem transferSequence_ignoresDisplay (c : Config) (p n : Nat) : IgnoresDisplay (transferSequence c p n) :=
  .bind (sendCmd_ignoresDisplay _) fun _ => .bind (fbReadOut_ignoresDisplay p n) fun data =>
    sendFraming_ignoresDisplay (bulkFraming data n)

theorem uploadTable_ignoresDisplay (c : Config) (t : List Byte) : IgnoresDisplay (uploadTable c t) := by
  unfold uploadTable
  split
  · exact endWith_ignoresDisplay _
  · exact .bind (sendCmd_ignoresDisplay _) fun _ => .bind (.forEach t sendDat_ignoresDisplay) fun _ =>
      sendCmd_ignoresDisplay _

/-! ## Whole operations -/

theorem exec_answersAlike (i : Instr) (s : State) (p : PState) (q : Mode) :
    AnswersAlike (exec i s) (exec i (withDisplay p q s)) := by
  cases i with
  | configure width height => exact .next rfl
  | clear v => exact (fbFill_ignoresDisplay _ _).finish_alike s p q
  | setPixel x y v => exact (setPixel_ignoresDisplay _ _ v).finish_alike s p q
  | drawVLine | drawHLine | drawLine | drawRect | drawRectFilled | drawCircle =>
    exact (plotAll_ignoresDisplay _ _).finish_alike s p q
  | drawAaLine x0 y0 x1 y1 v =>
    refine ite_alike AnswersAlike ?_ (.next rfl)
    refine ite_alike AnswersAlike ((plotAll_ignoresDisplay _ v).finish_alike s p q) ?_
    exact ite_alike AnswersAlike ((plotAll_ignoresDisplay _ v).finish_alike s p q)
      ((aaLine_ignoresDisplay _ _ _ _ _).finish_alike s p q)
  | drawBitmap8bpp x0 y0 w h a =>
    exact (IgnoresDisplay.forEach _ (blit8Pixel_ignoresDisplay _ _ _ _)).finish_alike s p q
  | drawBitmap4bpp x0 y0 w h a =>
    exact (IgnoresDisplay.forEach _ (blit4Pixel_ignoresDisplay _ _ _ _)).finish_alike s p q
  | selectFont a => exact ite_alike AnswersAlike (.next rfl) (.next rfl)
  | drawChar c x y v =>
    exact (IgnoresDisplay.bind (drawCharOp_ignoresDisplay c _ _ v) fun _ => .pure ()).finish_alike s p q
  | drawText a x y v =>
    exact ite_alike AnswersAlike ((drawString_ignoresDisplay _ _ _ v).finish_alike s p q) (.next rfl)
  | sendCommand v => exact (sendCmd_ignoresDisplay v).finish_alike s p q
  | sendData v => exact (sendDat_ignoresDisplay v).finish_alike s p q
  | initDisplay => exact (initSequence_ignoresDisplay _).finish_alike s p q
  | setMode m =>
    exact (IgnoresDisplay.bind (sendCmd_ignoresDisplay _) fun _ => setModeReg_ignoresDisplay _).finish_alike s p q
  | sleepOn | sleepOff =>
    exact (IgnoresDisplay.bind (sendCmd_ignoresDisplay _) fun _ => setPState_ignoresDisplay _).finish_alike s p q
  | setContrast | setBrightness =>
    exact (IgnoresDisplay.bind (sendCmd_ignoresDisplay _) fun _ => sendDat_ignoresDisplay _).finish_alike s p q
  | uploadGrayscale a =>
    exact (IgnoresDisplay.bind (assetReadOut_ignoresDisplay 16 _) (uploadTable_ignoresDisplay _)).finish_alike s p q
  | resetGrayscale => exact (sendCmd_ignoresDisplay _).finish_alike s p q
  | setWindow sc ec sr er => exact (windowSequence_ignoresDisplay sc ec sr er).finish_alike s p q
  | transfer a n => exact (transferSequence_ignoresDisplay _ _ _).finish_alike s p q
  | push ox oy =>
    exact (IgnoresDisplay.bind (windowSequence_ignoresDisplay _ _ _ _) fun _ =>
      transferSequence_ignoresDisplay _ _ _).finish_alike s p q

/-- Settles O26: every operation is built of pieces that ignore the two registers (`exec_answersAlike`); even a failed
transmit only overwrites them (`tx_ignoresDisplay`). -/
theorem displayStateGatesNothing : Obligations.DisplayStateGatesNothing := by
  intro i s p m
  have halike := exec_answersAlike i s p m
  refine ⟨fun t ht => ?_, fun r hr => ?_⟩
  · rw [ht] at halike
    exact halike.of_next
  · rw [hr] at halike
    exact halike.of_refused

end Sys2Proof.Machine
end

section
/-! ## Proofs: encoding. Decoding is the inverse of encoding (R81, R84, R85), goes by the opcode alone (R86, R87), and
reads no bit outside an operation's format (R83). -/

namespace Sys2Proof

open Sys2Proof.Statement

theorem fieldC_packFields (op v : Byte) (a b : Coord) (dc p : Word32) :
    fieldC (packFields op v a b dc p) = dc.extractLsb' 0 16 := by
  rw [fieldC_eq, fieldN_packFields]

theorem fieldD_packFields (op v : Byte) (a b : Coord) (dc p : Word32) :
    fieldD (packFields op v a b dc p) = dc.extractLsb' 16 16 := by
  rw [fieldD_eq, fieldN_packFields]

/-- A field widened with zeros holds what it held. -/
theorem extractLsb'_setWidth_self {w n : Nat} (h : w ≤ n) (x : BitVec w) : (x.setWidth n).extractLsb' 0 w = x := by
  apply BitVec.eq_of_getLsbD_eq
  intro i hi
  rw [BitVec.getLsbD_extractLsb', BitVec.getLsbD_setWidth, Nat.zero_add]
  simp [hi, Nat.lt_of_lt_of_le hi h]

theorem lowByte_setWidth (x : Byte) : lowByte (x.setWidth 16) = x := extractLsb'_setWidth_self (by decide) x

theorem lowByte_extractLsb'_setWidth (x : Byte) : lowByte ((x.setWidth 32).extractLsb' 0 16) = x := by
  simpa [lowByte] using extractLsb'_setWidth_self (n := 32) (by decide) x

/-- Settles O1: the opcode of the descriptor picks the operation's own arm of the decoder, and each field that arm reads
is the one the encoder packed. -/
theorem decodeEncodeRoundTrip : Obligations.DecodeEncodeRoundTrip := by
  intro i
  cases i <;>
    simp only [encode, decode, Instr.opcode, BitVec.reduceToNat, fieldOp_packFields, fieldV_packFields,
      fieldA_packFields, fieldB_packFields, fieldC_packFields, fieldD_packFields, fieldN_packFields, fieldP_packFields,
      BitVec.extractLsb'_append_eq_left, BitVec.extractLsb'_append_eq_right, extractLsb'_setWidth_self,
      Nat.reduceLeDiff, lowByte_setWidth, lowByte_extractLsb'_setWidth]

/-! ## The opcode -/

/-- Decoding answers an operation, or rejects an opcode that is not in the table (R86). -/
theorem decode_cases (d : Descriptor) :
    (∃ i, decode d = .ok i) ∨ (decode d = .error (.illegalOpcode (fieldOp d)) ∧ fieldOp d ∉ opcodes) := by
  simp only [decode]
  split
  case h_29 =>
    refine .inr ⟨rfl, fun hmem => ?_⟩
    simp_all [opcodes, ← BitVec.toNat_inj]
  all_goals exact .inl ⟨_, rfl⟩

/-- Settles O3: what decodes has the descriptor's opcode (`opcode_of_decode`), and what does not has none of the table
(`decode_cases`). -/
theorem opcodeAloneSelectsTheOperation : Obligations.OpcodeAloneSelectsTheOperation := by
  intro d
  rcases decode_cases d with ⟨i, hi⟩ | ⟨herr, hno⟩
  · have hop := opcode_of_decode hi
    exact ⟨fun _ => ⟨i, hi, hop⟩, fun hno => absurd (hop ▸ Laws.OpcodeByte.opcode_mem i) hno⟩
  · exact ⟨fun hmem => absurd hmem hno, fun _ => herr⟩

/-! ## The bits a format reads -/

theorem fieldOp_and (d m : Descriptor) : fieldOp (d &&& m) = fieldOp d &&& fieldOp m := BitVec.extractLsb'_and ..
theorem fieldV_and (d m : Descriptor) : fieldV (d &&& m) = fieldV d &&& fieldV m := BitVec.extractLsb'_and ..
theorem fieldA_and (d m : Descriptor) : fieldA (d &&& m) = fieldA d &&& fieldA m := BitVec.extractLsb'_and ..
theorem fieldB_and (d m : Descriptor) : fieldB (d &&& m) = fieldB d &&& fieldB m := BitVec.extractLsb'_and ..
theorem fieldC_and (d m : Descriptor) : fieldC (d &&& m) = fieldC d &&& fieldC m := BitVec.extractLsb'_and ..
theorem fieldD_and (d m : Descriptor) : fieldD (d &&& m) = fieldD d &&& fieldD m := BitVec.extractLsb'_and ..
theorem fieldN_and (d m : Descriptor) : fieldN (d &&& m) = fieldN d &&& fieldN m := BitVec.extractLsb'_and ..
theorem fieldP_and (d m : Descriptor) : fieldP (d &&& m) = fieldP d &&& fieldP m := BitVec.extractLsb'_and ..

/-- Every format reads the opcode whole. -/
theorem fieldOp_operandMask (i : Instr) : fieldOp (operandMask i) = 0xFF := by
  cases i <;> exact fieldOp_packFields ..

/-- A mask of ones lets everything through. -/
theorem and_full {w : Nat} {m : BitVec w} (hm : m = BitVec.allOnes w) (x : BitVec w) : x &&& m = x := by
  rw [hm, BitVec.and_allOnes]

/-- Bits that a mask lets through are the same in two words that are the same under the mask. -/
theorem extractLsb'_eq_of_and_eq {w start len : Nat} {x y m : BitVec w} (h : x &&& m = y &&& m)
    (hm : m.extractLsb' start len = BitVec.allOnes len) : x.extractLsb' start len = y.extractLsb' start len := by
  have hbits := congrArg (BitVec.extractLsb' start len) h
  rwa [BitVec.extractLsb'_and, BitVec.extractLsb'_and, and_full hm, and_full hm] at hbits

theorem lowByte_eq_of_and_eq {x y : Coord} (h : x &&& 0xFF = y &&& 0xFF) : lowByte x = lowByte y :=
  extractLsb'_eq_of_and_eq h rfl

/-- Settles O4: the two descriptors have the same opcode (`fieldOp_operandMask`), so they meet the same arm of the
decoder, and each field that arm reads, or the part of it, lies under the mask. -/
theorem unusedBitsAreIgnored : Obligations.UnusedBitsAreIgnored := by
  intro d d' i hi hmask
  have hop := congrArg fieldOp hmask
  have hv := congrArg fieldV hmask
  have ha := congrArg fieldA hmask
  have hb := congrArg fieldB hmask
  have hc := congrArg fieldC hmask
  have he := congrArg fieldD hmask
  have hn := congrArg fieldN hmask
  have hp := congrArg fieldP hmask
  simp only [fieldOp_and, fieldV_and, fieldA_and, fieldB_and, fieldC_and, fieldD_and, fieldN_and, fieldP_and]
    at hop hv ha hb hc he hn hp
  rw [fieldOp_operandMask, and_full (m := 0xFF) rfl, and_full (m := 0xFF) rfl, ← opcode_of_decode hi] at hop
  simp only [decode, ← opcode_of_decode hi, ← hop] at hi ⊢
  cases i <;>
    simp only [operandMask, fieldV_packFields, fieldA_packFields, fieldB_packFields, fieldC_packFields,
      fieldD_packFields, fieldN_packFields, fieldP_packFields, BitVec.reduceExtractLsb', BitVec.ofNat_eq_ofNat,
      and_full (m := 0xFF#8) rfl, and_full (m := 0xFFFF#16) rfl, and_full (m := 0xFFFFFFFF#32) rfl, Instr.opcode,
      BitVec.reduceToNat] at hi hv ha hb hc he hn hp ⊢ <;>
    rw [← hi]
  case setMode => rw [extractLsb'_eq_of_and_eq hv rfl]
  case drawChar => rw [hv, ha, hb, lowByte_eq_of_and_eq hc]
  case setWindow =>
    rw [lowByte_eq_of_and_eq ha, lowByte_eq_of_and_eq hb, lowByte_eq_of_and_eq hc, lowByte_eq_of_and_eq he]
  all_goals simp only [hv, ha, hb, hc, he, hn, hp]

/-! ## Descriptors written out -/

/-- Settles O2: each byte string is 14 bytes long, and the decoder evaluates on the number it stands for (R82). -/
theorem writtenDescriptorsDecode : Obligations.WrittenDescriptorsDecode := by
  refine ⟨?_, ?_, ?_, ?_, ?_, ?_⟩ <;> decide +kernel

end Sys2Proof
end

section
/-! ## Proofs: the step. What a step that answers a next state did (R31, R32, R253, R256, R280), and the state invariant
it keeps. -/

namespace Sys2Proof.Machine

/-! ## The cases of a step -/

/-- Every way a step answers a next state. -/
inductive StepsTo (s t : State) : Prop
  | reset (hreset : s.resetIn = true) (ht : t = blockReset s)
  | idle (hreset : s.resetIn = false) (hfaulted : s.faulted = false) (hnone : s.program[s.pos]? = none) (ht : t = s)
  | ran (d : Descriptor) (hs : s.Accepting) (hd : s.program[s.pos]? = some d) (hrun : runDescriptor d s = .next t)
  | abandoned (d : Descriptor) (n : Nat) (hreset : s.resetIn = false) (hduring : s.resetDuring = some n)
      (hrun : abandonDescriptor n d s = .next t)

theorem stepsTo_of_step {s t : State} (h : step s = .next t) : StepsTo s t := by
  simp only [step, sequenceStep, nextDescriptor] at h
  split at h
  · rename_i hreset
    injection h with h
    exact .reset hreset h.symm
  · rename_i hreset
    rw [Bool.not_eq_true] at hreset
    split at h
    · cases h
    · rename_i hfaulted
      rw [Bool.not_eq_true] at hfaulted
      split at h
      · rename_i hnone
        injection h with h
        exact .idle hreset hfaulted hnone h.symm
      · rename_i d hd
        split at h
        · rename_i hwf
          split at h
          · rename_i hduring
            exact .ran d ⟨hreset, hduring, hfaulted, hwf⟩ hd h
          · rename_i n hduring
            exact .abandoned d n hreset hduring h
        · cases h

/-- A descriptor that stands for an operation of this hardware runs it (R31). -/
theorem runDescriptor_of_legalInstr {s : State} {d : Descriptor} {i : Instr}
    (h : legalInstr s.cfg.hasAaLine d = some i) : runDescriptor d s = settle (exec i (latchOp d s)) := by
  rw [runDescriptor, h]

/-- After an operation the position moves on unless a fault was raised (R32, R250). -/
theorem settle_next {u : State} : settle (.next u) = .next (if u.faulted then u else advance u) :=
  (apply_ite Host.Outcome.next ..).symm

/-- What an accepted descriptor came to. -/
theorem runDescriptor_next {s t : State} {d : Descriptor} (h : runDescriptor d s = .next t) :
    t = advance (complete .errIllegal s)
      ∨ ∃ i u, exec i (latchOp d s) = .next u ∧ t = if u.faulted then u else advance u := by
  cases hlegal : legalInstr s.cfg.hasAaLine d with
  | none =>
    rw [runDescriptor_of_legalInstr_eq_none hlegal] at h
    injection h with h
    exact .inl h.symm
  | some i =>
    rw [runDescriptor_of_legalInstr hlegal] at h
    cases hexec : exec i (latchOp d s) with
    | next u =>
      rw [hexec, settle_next] at h
      injection h with h
      exact .inr ⟨i, u, hexec, h.symm⟩
    | fault r => rw [hexec] at h; cases h
    | refused r => rw [hexec] at h; cases h

/-- What an abandoned descriptor leaves: the block reset, with what the operation wrote to FB (R281). -/
theorem abandonDescriptor_next {s t : State} {n : Nat} {d : Descriptor} (h : abandonDescriptor n d s = .next t) :
    t = blockReset s ∨ ∃ i, t = blockReset { s with fb := fbAbandoned n i s } := by
  unfold abandonDescriptor at h
  split at h <;> injection h with h
  · exact .inl h.symm
  · exact .inr ⟨_, h.symm⟩

/-! ## The invariant -/

section
variable {s : State} (h : s.Inv)
include h

theorem State.Inv.complete (code : StatusCode) : (complete code s).Inv :=
  { h with statusLegal := by cases code <;> simp [statusByte] }

theorem State.Inv.latchFault (cause : Cause) : (latchFault cause s).Inv :=
  { h with causeLegal := fun _ => by cases cause <;> simp [causeByte] }

theorem State.Inv.advance : (advance s).Inv := { h with }

theorem State.Inv.latchOp (d : Descriptor) : (latchOp d s).Inv := { h with }

theorem State.Inv.withFb {m : Memory} (hm : m.wf = true) (hb : ∀ c ∈ m, c.1 < s.cfg.fbBytes) :
    ({ s with fb := m } : State).Inv :=
  { h with fbCanonical := hm, fbBounded := hb }

/-- The reset empties `WIRE` and returns the pins to their levels before any event (R30, R280). -/
theorem State.Inv.blockReset : (blockReset s).Inv where
  fbCanonical := h.fbCanonical
  fbBounded := h.fbBounded
  fontInTable := nofun
  statusLegal := .inl rfl
  causeLegal := nofun
  txCounted := rfl
  csDriven := rfl
  dcDriven := rfl
  rstDriven := rfl

theorem State.Inv.emitted (e : TransportEvent) : (emitted e s).Inv where
  fbCanonical := by simpa using h.fbCanonical
  fbBounded := by simpa using h.fbBounded
  fontInTable := by simpa using h.fontInTable
  statusLegal := by simpa using h.statusLegal
  causeLegal := by simpa using h.causeLegal
  txCounted := by
    rw [emitted_txCount, h.txCounted, emitted_wire]
    cases e <;> simp [transmitCount, List.filter, isTransmit]
  csDriven := by
    rw [emitted_wire, csAfter, List.foldl_append, ← csAfter, ← h.csDriven]
    cases e <;> rfl
  dcDriven := by
    rw [emitted_wire, dcAfter, List.foldl_append, ← dcAfter, ← h.dcDriven]
    cases e <;> rfl
  rstDriven := by
    rw [emitted_wire, rstAfter, List.foldl_append, ← rstAfter, ← h.rstDriven]
    cases e <;> rfl

theorem State.Inv.busLost : (busLost s).Inv := { h with statusLegal := .inr (.inr (.inl rfl)) }

end

/-- The parameters stay, and the invariant if it held. -/
def KeepsInv (s t : State) : Prop := t.cfg = s.cfg ∧ (s.Inv → t.Inv)

theorem KeepsInv.closed : Closed KeepsInv fun _ => KeepsInv where
  refl _ := ⟨rfl, id⟩
  trans _ _ _ h h' := ⟨h'.1.trans h.1, h'.2 ∘ h.2⟩
  after _ _ _ _ h h' := ⟨h'.1.trans h.1, h'.2 ∘ h.2⟩

/-- A pixel write keeps FB canonical, and only writes a byte that exists. -/
theorem KeepsInv.paints : Paints KeepsInv fun _ => KeepsInv where
  toClosed := KeepsInv.closed
  pixel _ _ _ _ _ ha := ⟨rfl, fun h => h.withFb (Memory.wf_write h.fbCanonical _ _) fun c hc =>
    (Memory.mem_write hc).elim (fun hc => hc ▸ ha) (h.fbBounded c)⟩
  storage _ := ⟨rfl, fun h => h.latchFault _⟩

theorem KeepsInv.readsAsset : ReadsAsset KeepsInv fun _ => KeepsInv where
  toClosed := KeepsInv.closed
  asset _ := ⟨rfl, fun h => h.latchFault _⟩

theorem KeepsInv.readsFont : ReadsFont KeepsInv fun _ => KeepsInv where
  toClosed := KeepsInv.closed
  font _ := ⟨rfl, fun h => h.latchFault _⟩
  refuse _ _ := ⟨rfl, id⟩

theorem KeepsInv.emitted (s : State) (e : TransportEvent) : KeepsInv s (emitted e s) :=
  ⟨emitted_cfg e s, fun h => h.emitted e⟩

theorem KeepsInv.sends : Sends KeepsInv fun _ => KeepsInv where
  toClosed := KeepsInv.closed
  pin s e _ := KeepsInv.emitted s e
  sent s e _ _ := KeepsInv.emitted s e
  lost s e _ _ := ⟨emitted_cfg e s, fun h => (h.emitted e).busLost⟩

theorem KeepsInv.fill (s : State) {n : Nat} (v : Byte) (hn : n ≤ s.cfg.fbBytes) :
    KeepsInv s { s with fb := s.fb.fill n v } :=
  ⟨rfl, fun h => h.withFb (Memory.wf_fill h.fbCanonical n v) fun c hc =>
    (Memory.mem_fill hc).elim (fun hc => Nat.lt_of_lt_of_le hc hn) (h.fbBounded c)⟩

/-- Every operation keeps the invariant. -/
theorem exec_keeps_inv {i : Instr} {s t : State} (hexec : exec i s = .next t) (h : s.Inv) : t.Inv := by
  by_cases hi : i.opcode.toNat < 0x40
  · rcases exec_drawing KeepsInv.paints KeepsInv.readsAsset KeepsInv.readsFont
      (fun _ _ s _ v hn _ => KeepsInv.fill s v hn) hi hexec with
      ⟨u, hu, rfl⟩ | ht | ⟨a, b, -, rfl⟩ | ⟨p, -, hp, rfl⟩ | ⟨p, -, rfl⟩ | ⟨-, -, rfl⟩
    · exact (hu.2 h).complete _
    · exact ht.2 h
    · exact State.Inv.complete (s := { s with w := a, h := b }) { h with } _
    · exact State.Inv.complete (s := { s with fontSel := p, fontValid := true })
        { h with fontInTable := fun _ => hp } _
    · exact State.Inv.complete (s := { s with fontValid := false }) { h with fontInTable := nofun } _
    · exact h.complete _
  · rcases exec_sending KeepsInv.sends (fun _ => ⟨rfl, fun h => h.latchFault _⟩)
      (fun _ => ⟨rfl, fun h => h.latchFault _⟩) (fun _ => ⟨rfl, fun h => h.complete _⟩)
      (fun _ s e _ => KeepsInv.emitted s e) (fun _ _ _ => ⟨rfl, fun h => { h with }⟩)
      (fun _ _ _ => ⟨rfl, fun h => { h with }⟩) (Nat.not_lt.mp hi) hexec with ⟨u, hu, rfl⟩ | ht
    · exact (hu.2 h).complete _
    · exact ht.2 h

/-- A piece of pseudocode that keeps the invariant leaves an FB that meets it, however it ends. -/
theorem fbLeftBy_inv {m : Op Unit} (hm : Keeps KeepsInv (fun _ => KeepsInv) m) {s : State} (h : s.Inv) :
    ({ s with fb := fbLeftBy m s } : State).Inv := by
  have hkeeps := hm s
  unfold fbLeftBy
  generalize m s = r at hkeeps ⊢
  cases r <;> exact h.withFb (hkeeps.2 h).fbCanonical (hkeeps.1 ▸ (hkeeps.2 h).fbBounded)

theorem fbFill_keeps_inv (n : Nat) (v : Byte) : Keeps KeepsInv (fun _ => KeepsInv) (fbFill n v) := by
  intro s
  by_cases hn : n ≤ s.cfg.fbBytes
  · rw [fbFill_ok hn]
    exact KeepsInv.fill s v hn
  · rw [fbFill_fault hn]
    exact KeepsInv.closed.after .ended _ _ _ (KeepsInv.fill s v (Nat.le_refl _)) (KeepsInv.paints.storage _)

theorem fbAbandoned_inv {s : State} (h : s.Inv) (n : Nat) (i : Instr) :
    ({ s with fb := fbAbandoned n i s } : State).Inv := by
  unfold fbAbandoned
  split
  · exact fbLeftBy_inv (fbFill_keeps_inv _ _) h
  · exact fbLeftBy_inv (Keeps.forEach KeepsInv.closed _ fun p => plot_keeps KeepsInv.paints _ _ _) h

/-- Settles O15: each case of a step (`StepsTo`) ends in an update that keeps the invariant, and what lies before it is
an operation (`exec_keeps_inv`) or the part of one that reset left (`fbAbandoned_inv`). -/
theorem everyStepKeepsTheInvariant : Obligations.EveryStepKeepsTheInvariant := by
  intro s t h hstep
  cases stepsTo_of_step hstep with
  | reset _ ht => exact ht ▸ h.blockReset
  | idle _ _ _ ht => exact ht ▸ h
  | ran d _ _ hrun =>
    rcases runDescriptor_next hrun with rfl | ⟨i, u, hexec, rfl⟩
    · exact (h.complete _).advance
    · have hu := exec_keeps_inv hexec (h.latchOp d)
      split
      · exact hu
      · exact hu.advance
  | abandoned d n _ _ hrun =>
    rcases abandonDescriptor_next hrun with rfl | ⟨i, rfl⟩
    · exact h.blockReset
    · exact (fbAbandoned_inv h n i).blockReset

/-- Settles O16: FB and `WIRE` are empty, and no font is active. -/
theorem resetMeetsTheInvariant : Obligations.ResetMeetsTheInvariant where
  fbCanonical := rfl
  fbBounded := nofun
  fontInTable := nofun
  statusLegal := .inl rfl
  causeLegal := nofun
  txCounted := rfl
  csDriven := rfl
  dcDriven := rfl
  rstDriven := rfl

end Sys2Proof.Machine
end

section
/-! ## Proofs: frames. Which registers an operation can write (R21 to R35, R50, R66), and what follows for the position
and the step. -/

namespace Sys2Proof.Machine

/-! ## What drawing leaves alone -/

/-- The state without what an operation below 0x40 may write, CONFIGURE and SELECT_FONT aside. -/
def paintFrame (s : State) : State := { s with fb := [], status := 0, faulted := false, fcause := 0 }

/-- All but FB and the outcome registers stay. -/
def KeepsPaintFrame (s t : State) : Prop := paintFrame t = paintFrame s

theorem KeepsPaintFrame.closed : Closed KeepsPaintFrame fun _ => KeepsPaintFrame where
  refl _ := rfl
  trans _ _ _ h h' := Eq.trans h' h
  after _ _ _ _ h h' := Eq.trans h' h

theorem KeepsPaintFrame.paints : Paints KeepsPaintFrame fun _ => KeepsPaintFrame where
  toClosed := KeepsPaintFrame.closed
  pixel _ _ _ _ _ _ := rfl
  storage _ := rfl

theorem KeepsPaintFrame.readsAsset : ReadsAsset KeepsPaintFrame fun _ => KeepsPaintFrame where
  toClosed := KeepsPaintFrame.closed
  asset _ := rfl

theorem KeepsPaintFrame.readsFont : ReadsFont KeepsPaintFrame fun _ => KeepsPaintFrame where
  toClosed := KeepsPaintFrame.closed
  font _ := rfl
  refuse _ _ := rfl

/-- Every operation below 0x40 keeps the frame, but for CONFIGURE, which writes `W` and `H`, and SELECT_FONT, which writes
the font registers. -/
theorem exec_paintFrame {i : Instr} {s t : State} (hi : i.opcode.toNat < 0x40) (hexec : exec i s = .next t) :
    paintFrame t = paintFrame s
      ∨ (∃ a b, i = .configure a b ∧ t = complete .ok { s with w := a, h := b })
      ∨ (∃ p sel valid, i = .selectFont p ∧ t = complete .ok { s with fontSel := sel, fontValid := valid }) := by
  rcases exec_drawing KeepsPaintFrame.paints KeepsPaintFrame.readsAsset KeepsPaintFrame.readsFont
    (fun _ _ _ _ _ _ _ => rfl) hi hexec with
    ⟨u, hu, rfl⟩ | ht | hconf | ⟨p, rfl, -, rfl⟩ | ⟨p, rfl, rfl⟩ | ⟨-, -, rfl⟩
  · exact .inl hu
  · exact .inl ht
  · exact .inr (.inl hconf)
  · exact .inr (.inr ⟨p, p, true, rfl, rfl⟩)
  · exact .inr (.inr ⟨p, s.fontSel, false, rfl, rfl⟩)
  · exact .inl rfl

/-! ## What sending leaves alone -/

/-- The state without what an operation from 0x40 up may write. -/
def sendFrame (s : State) : State :=
  { s with
    wire := [], txCount := 0, cs := true, dc := true, rst := true, pstate := .reset, mode := .normal, draws := 0,
    status := 0, faulted := false, fcause := 0 }

theorem sendFrame_emitted (e : TransportEvent) (s : State) : sendFrame (emitted e s) = sendFrame s := by
  cases e <;> rfl

theorem rst_emitted_of_isFramePin {e : TransportEvent} (he : isFramePin e) (s : State) :
    (emitted e s).rst = s.rst := by
  cases e with
  | pinResetLow | pinResetHigh => cases he
  | _ => rfl

theorem rst_emitted_of_isTransmit {e : TransportEvent} (he : isTransmit e = true) (s : State) :
    (emitted e s).rst = s.rst := by
  cases e with
  | pinResetLow | pinResetHigh => cases he
  | _ => rfl

/-- All but the wire, the display registers and the outcome registers stay, and `RST` too unless `i` is INITIALIZE. -/
def KeepsSendFrame (i : Instr) (s t : State) : Prop :=
  sendFrame t = sendFrame s ∧ (i ≠ .initDisplay → t.rst = s.rst)

theorem KeepsSendFrame.closed (i : Instr) : Closed (KeepsSendFrame i) fun _ => KeepsSendFrame i where
  refl _ := ⟨rfl, fun _ => rfl⟩
  trans _ _ _ h h' := ⟨h'.1.trans h.1, fun hi => (h'.2 hi).trans (h.2 hi)⟩
  after _ _ _ _ h h' := ⟨h'.1.trans h.1, fun hi => (h'.2 hi).trans (h.2 hi)⟩

theorem KeepsSendFrame.sends (i : Instr) : Sends (KeepsSendFrame i) fun _ => KeepsSendFrame i where
  toClosed := KeepsSendFrame.closed i
  pin s e he := ⟨sendFrame_emitted e s, fun _ => rst_emitted_of_isFramePin he s⟩
  sent s e he _ := ⟨sendFrame_emitted e s, fun _ => rst_emitted_of_isTransmit he s⟩
  lost s e he _ := ⟨sendFrame_emitted e s, fun _ => rst_emitted_of_isTransmit he s⟩

/-- Every operation from 0x40 up keeps the frame. -/
theorem exec_sendFrame {i : Instr} {s t : State} (hi : 0x40 ≤ i.opcode.toNat) (hexec : exec i s = .next t) :
    sendFrame t = sendFrame s ∧ (i ≠ .initDisplay → t.rst = s.rst) := by
  have hsame : ∀ {s t : State}, sendFrame t = sendFrame s → t.rst = s.rst → KeepsSendFrame i s t :=
    fun hframe hrst => ⟨hframe, fun _ => hrst⟩
  rcases exec_sending (KeepsSendFrame.sends i) (fun _ => hsame rfl rfl) (fun _ => hsame rfl rfl)
    (fun _ => hsame rfl rfl) (fun hinit s e _ => ⟨sendFrame_emitted e s, fun hi => absurd hinit hi⟩)
    (fun _ _ _ => hsame rfl rfl) (fun _ _ _ => hsame rfl rfl) hi hexec with ⟨u, hu, rfl⟩ | ht
  · exact hu
  · exact ht

/-! ## The writers of the registers -/

theorem opcode_lt_or_ge (i : Instr) : i.opcode.toNat < 0x40 ∨ 0x40 ≤ i.opcode.toNat := Nat.lt_or_ge ..

/-- The state's part that is not the block's to change, and the operand latch. -/
def hostPart (s : State) : State :=
  { State.reset with
    op := s.op, program := s.program, pos := s.pos, resetIn := s.resetIn, resetDuring := s.resetDuring,
    txFails := s.txFails, cfg := s.cfg }

theorem exec_hostPart {i : Instr} {s t : State} (hexec : exec i s = .next t) : hostPart t = hostPart s := by
  rcases opcode_lt_or_ge i with hi | hi
  · rcases exec_paintFrame hi hexec with h | ⟨a, b, -, rfl⟩ | ⟨p, sel, valid, -, rfl⟩
    · exact (congrArg hostPart h :)
    · rfl
    · rfl
  · exact (congrArg hostPart (exec_sendFrame hi hexec).1 :)

theorem exec_pos {i : Instr} {s t : State} (hexec : exec i s = .next t) : t.pos = s.pos :=
  (congrArg State.pos (exec_hostPart hexec) :)

/-- Settles O21: no operation writes the host's part (`exec_hostPart`), and each of the block's registers lies in the
frame of all operations but the one the spec names (`exec_paintFrame`, `exec_sendFrame`). -/
theorem registersHaveOneWriter : Obligations.RegistersHaveOneWriter := by
  intro i s t hexec
  have host := exec_hostPart hexec
  refine ⟨by simpa [hostPart] using host, ?_⟩
  rcases opcode_lt_or_ge i with hi | hi
  · rcases exec_paintFrame hi hexec with h | ⟨a, b, rfl, rfl⟩ | ⟨p, sel, valid, rfl, rfl⟩
    · exact ⟨fun hne => (hne.elim (· (congrArg State.w h :)) (· (congrArg State.h h :))).elim,
        fun hne => (hne.elim (· (congrArg State.fontValid h :)) (· (congrArg State.fontSel h :))).elim,
        fun hne => (hne (congrArg State.rst h :)).elim⟩
    · exact ⟨fun _ => ⟨a, b, rfl⟩, fun hne => (hne.elim (· rfl) (· rfl)).elim, fun hne => (hne rfl).elim⟩
    · exact ⟨fun hne => (hne.elim (· rfl) (· rfl)).elim, fun _ => ⟨p, rfl⟩, fun hne => (hne rfl).elim⟩
  · obtain ⟨h, hrst⟩ := exec_sendFrame hi hexec
    exact ⟨fun hne => (hne.elim (· (congrArg State.w h :)) (· (congrArg State.h h :))).elim,
      fun hne => (hne.elim (· (congrArg State.fontValid h :)) (· (congrArg State.fontSel h :))).elim,
      fun hne => by_contra fun hinit => hne (hrst hinit)⟩

/-- Settles O23: the wire, the pins and the display registers lie in the frame of what draws, FB in that of what
sends. -/
theorem drawingAndTransportAreSeparate : Obligations.DrawingAndTransportAreSeparate := by
  refine fun i s t hexec => ⟨fun hi => ?_, fun hi => (congrArg State.fb (exec_sendFrame hi hexec).1 :)⟩
  rcases exec_paintFrame hi hexec with h | ⟨a, b, -, rfl⟩ | ⟨p, sel, valid, -, rfl⟩
  · simp_all [paintFrame]
  · exact ⟨rfl, rfl, rfl, rfl, rfl, rfl, rfl, rfl⟩
  · exact ⟨rfl, rfl, rfl, rfl, rfl, rfl, rfl, rfl⟩

/-! ## The wire grows at its end -/

/-- `WIRE` grows at its end, by as many transmits as `TXCOUNT` rises. -/
def Appends (s t : State) : Prop :=
  ∃ ev, t.wire = s.wire ++ ev ∧ t.txCount = s.txCount + (ev.filter isTransmit).length

theorem Appends.refl (s : State) : Appends s s := ⟨[], by simp, rfl⟩

theorem Appends.trans {s t u : State} : Appends s t → Appends t u → Appends s u := by
  rintro ⟨ev, hw, ht⟩ ⟨ev', hw', ht'⟩
  refine ⟨ev ++ ev', by rw [hw', hw, List.append_assoc], ?_⟩
  rw [ht', ht, List.filter_append, List.length_append, Nat.add_assoc]

theorem Appends.closed : Closed Appends fun _ => Appends where
  refl := Appends.refl
  trans _ _ _ := Appends.trans
  after _ _ _ _ := Appends.trans

theorem Appends.emitted (s : State) (e : TransportEvent) : Appends s (emitted e s) :=
  ⟨[e], emitted_wire e s, by rw [emitted_txCount]; cases e <;> rfl⟩

theorem Appends.sends : Sends Appends fun _ => Appends where
  toClosed := Appends.closed
  pin s e _ := Appends.emitted s e
  sent s e _ _ := Appends.emitted s e
  lost s e _ _ := Appends.emitted s e

/-- Settles O25: what draws does not touch the wire, and every event of what sends is appended and counted
(`Appends.emitted`). -/
theorem wireIsAppendOnly : Obligations.WireIsAppendOnly := by
  intro i s t hexec
  rcases opcode_lt_or_ge i with hi | hi
  · obtain ⟨hwire, hcount, -⟩ := (drawingAndTransportAreSeparate i s t hexec).1 hi
    exact ⟨[], by rw [hwire, List.append_nil], hcount⟩
  · rcases exec_sending Appends.sends Appends.refl Appends.refl Appends.refl (fun _ s e _ => Appends.emitted s e)
      (fun _ s _ => Appends.refl s) (fun _ s _ => Appends.refl s) hi hexec with ⟨u, hu, rfl⟩ | ht
    · exact hu
    · exact ht

/-! ## The step's own rules -/

theorem legalInstr_of_decode {hasAaLine : Bool} {d : Descriptor} {i : Instr} (hd : decode d = .ok i)
    (hi : i.wf hasAaLine = true) : legalInstr hasAaLine d = some i := by
  simp [legalInstr, hd, hi]

/-- Settles O5: the descriptor stands for its operation, which an accepting block runs with the descriptor latched. -/
theorem stepRunsTheDecodedOperation : Obligations.StepRunsTheDecodedOperation := by
  intro s d i hs hpresented hd hi
  rw [step_eq_runDescriptor hs hpresented, runDescriptor_of_legalInstr (legalInstr_of_decode hd hi)]
  change settle (exec i (latchOp d s)) = match exec i (latchOp d s) with
    | .next t => .next (if t.faulted then t else advance t)
    | .fault r => .fault r
    | .refused r => .refused r
  cases exec i (latchOp d s) with
  | next t => exact settle_next
  | fault r => rfl
  | refused r => rfl

/-- What stands before a placed descriptor reaches up to its place. -/
theorem length_before_placed (program : List Descriptor) (pos : Nat) :
    (program.take pos ++ List.replicate (pos - program.length) (0 : Descriptor)).length = pos := by
  rw [List.length_append, List.length_take, List.length_replicate]
  omega

theorem getElem?_placeDescriptor_self (program : List Descriptor) (pos : Nat) (d : Descriptor) :
    (placeDescriptor program pos d)[pos]? = some d := by
  have hlen := length_before_placed program pos
  rw [placeDescriptor, List.getElem?_append_right (Nat.le_of_eq hlen), hlen, Nat.sub_self, List.getElem?_cons_zero]

theorem getElem?_placeDescriptor_of_ne {program : List Descriptor} {pos k : Nat} (d : Descriptor)
    (hk : k < program.length) (hne : k ≠ pos) : (placeDescriptor program pos d)[k]? = program[k]? := by
  unfold placeDescriptor
  rcases Nat.lt_or_gt_of_ne hne with h | h
  · rw [List.append_assoc, List.getElem?_append_left (by simp; omega), List.getElem?_take_of_lt h]
  · have hlen := length_before_placed program pos
    obtain ⟨j, rfl⟩ := Nat.exists_eq_add_of_lt h
    rw [List.getElem?_append_right (by omega), hlen, show pos + j + 1 - pos = j + 1 by omega, List.getElem?_cons_succ,
      List.getElem?_drop, show pos + 1 + j = pos + j + 1 by omega]

/-- Settles O6: the number of a descriptor is the descriptor (R80), and placing it changes the list at one place. -/
theorem placedDescriptorIsPresentedNext : Obligations.PlacedDescriptorIsPresentedNext := by
  intro s i
  have hbits : BitVec.ofNat 112 ((encode i).toNat % 2 ^ 112) = encode i := by
    rw [Nat.mod_eq_of_lt (encode i).isLt, BitVec.ofNat_toNat, BitVec.setWidth_eq]
  refine ⟨?_, rfl, fun k hk hne => getElem?_placeDescriptor_of_ne _ hk hne⟩
  exact (getElem?_placeDescriptor_self ..).trans (congrArg some hbits)

/-- Settles O8: the latch is tested before the host's list. -/
theorem faultedBlockIsStuck : Obligations.FaultedBlockIsStuck := by
  intro s hreset hfaulted
  simp [step, sequenceStep, hreset, hfaulted]

theorem step_of_resetIn {s : State} (h : s.resetIn = true) : step s = .next (blockReset s) := by
  simp [step, sequenceStep, h]

/-- Settles O9: the reset input comes before all else, and the block reset writes the values of R280. -/
theorem resetInputRestoresTheBlock : Obligations.ResetInputRestoresTheBlock := by
  intro s h
  exact ⟨blockReset s, step_of_resetIn h, rfl, rfl, rfl, rfl, rfl, rfl, rfl, rfl, rfl, rfl, rfl, rfl, rfl⟩

/-- Settles O11: the rows of R38's table, one by one. -/
theorem resetStateHoldsTheStatedValues : Obligations.ResetStateHoldsTheStatedValues :=
  ⟨rfl, rfl, rfl, rfl, rfl, rfl, rfl, rfl, rfl, rfl, rfl, rfl⟩

/-- Settles O12: in a final state the list holds no descriptor at the position. -/
theorem idleBlockKeepsAllState : Obligations.IdleBlockKeepsAllState := by
  rintro s hreset ⟨hfaulted, hdone⟩
  simp [step, sequenceStep, nextDescriptor, hreset, hfaulted, List.getElem?_eq_none hdone]

/-- Settles O14: the configuration is looked at once a descriptor is presented. -/
theorem illFormedConfigurationIsRefused : Obligations.IllFormedConfigurationIsRefused := by
  intro s hreset hfaulted hpos hwf
  simp [step, sequenceStep, nextDescriptor, hreset, hfaulted, List.getElem?_eq_getElem hpos, hwf]

/-- Settles O13: in each case of a step (`StepsTo`) the position is that of an update that keeps it, or of `advance`; no
operation moves it (`exec_pos`). -/
theorem positionMovesOnlyOnCompletion : Obligations.PositionMovesOnlyOnCompletion := by
  intro s t hstep
  cases stepsTo_of_step hstep with
  | reset hreset ht => exact .inr ⟨by rw [ht, blockReset_pos], .inr (.inl hreset)⟩
  | idle _ hfaulted hnone ht =>
    exact .inr ⟨by rw [ht], .inr (.inr (.inr ⟨hfaulted, List.getElem?_eq_none_iff.mp hnone⟩))⟩
  | abandoned d n _ hduring hrun =>
    refine .inr ⟨?_, .inr (.inr (.inl (by simp [hduring])))⟩
    rcases abandonDescriptor_next hrun with rfl | ⟨i, rfl⟩ <;> rfl
  | ran d hs hd hrun =>
    obtain ⟨hreset, hduring, hfaulted, -⟩ := hs
    have hpos : s.pos < s.program.length := (List.getElem?_eq_some_iff.mp hd).1
    rcases runDescriptor_next hrun with rfl | ⟨i, u, hexec, rfl⟩
    · exact .inl ⟨rfl, hfaulted, hreset, hduring, hpos⟩
    · have hu : u.pos = s.pos := exec_pos (s := latchOp d s) hexec
      by_cases hfault : u.faulted = true
      · rw [if_pos hfault]
        exact .inr ⟨hu, .inl hfault⟩
      · rw [if_neg hfault, advance_pos, hu]
        exact .inl ⟨rfl, by simpa using hfault, hreset, hduring, hpos⟩

end Sys2Proof.Machine
end

section
/-! ## Proofs: pixel writes. An operation that draws is its list of pixel writes (`pixelWrites`), after which it completes
or raises the fault of a source that does not exist (R170 to R172, R182, R185, R253). -/

namespace Sys2Proof.Machine

open Sys2Proof.Statement

/-! ## A list of pixel writes and its end -/

/-- What comes after the last pixel write: nothing, or the fault of a source that does not exist. -/
def stopFor : Option Cause → Op Unit
  | none => pure ()
  | some c => raiseFault c

/-- A list of pixel writes, and then the fault if there is one. -/
def plotThen (l : List LevelPixel) (late : Option Cause) : Op Unit := plotLevels l >>= fun _ => stopFor late

/-- The state an operation leaves that has made all its pixel writes. -/
def endedWith (late : Option Cause) (t : State) : State :=
  match late with
  | none => complete .ok t
  | some c => latchFault c t

theorem plotThen_none (l : List LevelPixel) (s : State) : plotThen l none s = plotLevels l s := by
  rw [plotThen, bind_apply]
  cases plotLevels l s <;> rfl

theorem plotThen_error {l : List LevelPixel} {late : Option Cause} {s t : State} {e : Stop}
    (h : plotLevels l s = .error e t) : plotThen l late s = .error e t := bind_error h

theorem finish_plotThen_ok {l : List LevelPixel} {late : Option Cause} {s t : State} (h : plotLevels l s = .ok () t) :
    finish (plotThen l late) s = .next (endedWith late t) := by
  have hrun : plotThen l late s = stopFor late t := bind_ok h
  cases late with
  | none => exact finish_ok hrun
  | some c => exact finish_ended hrun

theorem finish_plotThen_ended {l : List LevelPixel} {late : Option Cause} {s t : State}
    (h : plotLevels l s = .error .ended t) : finish (plotThen l late) s = .next t :=
  finish_ended (plotThen_error h)

/-- A memory that differs from the state's FB in the picture only, and is canonical if that is (R51). -/
def WithinPicture (s : State) (m : Memory) : Prop :=
  s.fb.wf = true → m.wf = true ∧ ∀ n, s.w.toNat * s.h.toNat ≤ n → nibbleAt m n = nibbleAt s.fb n

/-- Pixel writes that end change FB within the picture, and nothing else. -/
def Painted (s t : State) : Prop := ∃ m, t = { s with fb := m } ∧ WithinPicture s m

/-- Pixel writes that stop have met a pixel FB has no byte for. -/
def PaintStopped (e : Stop) (s t : State) : Prop :=
  e = .ended ∧ ∃ u, Painted s u ∧ t = latchFault .storageOverrun u

theorem Painted.refl (s : State) : Painted s s := ⟨s.fb, rfl, fun h => ⟨h, fun _ _ => rfl⟩⟩

theorem Painted.trans {s t u : State} : Painted s t → Painted t u → Painted s u := by
  rintro ⟨m, rfl, hm⟩ ⟨m', rfl, hm'⟩
  refine ⟨m', rfl, fun h => ?_⟩
  obtain ⟨hwf, hrest⟩ := hm h
  obtain ⟨hwf', hrest'⟩ := hm' hwf
  exact ⟨hwf', fun n hn => (hrest' n hn).trans (hrest n hn)⟩

theorem nibbleIndex_lt {s : State} {x y : Nat} (h : inFrame s x y) : nibbleIndex s.w x y < s.w.toNat * s.h.toNat := by
  obtain ⟨hx, hy⟩ := h
  calc y * s.w.toNat + x
    _ < (y + 1) * s.w.toNat := by rw [Nat.succ_mul]; omega
    _ ≤ s.h.toNat * s.w.toNat := Nat.mul_le_mul_right _ hy
    _ = s.w.toNat * s.h.toNat := Nat.mul_comm ..

theorem Painted.paints : Paints Painted PaintStopped where
  refl := Painted.refl
  trans _ _ _ := Painted.trans
  after := by
    rintro e s t u h ⟨he, v, hv, rfl⟩
    exact ⟨he, v, h.trans hv, rfl⟩
  pixel s x y b hf _ := by
    refine ⟨_, rfl, fun h => ⟨wf_writeNibble h (nibbleIndex s.w x y) b, fun n hn => ?_⟩⟩
    have hlt := nibbleIndex_lt hf
    exact nibbleAt_writeNibble_of_ne h b (by omega)
  storage s := ⟨rfl, s, Painted.refl s, rfl⟩

theorem plotLevels_keeps (l : List LevelPixel) : Keeps Painted PaintStopped (plotLevels l) :=
  Keeps.forEach Painted.paints.toClosed l fun _ => plot_keeps Painted.paints _ _ _

/-- Every way a list of pixel writes can end, whatever FB is. -/
theorem plotLevels_cases (l : List LevelPixel) (s : State) :
    ∃ t, Painted s t ∧ (plotLevels l s = .ok () t ∨ plotLevels l s = .error .ended (latchFault .storageOverrun t)) := by
  have h := plotLevels_keeps l s
  cases hrun : plotLevels l s with
  | ok u t =>
    rw [hrun] at h
    exact ⟨t, h, .inl rfl⟩
  | error e t =>
    rw [hrun] at h
    obtain ⟨rfl, u, hu, rfl⟩ := h
    exact ⟨u, hu, .inr rfl⟩

theorem plotLevels_append (l l' : List LevelPixel) (s : State) :
    plotLevels (l ++ l') s = (plotLevels l >>= fun _ => plotLevels l') s := by
  unfold plotLevels
  rw [bind_apply, forEach_append]
  cases forEach l _ s <;> rfl

theorem plotLevels_cons_ok {p : LevelPixel} {l : List LevelPixel} {s t : State}
    (h : plot p.1.1 p.1.2 (p.2.setWidth 8) s = .ok () t) : plotLevels (p :: l) s = plotLevels l t := by
  unfold plotLevels
  exact forEach_cons_ok h

/-- With a framebuffer that holds the picture no pixel write faults (R291). -/
theorem plotLevels_of_fits {s : State} (hs : s.fits = true) (l : List LevelPixel) :
    ∃ t, Painted s t ∧ plotLevels l s = .ok () t := by
  induction l generalizing s with
  | nil => exact ⟨s, Painted.refl s, rfl⟩
  | cons p l ih =>
    have hplot : ∃ m, plot p.1.1 p.1.2 (p.2.setWidth 8) s = .ok () { s with fb := m } := by
      rcases plot_cases p.1.1 p.1.2 (p.2.setWidth 8) s with ⟨hp, -⟩ | ⟨a, b, -, -, hin, ⟨-, hp⟩ | ⟨ha, -⟩⟩
      · exact ⟨s.fb, hp⟩
      · exact ⟨_, hp⟩
      · exact absurd (pixelAddress_lt_of_fits hs hin) ha
    obtain ⟨m, hm⟩ := hplot
    have hhead := plot_keeps Painted.paints p.1.1 p.1.2 (p.2.setWidth 8) s
    rw [hm] at hhead
    obtain ⟨t, ht, hrun⟩ := ih (s := { s with fb := m }) hs
    exact ⟨t, hhead.trans ht, (plotLevels_cons_ok hm).trans hrun⟩

/-! ## What such an operation does to FB -/

section
variable {i : Instr} {s : State} {l : List LevelPixel} {lv : Nat → Nat → Nibble → Prop} (hs : s.fb.wf = true)
include hs

/-- All pixels of `l` written: each level of `lv` is the last one written to its pixel, and every pixel written has a
level in `lv`. -/
theorem writesPixels_of_run {fin : Memory → State}
    (hexec : ∀ m, plotLevels l s = .ok () { s with fb := m } → exec i s = .next (fin m))
    (hlast : ∀ x y b, lv x y b → lastLevel l x y b)
    (hwritten : ∀ (x y : Nat) b, (((x : Int), (y : Int)), b) ∈ l → ∃ b', lv x y b') (hl : bytesExist s l) :
    WritesPixels i s lv fin := by
  obtain ⟨m, hrun, hm⟩ := plotLevels_ok hs hl
  have ⟨hwf, hlevel, hrest⟩ := hm
  refine ⟨m, hexec m hrun, hwf, fun x y b hf hlv => hlevel x y b hf (hlast x y b hlv), fun n hn => ?_, fun a ha => ?_⟩
  · refine hrest n fun x y b hf hb => ?_
    obtain ⟨b', hb'⟩ := hwritten x y b hb
    exact hn x y b' hf hb'
  · refine hm.read_eq fun x y b hf hb => ?_
    obtain ⟨b', hb'⟩ := hwritten x y b hb
    exact ha x y b' hf hb'

/-- A pixel of `l` without its byte: the writes before it are made, and they are pixels of `lv`. -/
theorem storageFaults_of_run (hexec : ∀ t, plotLevels l s = .error .ended t → exec i s = .next t)
    (hwrites : pixelWrites i s = l) (hmem : ∀ (x y : Nat) b, (((x : Int), (y : Int)), b) ∈ l → lv x y b)
    (hl : ¬ bytesExist s l) : StorageFaults i s lv := by
  obtain ⟨done, hstop⟩ := (reaches_cases s l).resolve_left hl
  obtain ⟨m, hrun, hm⟩ := plotLevels_stops hs hstop
  have hdone : ∀ p ∈ done, p ∈ l := by
    obtain ⟨x, y, b, rest, rfl, -⟩ := hstop
    exact fun p hp => List.mem_append_left _ hp
  refine ⟨m, done, hexec _ hrun, hwrites ▸ hstop, hm, fun x y b _ hb => hmem x y b (hdone _ hb), fun a ha => ?_⟩
  exact hm.read_eq fun x y b hf hb => ha x y b hf (hmem x y b (hdone _ hb))

/-- The rule of an operation that is its list of pixel writes and an end. -/
theorem paintsOrFaults_of_plotThen {late : Option Cause} (hexec : exec i s = finish (plotThen l late) s)
    (hwrites : pixelWrites i s = l) (h : Leaves l lv) :
    PaintsOrFaults i s lv fun m => endedWith late { s with fb := m } := by
  rw [PaintsOrFaults, h.pixelsInFb_iff]
  refine ⟨writesPixels_of_run hs (fun m hrun => hexec.trans (finish_plotThen_ok hrun))
    (fun _ _ _ => h.lastLevel_of_level) fun _ _ b hb => ⟨b, h.level_of_mem hb⟩, ?_⟩
  exact storageFaults_of_run hs (fun t hrun => hexec.trans (finish_plotThen_ended hrun)) hwrites
    fun _ _ _ => h.level_of_mem

end

/-- Where every pixel has one level, the last one written to it is that. -/
theorem leaves_of_mem_iff {l : List LevelPixel} {lv : Nat → Nat → Nibble → Prop}
    (hmem : ∀ (x y : Nat) b, (((x : Int), (y : Int)), b) ∈ l ↔ lv x y b)
    (hone : ∀ x y b b', lv x y b → lv x y b' → b = b') : Leaves l lv where
  level_of_mem hb := (hmem _ _ _).mp hb
  lastLevel_of_level := by
    intro x y b hb
    obtain ⟨b', hb'⟩ := written_lastLevel ⟨b, (hmem x y b).mpr hb⟩
    exact hone x y b' b ((hmem x y b').mp (mem_of_lastLevel hb')) hb ▸ hb'

/-! ## Lines, rectangles and circles -/

/-- Settles O31: both are a list of pixels with one brightness (`paintsOrFaults_of_plotAll`), the ordered segment
(`mem_vlinePixels`, `mem_hlinePixels`). -/
theorem straightLinesDraw : Obligations.StraightLinesDraw := by
  intro s p q0 q1 v hs
  exact ⟨paintsOrFaults_of_plotAll hs rfl rfl fun _ _ => mem_vlinePixels,
    paintsOrFaults_of_plotAll hs rfl rfl fun _ _ => mem_hlinePixels⟩

/-- Settles O34: DRAW_LINE is `linePixels` with one brightness. -/
theorem lineDrawsItsPixels : Obligations.LineDrawsItsPixels := by
  intro s x0 y0 x1 y1 v hs
  exact paintsOrFaults_of_plotAll hs rfl rfl fun _ _ => Iff.rfl

/-- The four edges, one after another (R150). -/
theorem mem_rectPixels {x0 y0 x1 y1 px py : Nat} : ((px : Int), (py : Int)) ∈ rectPixels x0 y0 x1 y1 ↔
    ((px = x0 ∨ px = x1) ∧ between y0 y1 py) ∨ ((py = y0 ∨ py = y1) ∧ between x0 x1 px) := by
  simp only [rectPixels, List.mem_append, mem_vlinePixels, mem_hlinePixels, between]
  tauto

/-- Settles O39: DRAW_RECT is its four edges (`mem_rectPixels`) with one brightness. -/
theorem rectangleDrawsItsEdges : Obligations.RectangleDrawsItsEdges := by
  intro s x0 y0 x1 y1 v hs
  exact paintsOrFaults_of_plotAll hs rfl rfl fun _ _ => mem_rectPixels

/-- Settles O41: DRAW_CIRCLE is `circlePixels` with one brightness. -/
theorem circleDrawsItsPoints : Obligations.CircleDrawsItsPoints := by
  intro s x0 y0 r v hs
  exact paintsOrFaults_of_plotAll hs rfl rfl fun _ _ => Iff.rfl

/-! ## The antialiased line -/

theorem exec_drawAaLine {s : State} {x0 y0 x1 y1 : Coord} (haa : s.cfg.hasAaLine = true) (hx : x0 ≠ x1) (hy : y0 ≠ y1)
    (v : Byte) : exec (.drawAaLine x0 y0 x1 y1 v) s
      = finish (plotLevels (aaPixelWrites x0.toNat y0.toNat x1.toNat y1.toNat (lowNibble v) s)) s :=
  (if_pos haa).trans ((if_neg hx).trans (if_neg hy))

theorem pixelWrites_drawAaLine {s : State} {x0 y0 x1 y1 : Coord} (haa : s.cfg.hasAaLine = true) (hx : x0 ≠ x1)
    (hy : y0 ≠ y1) (v : Byte) : pixelWrites (.drawAaLine x0 y0 x1 y1 v) s
      = aaPixelWrites x0.toNat y0.toNat x1.toNat y1.toNat (lowNibble v) s :=
  (if_pos haa).trans (if_neg (not_or.mpr ⟨hx, hy⟩))

/-- R140 (f): the pixel writes depend on no byte of FB but those they lie in. -/
theorem aaPixelWrites_congr {s : State} {x0 y0 x1 y1 : Nat} {b : Nibble} {m : Memory}
    (h : ∀ x y c, inFrame s x y → (((x : Int), (y : Int)), c) ∈ aaPixelWrites x0 y0 x1 y1 b s →
      m.read (pixelAddress s.w x y) = s.fb.read (pixelAddress s.w x y)) :
    aaPixelWrites x0 y0 x1 y1 b { s with fb := m } = aaPixelWrites x0 y0 x1 y1 b s := by
  unfold aaPixelWrites at h ⊢
  cases hinstance : s.cfg.aaLine with
  | reference => rfl
  | anyInstance =>
    simp only [hinstance] at h ⊢
    refine (Config.aaLineFn.readsOnly _ _ _ fun x y c hx hy hc => ?_).symm
    exact (h x y c ⟨hx, hy⟩ hc).symm

/-- Settles O38: the operation is the pixel writes of `AA_LINE_FN`, of which the last to a pixel stays; what they depend
on is R140 (f) (`aaPixelWrites_congr`). -/
theorem antialiasedLineDrawsItsLevels : Obligations.AntialiasedLineDrawsItsLevels := by
  rintro s x0 y0 x1 y1 v l hs haa hx hy rfl
  have hexec := exec_drawAaLine haa hx hy v
  have hwrites := pixelWrites_drawAaLine haa hx hy v
  refine ⟨fun hfb => ?_, fun hfb => ?_, fun m => aaPixelWrites_congr⟩
  · refine writesPixels_of_run hs (fun m hrun => hexec.trans (finish_ok hrun)) (fun _ _ _ hb => hb)
      (fun x y b hb => written_lastLevel ⟨b, hb⟩) fun x y b hf hb => ?_
    obtain ⟨b', hb'⟩ := written_lastLevel ⟨b, hb⟩
    exact hfb x y b' hf hb'
  · refine storageFaults_of_run hs (fun t hrun => hexec.trans (finish_ended hrun)) hwrites (fun _ _ _ hb => hb)
      fun hl => hfb fun x y b hf hb => hl x y b hf (mem_of_lastLevel hb)

/-! ## CLEAR -/

theorem exec_clear (v : Byte) (s : State) :
    exec (.clear v) s = finish (fbFill (pixelBytes s.w s.h) (fillByte v)) s := rfl

/-- Settles O29: the fill either has all its bytes or stops at the end of FB (`fbFill_ok`, `fbFill_fault`), and what it
filled reads as the fill byte (`Memory.read_fill`). -/
theorem clearFillsThePixelBytes : Obligations.ClearFillsThePixelBytes := by
  intro s v hs
  rw [exec_clear]
  refine ⟨fun hn => ⟨s.fb.fill (pixelBytes s.w s.h) (fillByte v), ?_, Memory.wf_fill hs _ _, fun a =>
    Memory.read_fill hs _ a _⟩, fun hn => ⟨s.fb.fill s.cfg.fbBytes (fillByte v), ?_, Memory.wf_fill hs _ _, fun a =>
    Memory.read_fill hs _ a _⟩⟩
  · exact finish_ok (fbFill_ok hn)
  · exact finish_ended (fbFill_fault (Nat.not_le.mpr hn))

end Sys2Proof.Machine
end

section
/-! ## Proofs: sources. Blits, glyphs and strings as their pixel writes (R58, R60, R170 to R172, R182 to R186): a loop over
sources writes the pixels before the first source that does not exist, and then raises its fault. -/

namespace Sys2Proof.Machine

open Sys2Proof.Statement

/-! ## Loops over sources -/

/-- The fault of a loop over sources, if one of them does not exist. -/
def lateOf (c : Cause) (l : List Source) : Option Cause := if none ∈ l then some c else none

theorem lateOf_of_mem {c : Cause} {l : List Source} (h : none ∈ l) : lateOf c l = some c := if_pos h

theorem lateOf_of_not_mem {c : Cause} {l : List Source} (h : none ∉ l) : lateOf c l = none := if_neg h

theorem forEach_drawSource (c : Cause) (l : List Source) (s : State) :
    forEach l (drawSource c) s = plotThen (sourcePixels l) (lateOf c l) s := by
  rw [forEach_source, plotThen, bind_apply]
  cases plotLevels (sourcePixels l) s with
  | error e t => rfl
  | ok u t =>
    by_cases hl : none ∈ l
    · rw [lateOf_of_mem hl]
      exact if_pos hl
    · rw [lateOf_of_not_mem hl]
      exact if_neg hl

theorem finish_congr {m m' : Op Unit} {s : State} (h : m s = m' s) : finish m s = finish m' s := by
  unfold finish
  rw [h]

/-- A loop whose items read sources, as pixel writes and an end. -/
theorem forEach_eq_plotThen {α : Type} (c : Cause) (l : List α) (f : α → Op Unit) (src : α → Source) (s : State)
    (h : ∀ a ∈ l, ∀ t, t.cfg = s.cfg → f a t = drawSource c (src a) t) :
    forEach l f s = plotThen (sourcePixels (l.map src)) (lateOf c (l.map src)) s :=
  (forEach_eq_sources c l f src s h).trans (forEach_drawSource c _ s)

/-- Nothing after a source that does not exist is drawn. -/
theorem sourcePixels_append_of_mem {l : List Source} (l' : List Source) (h : none ∈ l) :
    sourcePixels (l ++ l') = sourcePixels l := by
  induction l with
  | nil => cases h
  | cons o l ih =>
    rcases o with _ | _ | p
    · rfl
    · exact ih (by simpa using h)
    · exact congrArg (p :: ·) (ih (by simpa using h))

theorem sourcePixels_append_of_not_mem {l : List Source} (l' : List Source) (h : none ∉ l) :
    sourcePixels (l ++ l') = sourcePixels l ++ sourcePixels l' := by
  induction l with
  | nil => rfl
  | cons o l ih =>
    rcases o with _ | _ | p
    · exact absurd (List.mem_cons_self ..) h
    · exact ih fun hl => h (List.mem_cons_of_mem _ hl)
    · exact congrArg (p :: ·) (ih fun hl => h (List.mem_cons_of_mem _ hl))

/-- Sources that, once one does not exist, do not exist any more. -/
def StopForGood (l : List Source) : Prop := l.Pairwise fun o o' => o = none → o' = none

/-- The pixels of such sources are those of all that exist. -/
theorem StopForGood.mem_sourcePixels {l : List Source} (h : StopForGood l) {p : LevelPixel} :
    p ∈ sourcePixels l ↔ some (some p) ∈ l := by
  induction l with
  | nil => simp [sourcePixels]
  | cons o l ih =>
    obtain ⟨hhead, htail⟩ := List.pairwise_cons.mp h
    have ih := ih htail
    rcases o with _ | _ | q
    · have hnone : some (some p) ∉ l := fun hp => by simpa using hhead _ hp rfl
      simp [sourcePixels, hnone]
    · simp [sourcePixels, ih]
    · simp [sourcePixels, ih]

/-! ## The items of a rectangle -/

theorem rowMajor_index_lt {w h : Nat} {ji : Nat × Nat} (hji : ji ∈ rowMajor w h) : ji.1 * w + ji.2 < w * h := by
  obtain ⟨hj, hi⟩ := mem_rowMajor.mp hji
  calc ji.1 * w + ji.2
    _ < (ji.1 + 1) * w := by rw [Nat.succ_mul]; omega
    _ ≤ h * w := Nat.mul_le_mul_right _ hj
    _ = w * h := Nat.mul_comm ..

/-- The last item of a rectangle that is not empty. -/
theorem exists_rowMajor_last {w h : Nat} (hwh : w * h ≠ 0) :
    ∃ ji ∈ rowMajor w h, ji.1 * w + ji.2 = w * h - 1 := by
  obtain ⟨hw, hh⟩ := Nat.mul_ne_zero_iff.mp hwh
  refine ⟨(h - 1, w - 1), mem_rowMajor.mpr ⟨by simp only; omega, by simp only; omega⟩, ?_⟩
  simp only
  have hsplit : w * h = (h - 1) * w + w := by
    rw [← Nat.succ_mul, Nat.mul_comm, Nat.succ_eq_add_one, Nat.sub_add_cancel (by omega)]
  omega

/-- The items come in the order of their numbers (R58, R60). -/
theorem pairwise_rowMajor (w h : Nat) :
    (rowMajor w h).Pairwise fun a b => a.1 * w + a.2 < b.1 * w + b.2 := by
  refine List.pairwise_flatMap.mpr ⟨fun j _ => ?_, ?_⟩
  · exact List.pairwise_map.mpr (List.pairwise_lt_range.imp fun h => by simpa using h)
  · refine List.pairwise_lt_range.imp fun {j j'} hj a ha b hb => ?_
    obtain ⟨i, hi, rfl⟩ := List.mem_map.mp ha
    obtain ⟨i', -, rfl⟩ := List.mem_map.mp hb
    have hi := List.mem_range.mp hi
    calc j * w + i
      _ < (j + 1) * w := by rw [Nat.succ_mul]; omega
      _ ≤ j' * w := Nat.mul_le_mul_right _ hj
      _ ≤ j' * w + i' := Nat.le_add_right ..

section
variable {w h len base d : Nat} {src : Nat × Nat → Source}
  (hsrc : ∀ ji, src ji = none ↔ len ≤ base + (ji.1 * w + ji.2) / d)
include hsrc

/-- Where item number `k` reads element `base + k / d`, no element after a missing one exists. -/
theorem stopForGood_rowMajor : StopForGood ((rowMajor w h).map src) := by
  refine List.pairwise_map.mpr ((pairwise_rowMajor w h).imp fun {a b} hab hnone => ?_)
  have hdiv : (a.1 * w + a.2) / d ≤ (b.1 * w + b.2) / d := Nat.div_le_div_right (Nat.le_of_lt hab)
  have ha := (hsrc a).mp hnone
  exact (hsrc b).mpr (by omega)

/-- Some element is missing exactly if the last one is. -/
theorem none_mem_rowMajor (hd : 0 < d) :
    none ∈ (rowMajor w h).map src ↔ w * h ≠ 0 ∧ len < base + (w * h + (d - 1)) / d := by
  have hlast : w * h ≠ 0 → (w * h + (d - 1)) / d = (w * h - 1) / d + 1 := fun hwh => by
    rw [show w * h + (d - 1) = w * h - 1 + d by omega, Nat.add_div_right _ hd]
  constructor
  · intro hnone
    obtain ⟨ji, hji, he⟩ := List.mem_map.mp hnone
    have hlt := rowMajor_index_lt hji
    have hwh : w * h ≠ 0 := by omega
    have hdiv : (ji.1 * w + ji.2) / d ≤ (w * h - 1) / d := Nat.div_le_div_right (by omega)
    have hji := (hsrc ji).mp he
    have := hlast hwh
    exact ⟨hwh, by omega⟩
  · rintro ⟨hwh, hlen⟩
    obtain ⟨ji, hji, he⟩ := exists_rowMajor_last hwh
    have := hlast hwh
    exact List.mem_map.mpr ⟨ji, hji, (hsrc ji).mpr (by rw [he]; omega)⟩

end

/-! ## Bitmaps -/

/-- The sources of an 8-bit blit (R170). -/
def blit8Sources (s : State) (x0 y0 w h : Coord) (p : Word32) : List Source :=
  (rowMajor w.toNat h.toNat).map (blit8Source s.cfg.asset x0.toNat y0.toNat w.toNat p.toNat)

/-- The sources of a packed blit (R171). -/
def blit4Sources (s : State) (x0 y0 w h : Coord) (p : Word32) : List Source :=
  (rowMajor w.toNat h.toNat).map (blit4Source s.cfg.asset x0.toNat y0.toNat w.toNat p.toNat)

theorem exec_drawBitmap8bpp (x0 y0 w h : Coord) (p : Word32) (s : State) :
    exec (.drawBitmap8bpp x0 y0 w h p) s
      = finish (plotThen (sourcePixels (blit8Sources s x0 y0 w h p))
          (lateOf .assetOverrun (blit8Sources s x0 y0 w h p))) s :=
  finish_congr <| forEach_eq_plotThen _ _ _ _ s fun ji _ t ht => by rw [blit8Pixel_eq, ht]

theorem exec_drawBitmap4bpp (x0 y0 w h : Coord) (p : Word32) (s : State) :
    exec (.drawBitmap4bpp x0 y0 w h p) s
      = finish (plotThen (sourcePixels (blit4Sources s x0 y0 w h p))
          (lateOf .assetOverrun (blit4Sources s x0 y0 w h p))) s :=
  finish_congr <| forEach_eq_plotThen _ _ _ _ s fun ji _ t ht => by rw [blit4Pixel_eq, ht]

theorem blit8Source_eq_none (asset : List Byte) (x0 y0 w p : Nat) (ji : Nat × Nat) :
    blit8Source asset x0 y0 w p ji = none ↔ asset.length ≤ p + (ji.1 * w + ji.2) / 1 := by
  rw [blit8Source, Option.map_eq_none_iff, List.getElem?_eq_none_iff, Nat.div_one, Nat.add_assoc]

theorem blit4Source_eq_none (asset : List Byte) (x0 y0 w p : Nat) (ji : Nat × Nat) :
    blit4Source asset x0 y0 w p ji = none ↔ asset.length ≤ p + (ji.1 * w + ji.2) / 2 := by
  rw [blit4Source, Option.map_eq_none_iff, List.getElem?_eq_none_iff]

/-! What the two blits share: element `addr ji` of the source gives item `ji` of the rectangle the level `level ji`. -/

section
variable (asset : List Byte) (x0 y0 w h : Nat) (addr : Nat × Nat → Nat) (level : Nat × Nat → Byte → Nibble)

def blitSource (ji : Nat × Nat) : Source :=
  asset[addr ji]?.map fun b => some ((((x0 + ji.2 : Nat) : Int), ((y0 + ji.1 : Nat) : Int)), level ji b)

def blitLevel (px py : Nat) (b : Nibble) : Prop :=
  ∃ i j a, i < w ∧ j < h ∧ px = x0 + i ∧ py = y0 + j ∧ asset[addr (j, i)]? = some a ∧ b = level (j, i) a

variable {asset x0 y0 w h addr level}

/-- A blit writes each pixel of the framebuffer at most once, so its source has one level for it. -/
theorem leaves_blit (hstop : StopForGood ((rowMajor w h).map (blitSource asset x0 y0 addr level))) :
    Leaves (sourcePixels ((rowMajor w h).map (blitSource asset x0 y0 addr level)))
      (blitLevel asset x0 y0 w h addr level) := by
  refine leaves_of_mem_iff (fun px py b => ?_) ?_
  · rw [hstop.mem_sourcePixels, List.mem_map]
    simp only [mem_rowMajor, blitSource, Option.map_eq_some_iff, Prod.exists, blitLevel, Option.some.injEq,
      Prod.mk.injEq, Nat.cast_inj]
    constructor
    · rintro ⟨j, i, ⟨hj, hi⟩, a, ha, ⟨hx, hy⟩, hb⟩
      exact ⟨i, j, a, hi, hj, hx.symm, hy.symm, ha, hb.symm⟩
    · rintro ⟨i, j, a, hi, hj, hx, hy, ha, hb⟩
      exact ⟨j, i, ⟨hj, hi⟩, a, ha, ⟨hx.symm, hy.symm⟩, hb.symm⟩
  · rintro x y b b' ⟨i, j, a, -, -, hx, hy, ha, rfl⟩ ⟨i', j', a', -, -, hx', hy', ha', rfl⟩
    obtain ⟨rfl, rfl⟩ : i = i' ∧ j = j' := by omega
    rw [Option.some.inj (ha.symm.trans ha')]

end

section
variable {s : State} {x0 y0 w h : Coord} {p : Word32}

/-- An 8-bit source runs past ASSET (R172). -/
theorem none_mem_blit8Sources : none ∈ blit8Sources s x0 y0 w h p
    ↔ w.toNat * h.toNat ≠ 0 ∧ s.cfg.asset.length < p.toNat + w.toNat * h.toNat := by
  have hnone := none_mem_rowMajor (h := h.toNat)
    (blit8Source_eq_none s.cfg.asset x0.toNat y0.toNat w.toNat p.toNat) Nat.one_pos
  rwa [Nat.div_one] at hnone

/-- A packed source runs past ASSET (R172). -/
theorem none_mem_blit4Sources : none ∈ blit4Sources s x0 y0 w h p
    ↔ w.toNat * h.toNat ≠ 0 ∧ s.cfg.asset.length < p.toNat + (w.toNat * h.toNat + 1) / 2 :=
  none_mem_rowMajor (blit4Source_eq_none s.cfg.asset x0.toNat y0.toNat w.toNat p.toNat) Nat.two_pos

theorem leaves_blit8 : Leaves (sourcePixels (blit8Sources s x0 y0 w h p)) (blit8Level s x0 y0 w h p) :=
  leaves_blit (addr := fun ji => p.toNat + ji.1 * w.toNat + ji.2) (level := fun _ => highNibble)
    (stopForGood_rowMajor (blit8Source_eq_none s.cfg.asset x0.toNat y0.toNat w.toNat p.toNat))

theorem leaves_blit4 : Leaves (sourcePixels (blit4Sources s x0 y0 w h p)) (blit4Level s x0 y0 w h p) :=
  leaves_blit (addr := fun ji => p.toNat + (ji.1 * w.toNat + ji.2) / 2)
    (level := fun ji => sourceNibble (ji.1 * w.toNat + ji.2))
    (stopForGood_rowMajor (blit4Source_eq_none s.cfg.asset x0.toNat y0.toNat w.toNat p.toNat))

end

/-- Settles O44: the blit writes the pixels of the source bytes that exist (`leaves_blit8`), and then raises AssetOverrun
exactly if its source runs past ASSET (`none_mem_blit8Sources`). -/
theorem bitmap8Blits : Obligations.Bitmap8Blits := by
  intro s x0 y0 w h p hs
  have hpaints := paintsOrFaults_of_plotThen hs (exec_drawBitmap8bpp x0 y0 w h p s) rfl leaves_blit8
  refine ⟨fun hin => ?_, fun hne hout => ?_⟩
  · rwa [lateOf_of_not_mem (none_mem_blit8Sources.not.mpr (by omega))] at hpaints
  · rwa [lateOf_of_mem (none_mem_blit8Sources.mpr ⟨hne, hout⟩)] at hpaints

/-- Settles O45: as O44, with the packed source (`leaves_blit4`, `none_mem_blit4Sources`). -/
theorem bitmap4Blits : Obligations.Bitmap4Blits := by
  intro s x0 y0 w h p hs
  have hpaints := paintsOrFaults_of_plotThen hs (exec_drawBitmap4bpp x0 y0 w h p s) rfl leaves_blit4
  refine ⟨fun hin => ?_, fun hne hout => ?_⟩
  · rwa [lateOf_of_not_mem (none_mem_blit4Sources.not.mpr (by omega))] at hpaints
  · rwa [lateOf_of_mem (none_mem_blit4Sources.mpr ⟨hne, hout⟩)] at hpaints

end Sys2Proof.Machine
end

section
/-! ## Proofs: characters and strings. DRAW_CHAR and DRAW_TEXT as their pixel writes, or refused where the font table is
ill-formed (R25, R60, R182 to R187). -/

namespace Sys2Proof.Machine

open Sys2Proof.Statement

/-- An active font is a well-formed record of the table (R25, R187). -/
def FontReady (s : State) : Prop :=
  s.fontValid = true → ∃ f, s.cfg.fontRom[s.fontSel.toNat]? = some f ∧ f.wf = true

theorem fontReady_of_wf {s : State} (hwf : s.cfg.wf = true)
    (hsel : s.fontValid = true → s.fontSel.toNat < s.cfg.fontRom.length) : FontReady s := by
  intro hv
  have hlt := hsel hv
  simp only [Config.wf, Bool.and_eq_true, List.all_eq_true] at hwf
  exact ⟨_, List.getElem?_eq_getElem hlt, hwf.1.1.1 _ (List.getElem_mem hlt)⟩

/-- A well-formed font has a glyph for every code in its range (R59, R187). -/
theorem Font.wf.exists_glyph {f : Font} (hf : f.wf = true) {c : Byte}
    (hc : ¬ (c.toNat < f.first.toNat ∨ f.last.toNat < c.toNat)) :
    ∃ g, f.glyphs[c.toNat - f.first.toNat]? = some g := by
  simp only [Font.wf, Bool.and_eq_true, beq_iff_eq] at hf
  exact ⟨_, List.getElem?_eq_getElem (by omega)⟩

/-! ## One character -/

/-- A character's pixel writes and its end, and then the advance. -/
def charThen (c : Byte) (x y : Int) (v : Byte) (s : State) : Op Nat :=
  plotThen (sourcePixels (charSources s c x y v).1) (lateOf .fontOverrun (charSources s c x y v).1) >>= fun _ =>
    pure (charSources s c x y v).2

theorem charSources_of_activeGlyph_none {s : State} {c : Byte} (h : activeGlyph s c = none) (x y : Int) (v : Byte) :
    charSources s c x y v = ([], 0) := by
  rw [charSources, h]

theorem charThen_of_activeGlyph_none {s : State} {c : Byte} (h : activeGlyph s c = none) (x y : Int) (v : Byte) :
    charThen c x y v s s = .ok 0 s := by
  rw [charThen, charSources_of_activeGlyph_none h]
  rfl

/-- A glyph's loop as its pixel writes (R60). -/
theorem drawGlyph_eq_plotThen (f : Font) (g : Glyph) (x y : Int) (v : Byte) (s : State) :
    drawGlyph f g x y v s
      = plotThen (sourcePixels ((rowMajor g.width.toNat g.height.toNat).map (glyphSource f g x y v)))
          (lateOf .fontOverrun ((rowMajor g.width.toNat g.height.toNat).map (glyphSource f g x y v))) s :=
  forEach_eq_plotThen _ _ _ _ s fun rc _ t _ => glyphPixel_eq f g x y v rc t

/-- `draw_char` is its pixel writes, or refused for want of a font record or a glyph record (R182, R187). -/
theorem drawCharOp_cases (c : Byte) (x y : Int) (v : Byte) (s : State) :
    drawCharOp c x y v s = charThen c x y v s s
      ∨ (¬ FontReady s ∧ ∃ r, drawCharOp c x y v s = .error (.refused r) s) := by
  cases hv : s.fontValid with
  | false =>
    refine .inl ((drawCharOp_of_noFont hv c x y v).trans (charThen_of_activeGlyph_none ?_ x y v).symm)
    simp [activeGlyph, hv]
  | true =>
    rw [drawCharOp, get_bind_apply, if_pos hv]
    cases hf : s.cfg.fontRom[s.fontSel.toNat]? with
    | none =>
      refine .inr ⟨fun hready => ?_, .noSuchFont, rfl⟩
      obtain ⟨f, hf', -⟩ := hready hv
      simp [hf] at hf'
    | some f =>
      simp only
      by_cases hc : c.toNat < f.first.toNat ∨ f.last.toNat < c.toNat
      · rw [if_pos hc]
        refine .inl (charThen_of_activeGlyph_none ?_ x y v).symm
        simp [activeGlyph, hv, hf, hc]
      · rw [if_neg hc]
        cases hg : f.glyphs[c.toNat - f.first.toNat]? with
        | none =>
          refine .inr ⟨fun hready => ?_, .noSuchGlyph, rfl⟩
          obtain ⟨f', hf', hwf⟩ := hready hv
          obtain rfl : f = f' := Option.some.inj (hf.symm.trans hf')
          obtain ⟨g, hg'⟩ := Font.wf.exists_glyph hwf hc
          simp [hg] at hg'
        | some g =>
          have hglyph : activeGlyph s c = some (f, g) := by simp [activeGlyph, hv, hf, hc, hg]
          refine .inl ?_
          rw [charThen, charSources, hglyph]
          simp only
          rw [bind_apply, bind_apply, drawGlyph_eq_plotThen]

theorem exec_drawChar_cases (c : Byte) (x y : Coord) (v : Byte) (s : State) :
    exec (.drawChar c x y v) s
        = finish (plotThen (sourcePixels (charSources s c x.toNat y.toNat v).1)
            (lateOf .fontOverrun (charSources s c x.toNat y.toNat v).1)) s
      ∨ (¬ FontReady s ∧ ∃ r, exec (.drawChar c x y v) s = .refused r) := by
  change finish (drawCharOp c x.toNat y.toNat v >>= fun _ => pure ()) s = _
    ∨ (_ ∧ ∃ r, finish (drawCharOp c x.toNat y.toNat v >>= fun _ => pure ()) s = .refused r)
  rcases drawCharOp_cases c x.toNat y.toNat v s with h | ⟨hno, r, h⟩
  · refine .inl (finish_congr ?_)
    rw [bind_apply, h, charThen, bind_apply]
    generalize plotThen _ _ s = r
    cases r <;> rfl
  · exact .inr ⟨hno, r, finish_refused (bind_error h)⟩

/-! ## A string -/

/-- The fault a string ends with, if any: FontOverrun at the first glyph that runs past its blob, or AssetOverrun at the
end of ASSET (R185). -/
def textLate (s : State) : List Byte → Int → Int → Byte → Option Cause
  | [], _, _, _ => some .assetOverrun
  | ch :: rest, cx, y, v =>
    if ch = 0 then none
    else if none ∈ (charSources s ch cx y v).1 then some .fontOverrun
    else textLate s rest (cx + (charSources s ch cx y v).2) y v

/-- What a string draws depends on no byte of FB. -/
theorem textSources_withFb (s : State) (m : Memory) (l : List Byte) (cx y : Int) (v : Byte) :
    textSources { s with fb := m } l cx y v = textSources s l cx y v := by
  induction l generalizing cx with
  | nil => rfl
  | cons ch l ih =>
    rw [textSources, textSources, ih]
    rfl

theorem textLate_withFb (s : State) (m : Memory) (l : List Byte) (cx y : Int) (v : Byte) :
    textLate { s with fb := m } l cx y v = textLate s l cx y v := by
  induction l generalizing cx with
  | nil => rfl
  | cons ch l ih =>
    rw [textLate, textLate, ih]
    rfl

/-- A piece of pseudocode that stops for the fault hides what follows it. -/
theorem plotThen_some_bind {α : Type} (l : List LevelPixel) (c : Cause) (f : Unit → Op α) (s : State) :
    ∃ e t, (plotThen l (some c) >>= f) s = .error e t ∧ plotThen l (some c) s = .error e t := by
  rcases plotLevels_cases l s with ⟨t, -, hrun | hrun⟩
  · have hstop : plotThen l (some c) s = .error .ended (latchFault c t) := bind_ok hrun
    exact ⟨_, _, bind_error hstop, hstop⟩
  · have hstop := plotThen_error (late := some c) hrun
    exact ⟨_, _, bind_error hstop, hstop⟩

theorem plotThen_append_ok {l l' : List LevelPixel} {late : Option Cause} {s t : State}
    (h : plotLevels l s = .ok () t) : plotThen (l ++ l') late s = plotThen l' late t := by
  rw [plotThen, bind_apply, plotLevels_append, bind_ok h, plotThen, bind_apply]

theorem plotThen_append_error {l l' : List LevelPixel} {late : Option Cause} {s t : State} {e : Stop}
    (h : plotLevels l s = .error e t) : plotThen (l ++ l') late s = .error e t :=
  plotThen_error ((plotLevels_append l l' s).trans (bind_error h))

/-- A string is its pixel writes and its end, or refused for want of a font record or a glyph record. -/
theorem drawString_cases (l : List Byte) (cx y : Int) (v : Byte) (s : State) :
    drawString l cx y v s = plotThen (sourcePixels (textSources s l cx y v)) (textLate s l cx y v) s
      ∨ (¬ FontReady s ∧ ∃ r t, drawString l cx y v s = .error (.refused r) t) := by
  induction l generalizing cx s with
  | nil => exact .inl rfl
  | cons ch l ih =>
    rw [drawString, textSources, textLate]
    by_cases hz : ch = 0
    · simp only [if_pos hz]
      exact .inl rfl
    · simp only [if_neg hz]
      rcases drawCharOp_cases ch cx y v s with h | ⟨hno, r, h⟩
      · by_cases hl : none ∈ (charSources s ch cx y v).1
        · rw [sourcePixels_append_of_mem _ hl, if_pos hl]
          rw [charThen, lateOf_of_mem hl] at h
          obtain ⟨e, t, hbind, hrun⟩ := plotThen_some_bind (sourcePixels (charSources s ch cx y v).1) .fontOverrun
            (fun _ => pure (charSources s ch cx y v).2) s
          exact .inl ((bind_error (h.trans hbind)).trans hrun.symm)
        · rw [sourcePixels_append_of_not_mem _ hl, if_neg hl]
          rw [charThen, lateOf_of_not_mem hl] at h
          rcases plotLevels_cases (sourcePixels (charSources s ch cx y v).1) s with ⟨t, ⟨m, rfl, -⟩, hrun | hrun⟩
          · rw [plotThen_append_ok hrun]
            rw [bind_ok ((plotThen_none _ s).trans hrun)] at h
            rw [bind_ok h, ← textSources_withFb s m, ← textLate_withFb s m]
            exact ih _ _
          · rw [plotThen_append_error hrun]
            exact .inl (bind_error (h.trans (bind_error (plotThen_error hrun))))
      · exact .inr ⟨hno, r, s, bind_error h⟩

theorem exec_drawText {s : State} (hv : s.fontValid = true) (p : Word32) (x y : Coord) (v : Byte) :
    exec (.drawText p x y v) s = finish (drawString (s.cfg.asset.drop p.toNat) x.toNat y.toNat v) s := if_pos hv

theorem exec_drawText_cases {s : State} (hv : s.fontValid = true) (p : Word32) (x y : Coord) (v : Byte) :
    exec (.drawText p x y v) s
        = finish (plotThen (sourcePixels (textSources s (s.cfg.asset.drop p.toNat) x.toNat y.toNat v))
            (textLate s (s.cfg.asset.drop p.toNat) x.toNat y.toNat v)) s
      ∨ (¬ FontReady s ∧ ∃ r, exec (.drawText p x y v) s = .refused r) := by
  rw [exec_drawText hv]
  rcases drawString_cases (s.cfg.asset.drop p.toNat) x.toNat y.toNat v s with h | ⟨hno, r, t, h⟩
  · exact .inl (finish_congr h)
  · exact .inr ⟨hno, r, finish_refused h⟩

/-! ## What is lit -/

theorem glyphSource_eq_none (f : Font) (g : Glyph) (x y : Int) (v : Byte) (rc : Nat × Nat) :
    glyphSource f g x y v rc = none
      ↔ f.bitmap.length ≤ g.bitmapOffset.toNat + (rc.1 * g.width.toNat + rc.2) / 8 := by
  rw [glyphSource, Option.map_eq_none_iff, List.getElem?_eq_none_iff]

/-- The font a state that has one selected draws with. -/
structure ActiveFont (s : State) (f : Font) : Prop where
  valid : s.fontValid = true
  record : s.cfg.fontRom[s.fontSel.toNat]? = some f
  wf : f.wf = true

theorem ActiveFont.ready {s : State} {f : Font} (h : ActiveFont s f) : FontReady s := fun _ => ⟨f, h.record, h.wf⟩

section
variable {s : State} {f : Font} (h : ActiveFont s f)
include h

theorem ActiveFont.activeGlyph_eq (c : Byte) : activeGlyph s c = (glyphOf f c).map fun g => (f, g) := by
  simp only [activeGlyph, if_pos h.valid, h.record, glyphOf]
  by_cases hc : c.toNat < f.first.toNat ∨ f.last.toNat < c.toNat
  · rw [if_pos hc, if_neg (by omega), Option.map_none]
  · rw [if_neg hc, if_pos (by omega)]

/-- The cursor moves by the advance of the character (R182, R184). -/
theorem ActiveFont.charSources_snd (c : Byte) (x y : Int) (v : Byte) : (charSources s c x y v).2 = advanceOf f c := by
  rw [charSources, h.activeGlyph_eq, advanceOf]
  cases glyphOf f c <;> rfl

theorem ActiveFont.charSources_fst {c : Byte} {g : Glyph} (hg : glyphOf f c = some g) (x y : Int) (v : Byte) :
    (charSources s c x y v).1 = (rowMajor g.width.toNat g.height.toNat).map (glyphSource f g x y v) := by
  rw [charSources, h.activeGlyph_eq, hg]
  rfl

theorem ActiveFont.charSources_fst_of_none {c : Byte} (hg : glyphOf f c = none) (x y : Int) (v : Byte) :
    (charSources s c x y v).1 = [] := by
  rw [charSources, h.activeGlyph_eq, hg]
  rfl

/-- A glyph's bits run past the blob (R60). -/
theorem ActiveFont.none_mem_charSources {c : Byte} {x y : Int} {v : Byte} :
    none ∈ (charSources s c x y v).1 ↔ ∃ g, glyphOf f c = some g ∧ glyphInBlob f g = false := by
  cases hg : glyphOf f c with
  | none => simp [h.charSources_fst_of_none hg]
  | some g =>
    rw [h.charSources_fst hg, none_mem_rowMajor (glyphSource_eq_none f g x y v) (by decide)]
    simp [glyphInBlob]

theorem ActiveFont.none_not_mem_charSources {c : Byte} (hc : ∀ g, glyphOf f c = some g → glyphInBlob f g = true)
    (x y : Int) (v : Byte) : none ∉ (charSources s c x y v).1 := by
  rw [h.none_mem_charSources]
  rintro ⟨g, hg, hout⟩
  simp [hc g hg] at hout

/-- The pixels of a character are the set bits of its glyph that exist. -/
theorem ActiveFont.mem_charPixels {c : Byte} {x y : Int} {v : Byte} {px py : Nat} {b : Nibble} :
    (((px : Int), (py : Int)), b) ∈ sourcePixels (charSources s c x y v).1
      ↔ charLit f c x y px py ∧ b = lowNibble v := by
  cases hg : glyphOf f c with
  | none => simp [h.charSources_fst_of_none hg, sourcePixels, charLit, hg]
  | some g =>
    rw [h.charSources_fst hg, (stopForGood_rowMajor (glyphSource_eq_none f g x y v)).mem_sourcePixels, List.mem_map]
    simp only [charLit, hg, Option.some.injEq]
    constructor
    · rintro ⟨⟨row, col⟩, hrc, hsrc⟩
      obtain ⟨hrow, hcol⟩ := mem_rowMajor.mp hrc
      obtain ⟨byte, hbyte, hpix⟩ := Option.map_eq_some_iff.mp hsrc
      split at hpix
      · rename_i hbit
        simp only [Option.some.injEq, Prod.mk.injEq] at hpix
        obtain ⟨⟨hx, hy⟩, hb⟩ := hpix
        exact ⟨⟨g, row, col, rfl, hrow, hcol, ⟨byte, hbyte, hbit⟩, hx.symm, hy.symm⟩, hb.symm⟩
      · cases hpix
    · rintro ⟨⟨g', row, col, rfl, hrow, hcol, ⟨byte, hbyte, hbit⟩, hx, hy⟩, rfl⟩
      refine ⟨(row, col), mem_rowMajor.mpr ⟨hrow, hcol⟩, ?_⟩
      rw [glyphSource, hbyte, Option.map_some, hx, hy]
      exact congrArg some (if_pos hbit)

/-- The cursor after some characters (R185). -/
def cursorAfter (f : Font) : List Byte → Int → Int
  | [], x => x
  | c :: cs, x => cursorAfter f cs (x + advanceOf f c)

end

theorem textLit_append (f : Font) (cs ds : List Byte) (x y : Int) (px py : Nat) :
    textLit f (cs ++ ds) x y px py ↔ textLit f cs x y px py ∨ textLit f ds (cursorAfter f cs x) y px py := by
  induction cs generalizing x with
  | nil => simp [textLit, cursorAfter]
  | cons c cs ih => simp only [List.cons_append, textLit, cursorAfter, ih, or_assoc]

/-- Pixels lit with one brightness have one level each. -/
theorem leaves_flat {l : List LevelPixel} {lit : Nat → Nat → Prop} {v : Byte}
    (hmem : ∀ (x y : Nat) b, (((x : Int), (y : Int)), b) ∈ l ↔ lit x y ∧ b = lowNibble v) : Leaves l (flat lit v) :=
  leaves_of_mem_iff hmem fun _ _ _ _ h h' => h.2.trans h'.2.symm

section
variable {s : State} {f : Font} (h : ActiveFont s f) {cs : List Byte} (hz : ∀ c ∈ cs, c ≠ 0)
  (hblob : ∀ c ∈ cs, ∀ g, glyphOf f c = some g → glyphInBlob f g = true)
include h hz hblob

/-- The characters of a string before its zero byte draw their glyphs, each at its own cursor, and what follows them
draws from the cursor they lead to (R185). -/
theorem ActiveFont.mem_textPixels_append (rest : List Byte) (x y : Int) (v : Byte) (px py : Nat) (b : Nibble) :
    (((px : Int), (py : Int)), b) ∈ sourcePixels (textSources s (cs ++ rest) x y v)
      ↔ (textLit f cs x y px py ∧ b = lowNibble v)
        ∨ (((px : Int), (py : Int)), b) ∈ sourcePixels (textSources s rest (cursorAfter f cs x) y v) := by
  induction cs generalizing x with
  | nil => simp [textLit, cursorAfter]
  | cons c cs ih =>
    have hin := h.none_not_mem_charSources (hblob c (List.mem_cons_self ..)) x y v
    rw [List.cons_append, textSources, if_neg (hz c (List.mem_cons_self ..)),
      sourcePixels_append_of_not_mem _ hin, List.mem_append, h.mem_charPixels, h.charSources_snd,
      ih (fun c hc => hz c (List.mem_cons_of_mem _ hc)) fun c hc => hblob c (List.mem_cons_of_mem _ hc)]
    simp only [textLit, cursorAfter, or_and_right, or_assoc]

theorem ActiveFont.textLate_append (rest : List Byte) (x y : Int) (v : Byte) :
    textLate s (cs ++ rest) x y v = textLate s rest (cursorAfter f cs x) y v := by
  induction cs generalizing x with
  | nil => rfl
  | cons c cs ih =>
    have hin := h.none_not_mem_charSources (hblob c (List.mem_cons_self ..)) x y v
    rw [List.cons_append, textLate, if_neg (hz c (List.mem_cons_self ..)), if_neg hin, h.charSources_snd,
      ih (fun c hc => hz c (List.mem_cons_of_mem _ hc)) fun c hc => hblob c (List.mem_cons_of_mem _ hc), cursorAfter]

/-- The rule of a string, given what follows its characters: what that draws, and how it ends. -/
theorem ActiveFont.paintsOrFaults_drawText (hs : s.fb.wf = true) {p : Word32} {x y : Coord} {v : Byte}
    {rest ds : List Byte} {late : Option Cause} (hstring : s.cfg.asset.drop p.toNat = cs ++ rest)
    (hrest : ∀ (px py : Nat) b, (((px : Int), (py : Int)), b)
      ∈ sourcePixels (textSources s rest (cursorAfter f cs x.toNat) y.toNat v)
        ↔ textLit f ds (cursorAfter f cs x.toNat) y.toNat px py ∧ b = lowNibble v)
    (hlate : textLate s rest (cursorAfter f cs x.toNat) y.toNat v = late) :
    PaintsOrFaults (.drawText p x y v) s (flat (textLit f (cs ++ ds) x.toNat y.toNat) v)
      fun m => endedWith late { s with fb := m } := by
  have hexec := (exec_drawText_cases h.valid p x y v).resolve_right fun hno => hno.1 h.ready
  rw [hstring, h.textLate_append hz hblob, hlate] at hexec
  refine paintsOrFaults_of_plotThen hs hexec ((if_pos h.valid).trans (by rw [hstring])) (leaves_flat fun px py b => ?_)
  rw [h.mem_textPixels_append hz hblob, hrest, textLit_append, or_and_right]

end

/-- Settles O48: with an active font the operation is the pixels of its glyph (`ActiveFont.mem_charPixels`), and raises
FontOverrun after them exactly if the glyph runs past the blob (`ActiveFont.none_mem_charSources`). -/
theorem characterDrawsItsGlyph : Obligations.CharacterDrawsItsGlyph := by
  intro s f c x y v hs hv hf hwf
  have hfont : ActiveFont s f := ⟨hv, hf, hwf⟩
  have hexec := (exec_drawChar_cases c x y v s).resolve_right fun hno => hno.1 hfont.ready
  have hpaints := paintsOrFaults_of_plotThen hs hexec rfl (leaves_flat fun _ _ _ => hfont.mem_charPixels)
  refine ⟨fun hin => ?_, fun g hg hout => ?_⟩
  · rwa [lateOf_of_not_mem (hfont.none_not_mem_charSources hin _ _ _)] at hpaints
  · rwa [lateOf_of_mem (hfont.none_mem_charSources.mpr ⟨g, hg, hout⟩)] at hpaints

/-- Settles O49: the characters before the end of the string draw their glyphs (`ActiveFont.mem_textPixels_append`,
`ActiveFont.textLate_append`), and then comes the zero byte, the end of ASSET, or a glyph that runs past its blob. -/
theorem textDrawsItsCharacters : Obligations.TextDrawsItsCharacters := by
  intro s f cs p x y v hs hv hf hwf hz hblob
  have hfont : ActiveFont s f := ⟨hv, hf, hwf⟩
  refine ⟨?_, fun hstring => ?_, fun c g rest hstring hc hg hout => ?_⟩
  · rintro ⟨rest, hstring⟩
    have hpaints := hfont.paintsOrFaults_drawText hz hblob hs (x := x) (y := y) (v := v) (ds := []) hstring
      (by simp [textSources, sourcePixels, textLit]) (if_pos rfl)
    rwa [List.append_nil] at hpaints
  · have hpaints := hfont.paintsOrFaults_drawText hz hblob hs (x := x) (y := y) (v := v) (rest := []) (ds := [])
      (by rw [hstring, List.append_nil]) (by simp [textSources, sourcePixels, textLit]) rfl
    rwa [List.append_nil] at hpaints
  · have hmissing : none ∈ (charSources s c (cursorAfter f cs x.toNat) y.toNat v).1 :=
      hfont.none_mem_charSources.mpr ⟨g, hg, hout⟩
    refine hfont.paintsOrFaults_drawText hz hblob hs hstring (fun px py b => ?_) ((if_neg hc).trans (if_pos hmissing))
    rw [textSources, if_neg hc, sourcePixels_append_of_mem _ hmissing, hfont.mem_charPixels]
    simp [textLit]

end Sys2Proof.Machine
end

section
/-! ## Proofs: lines and circles. The degenerate line (R132), the reversed line (R133), the half-pixel bound of the walk
(R136), and the octant loop of the circle (R153 to R159). -/

namespace Sys2Proof.Machine

/-! ## Degenerate and reversed lines -/

theorem upTo_self (n : Nat) : upTo n n = [n] := by simp [upTo]

/-- A horizontal line, the single pixel among them (R132). -/
theorem linePixels_horizontal (y x0 x1 : Nat) : linePixels x0 y x1 y = hlinePixels y x0 x1 := by
  by_cases hx : x0 = x1
  · subst hx
    rw [linePixels_of_vertical, vlinePixels, hlinePixels, min_self, max_self, min_self, max_self, upTo_self, upTo_self,
      List.map_singleton, List.map_singleton]
  · exact linePixels_of_horizontal hx y

theorem exec_drawVLine (x y0 y1 : Coord) (v : Byte) (s : State) :
    exec (.drawVLine x y0 y1 v) s = finish (plotAll (vlinePixels x.toNat y0.toNat y1.toNat) v) s := rfl

theorem exec_drawHLine (y x0 x1 : Coord) (v : Byte) (s : State) :
    exec (.drawHLine y x0 x1 v) s = finish (plotAll (hlinePixels y.toNat x0.toNat x1.toNat) v) s := rfl

/-- Settles O32: the pixels are those of the straight line (`linePixels_of_vertical`, `linePixels_horizontal`). -/
theorem degenerateLineDelegates : Obligations.DegenerateLineDelegates := by
  intro s p q0 q1 v
  rw [exec_drawLine, exec_drawLine, exec_drawVLine, exec_drawHLine, linePixels_of_vertical, linePixels_horizontal]
  exact ⟨rfl, rfl⟩

theorem vlinePixels_swap (x y0 y1 : Nat) : vlinePixels x y1 y0 = vlinePixels x y0 y1 := by
  rw [vlinePixels, vlinePixels, min_comm, max_comm]

theorem hlinePixels_swap (y x0 x1 : Nat) : hlinePixels y x1 x0 = hlinePixels y x0 x1 := by
  rw [hlinePixels, hlinePixels, min_comm, max_comm]

theorem isSteep_swap (x0 y0 x1 y1 : Nat) : isSteep x1 y1 x0 y0 = isSteep x0 y0 x1 y1 := by
  rw [isSteep, isSteep, ← neg_sub (x1 : Int), Int.natAbs_neg, ← neg_sub (y1 : Int), Int.natAbs_neg]

/-- Step 1 of `bresenham` forgets the order of the endpoints (R133). -/
theorem walkOf_swap {x0 y0 x1 y1 : Nat} (hx : x0 ≠ x1) (hy : y0 ≠ y1) : walkOf x1 y1 x0 y0 = walkOf x0 y0 x1 y1 := by
  cases hs : isSteep x0 y0 x1 y1
  · rw [walkOf_of_flat hs, walkOf_of_flat ((isSteep_swap ..).trans hs)]
    split_ifs
    · omega
    · rfl
    · rfl
    · omega
  · rw [walkOf_of_steep hs, walkOf_of_steep ((isSteep_swap ..).trans hs)]
    split_ifs
    · omega
    · rfl
    · rfl
    · omega

theorem linePixels_swap (x0 y0 x1 y1 : Nat) : linePixels x1 y1 x0 y0 = linePixels x0 y0 x1 y1 := by
  by_cases hx : x0 = x1
  · subst hx
    rw [linePixels_of_vertical, linePixels_of_vertical, vlinePixels_swap]
  · by_cases hy : y0 = y1
    · subst hy
      rw [linePixels_horizontal, linePixels_horizontal, hlinePixels_swap]
    · rw [linePixels_eq_map_pixel (Ne.symm hx) (Ne.symm hy), linePixels_eq_map_pixel hx hy, walkOf_swap hx hy]

/-- Settles O33: the pixels and their order are the same (`linePixels_swap`). -/
theorem lineReversalSymmetry : Obligations.LineReversalSymmetry := by
  intro s x0 y0 x1 y1 v
  rw [exec_drawLine, exec_drawLine, linePixels_swap]

/-! ## The half-pixel bound -/

/-- The cross product of `p − a` and `b − a`: how far `p` is off the line from `a` to `b`, times the line's length. -/
def crossProduct (a b p : Int × Int) : Int := (p.2 - a.2) * (b.1 - a.1) - (p.1 - a.1) * (b.2 - a.2)

theorem crossProduct_swap (a b p : Int × Int) : crossProduct b a p = -crossProduct a b p := by
  unfold crossProduct
  ring

/-- The row of column `i` is the ideal one rounded: twice the error is at most the long extent. -/
theorem shortSteps_error {dx dy : Int} (hdx : 0 < dx) (i : Int) :
    2 * (shortSteps dx dy (dx / 2) i * dx - i * dy).natAbs ≤ dx := by
  have hdiv := Int.mul_ediv_add_emod (dx / 2 - i * dy) dx
  have hlo := Int.emod_nonneg (dx / 2 - i * dy) hdx.ne'
  have hhi := Int.emod_lt_of_pos (dx / 2 - i * dy) hdx
  have herr : shortSteps dx dy (dx / 2) i * dx - i * dy = (dx / 2 - i * dy) % dx - dx / 2 := by
    unfold shortSteps
    linarith [Int.mul_comm dx ((dx / 2 - i * dy) / dx), neg_mul ((dx / 2 - i * dy) / dx) dx]
  rw [herr]
  omega

theorem Walk.Ordered.crossProduct_pixel {k : Walk} (h : k.Ordered) (i : Nat) :
    2 * (crossProduct (unTranspose k.steep k.x0 k.y0) (unTranspose k.steep k.x1 k.y1) (k.pixel i)).natAbs ≤ k.dx := by
  have herr := shortSteps_error (dy := k.dy) h.dx_pos i
  have hy : k.y1 - k.y0 = k.ystep * k.dy := by
    rw [← k.y0_add_ystep_mul_dy]
    ring
  have hcross : k.ystep * shortSteps k.dx k.dy (k.dx / 2) i * k.dx - i * (k.y1 - k.y0)
      = k.ystep * (shortSteps k.dx k.dy (k.dx / 2) i * k.dx - i * k.dy) := by
    rw [hy]
    ring
  have habs : (k.ystep * shortSteps k.dx k.dy (k.dx / 2) i * k.dx - i * (k.y1 - k.y0)).natAbs
      = (shortSteps k.dx k.dy (k.dx / 2) i * k.dx - i * k.dy).natAbs := by
    rw [hcross, Int.natAbs_mul, Walk.ystep]
    split <;> simp
  rw [← habs] at herr
  unfold crossProduct Walk.pixel
  cases k.steep
  · simpa [unTranspose, Walk.dx] using herr
  · rw [← Int.natAbs_neg] at herr
    simpa [unTranspose, Walk.dx] using herr

/-- Settles O36: the walk's pixels are within the bound of the line between its ends (`Walk.Ordered.crossProduct_pixel`),
which are the line's, in one order or the other. -/
theorem lineWalkStaysOnTheLine : Obligations.LineWalkStaysOnTheLine := by
  intro x0 y0 x1 y1 hx hy p hp
  obtain ⟨i, -, rfl⟩ := (mem_linePixels hx hy).mp hp
  have hbound := (walkOf_ordered (y0 := y0) (y1 := y1) hx).crossProduct_pixel i
  rw [(walkOf_extents x0 y0 x1 y1).1] at hbound
  have hends : 2 * (crossProduct (x0, y0) (x1, y1) ((walkOf x0 y0 x1 y1).pixel i)).natAbs
      ≤ max ((x1 : Int) - x0).natAbs ((y1 : Int) - y0).natAbs := by
    obtain ⟨e0, e1⟩ | ⟨e0, e1⟩ := walkOf_ends x0 y0 x1 y1 <;> rw [e0, e1] at hbound
    · exact_mod_cast hbound
    · rw [crossProduct_swap, Int.natAbs_neg] at hbound
      exact_mod_cast hbound
  exact hends

/-! ## The octant loop -/

/-- What the working values of the circle loop keep (R155, R156): the increments follow `x` and `y`, and `f` is the
midpoint form. -/
structure Midpoint (r : Nat) (o : Octant) : Prop where
  ddFx : o.ddFx = 2 * o.x + 1
  ddFy : o.ddFy = -2 * o.y
  f : o.f = (o.x + 1) * (o.x + 1) + o.y * o.y - o.y - (r : Int) * r

theorem midpoint_octantStart (r : Nat) : Midpoint r (octantStart r) where
  ddFx := rfl
  ddFy := rfl
  f := by
    simp only [octantStart]
    ring

theorem octantStep_y (o : Octant) : (octantStep o).y = if 0 ≤ o.f then o.y - 1 else o.y := rfl

theorem Midpoint.octantStep {r : Nat} {o : Octant} (h : Midpoint r o) : Midpoint r (octantStep o) where
  ddFx := by
    simp only [Machine.octantStep, h.ddFx]
    ring
  ddFy := by
    simp only [Machine.octantStep, h.ddFy]
    split <;> ring
  f := by
    simp only [Machine.octantStep, h.ddFx, h.ddFy]
    split <;> rw [h.f] <;> ring

theorem midpoint_iterate (r k : Nat) : Midpoint r (octantStep^[k] (octantStart r)) := by
  induction k with
  | zero => exact midpoint_octantStart r
  | succ k ih =>
    rw [Function.iterate_succ_apply']
    exact ih.octantStep

theorem iterate_octantStep_x (r k : Nat) : (octantStep^[k] (octantStart r)).x = k := by
  induction k with
  | zero => rfl
  | succ k ih =>
    rw [Function.iterate_succ_apply', (octantStep_gap _).1, ih]
    rfl

theorem iterate_octantStep_y_le (r k : Nat) : (octantStep^[k] (octantStart r)).y ≤ r := by
  induction k with
  | zero => exact le_refl _
  | succ k ih =>
    rw [Function.iterate_succ_apply']
    exact (octantStep_gap _).2.trans ih

/-- A step is taken while `x < y`, so fewer than `r` are. -/
theorem lt_radius_of_loops {r k : Nat} (h : (octantStep^[k] (octantStart r)).x < (octantStep^[k] (octantStart r)).y) :
    k < r := by
  have hx := iterate_octantStep_x r k
  have hy := iterate_octantStep_y_le r k
  omega

/-! ## The points of a circle -/

theorem mem_axisPoints {cx cy dx dy : Int} {r : Nat} :
    (cx + dx, cy + dy) ∈ axisPoints cx cy r ↔ dx = 0 ∧ dy.natAbs = r ∨ dx.natAbs = r ∧ dy = 0 := by
  simp only [axisPoints, List.mem_cons, List.not_mem_nil, or_false, Prod.mk.injEq]
  omega

theorem mem_eightPoints {cx cy x y dx dy : Int} : (cx + dx, cy + dy) ∈ eightPoints cx cy x y ↔
    dx.natAbs = x.natAbs ∧ dy.natAbs = y.natAbs ∨ dx.natAbs = y.natAbs ∧ dy.natAbs = x.natAbs := by
  simp only [eightPoints, List.mem_cons, List.not_mem_nil, or_false, Prod.mk.injEq, sub_eq_add_neg, add_right_inj,
    Int.natAbs_eq_natAbs_iff]
  grind

/-- The point at offset (dx, dy) from the centre is one of the eight reflections after the step number `k + 1`, which is
taken. -/
def OnOctant (r : Nat) (dx dy : Int) (k : Nat) : Prop :=
  (∀ j ≤ k, (octantStep^[j] (octantStart r)).x < (octantStep^[j] (octantStart r)).y)
    ∧ (dx.natAbs = (octantStep^[k + 1] (octantStart r)).x.natAbs
          ∧ dy.natAbs = (octantStep^[k + 1] (octantStart r)).y.natAbs
        ∨ dx.natAbs = (octantStep^[k + 1] (octantStart r)).y.natAbs
          ∧ dy.natAbs = (octantStep^[k + 1] (octantStart r)).x.natAbs)

theorem mem_circlePixels {cx cy r : Nat} {dx dy : Int} : ((cx : Int) + dx, (cy : Int) + dy) ∈ circlePixels cx cy r ↔
    dx = 0 ∧ dy.natAbs = r ∨ dx.natAbs = r ∧ dy = 0 ∨ ∃ k, OnOctant r dx dy k := by
  rw [circlePixels, List.mem_append, mem_axisPoints, mem_octantPixels, or_assoc]
  refine or_congr_right (or_congr_right ⟨?_, ?_⟩)
  · rintro ⟨k, -, hloop, hpoint⟩
    exact ⟨k, hloop, mem_eightPoints.mp hpoint⟩
  · rintro ⟨k, hloop, hpoint⟩
    exact ⟨k, lt_radius_of_loops (hloop k (le_refl k)), hloop, mem_eightPoints.mpr hpoint⟩

/-- Settles O43: the midpoint form holds at the start and after every step (`midpoint_iterate`), and the loop's points are
those of the steps it takes (`mem_circlePixels`). -/
theorem octantDecisionVariable : Obligations.OctantDecisionVariable := by
  refine ⟨fun r k o ho => ?_, fun cx cy r dx dy => ?_⟩
  · subst ho
    have hmid := midpoint_iterate r k
    refine ⟨?_, iterate_octantStep_x r k, hmid.ddFx, hmid.ddFy, hmid.f, octantStep_y _⟩
    rintro rfl
    rfl
  · rw [mem_circlePixels]
    simp only [OnOctant, exists_eq_left']

/-- A reflection lies within `r` of the centre along either axis. -/
theorem OnOctant.extent {r k : Nat} {dx dy : Int} (h : OnOctant r dx dy k) : dx.natAbs ≤ r ∧ dy.natAbs ≤ r := by
  obtain ⟨hloop, hpoint⟩ := h
  have hlast := hloop k (le_refl k)
  have hx := iterate_octantStep_x r k
  have hy := iterate_octantStep_y_le r k
  have hstep := octantStep_y (octantStep^[k] (octantStart r))
  rw [Function.iterate_succ_apply', (octantStep_gap _).1, hstep] at hpoint
  split at hpoint <;> omega

theorem OnOctant.exchange {r k : Nat} {dx dy : Int} (h : OnOctant r dx dy k) : OnOctant r dy dx k :=
  ⟨h.1, h.2.symm.imp And.symm And.symm⟩

/-- Settles O42: the description of the points (`mem_circlePixels`) speaks of the sizes of the offsets only, in either
order. -/
theorem circleSymmetryAndExtent : Obligations.CircleSymmetryAndExtent := by
  intro cx cy r
  refine ⟨?_, ?_, ?_, ?_, fun dx dy hmem => ?_⟩
  · simp [circlePixels, axisPoints]
  · simp [circlePixels, axisPoints]
  · simp [circlePixels, axisPoints]
  · simp [circlePixels, axisPoints]
  · rw [mem_circlePixels] at hmem
    rw [sub_eq_add_neg, sub_eq_add_neg, mem_circlePixels, mem_circlePixels, mem_circlePixels]
    simp only [OnOctant, Int.natAbs_neg, neg_eq_zero] at hmem ⊢
    refine ⟨hmem, hmem, ?_, ?_⟩
    · exact hmem.elim (fun h => .inr (.inl h.symm)) fun h => h.elim (fun h => .inl h.symm) fun ⟨k, h⟩ =>
        .inr (.inr ⟨k, OnOctant.exchange h⟩)
    · rcases hmem with h | h | ⟨k, h⟩
      · omega
      · omega
      · exact OnOctant.extent h

end Sys2Proof.Machine
end

section
/-! ## Proofs: single framings. The protocol operations of one or two framings (R201 to R205, R212 to R216, R219). -/

namespace Sys2Proof.Machine

open Sys2Proof.Statement

/-! ## One or two framings -/

/-- Settles O50: each of the three is one framing (`sendCmd_ok`, `sendDat_ok`, and their failures). -/
theorem singleFramingsAreSent : Obligations.SingleFramingsAreSent := by
  intro s v
  refine ⟨fun h => ⟨?_, ?_, ?_⟩, fun h => ⟨?_, ?_, ?_⟩⟩
  · exact finish_ok (sendCmd_ok v h)
  · exact finish_ok (sendDat_ok v h)
  · exact finish_ok (sendCmd_ok _ h)
  · exact finish_ended (sendCmd_lost v h)
  · exact finish_ended (sendDat_lost v h)
  · exact finish_ended (sendCmd_lost _ h)

/-- A command, and then a register write. -/
theorem finish_sendCmd_then {s : State} {c : Byte} {m : Op Unit} (f : State → State) (hm : ∀ t, m t = .ok () (f t)) :
    (txOk s (s.txCount + 1) = true →
      finish (do sendCmd c; m) s = .next (complete .ok (f (sentCmd c s))))
    ∧ (txOk s (s.txCount + 1) = false → finish (do sendCmd c; m) s = .next (lostCmd c s)) :=
  ⟨fun h => finish_ok ((bind_ok (sendCmd_ok c h)).trans (hm _)), fun h => finish_ended (bind_error (sendCmd_lost c h))⟩

/-- Settles O51: SET_MODE is a command framing and the write of `MODE`. -/
theorem setModeSendsAndRecords : Obligations.SetModeSendsAndRecords := by
  have key := fun (s : State) (m : BitVec 2) => finish_sendCmd_then (s := s) (c := modeCommand s.cfg.cmd (modeOf m))
    (m := setModeReg (modeOf m)) _ fun _ => rfl
  rintro s m md c (⟨rfl, rfl, rfl⟩ | ⟨rfl, rfl, rfl⟩ | ⟨rfl, rfl, rfl⟩ | ⟨rfl, rfl, rfl⟩)
  · exact key s 0
  · exact key s 1
  · exact key s 2
  · exact key s 3

/-- Settles O52: the sleep operations are a command framing and the write of `PSTATE`. -/
theorem sleepOperationsSendAndRecord : Obligations.SleepOperationsSendAndRecord := by
  intro s
  have hon := finish_sendCmd_then (s := s) (c := s.cfg.cmd.sleepOn) (m := setPState .asleep) _ fun _ => rfl
  have hoff := finish_sendCmd_then (s := s) (c := s.cfg.cmd.sleepOff) (m := setPState .awake) _ fun _ => rfl
  exact ⟨fun h => ⟨hon.1 h, hoff.1 h⟩, fun h => ⟨hon.2 h, hoff.2 h⟩⟩

/-- R216: the low four bits, zero-extended. -/
theorem brightnessByte_eq (v : Byte) : brightnessByte v = v &&& 0x0F := by
  revert v
  decide +kernel

/-- A command with its argument: the bus takes both, fails at the second, or fails at the first (R203). -/
theorem finish_sendCmd_sendDat (s : State) (c d : Byte) :
    (txOk s (s.txCount + 1) = true → txOk s (s.txCount + 2) = true →
      finish (do sendCmd c; sendDat d) s = .next (complete .ok (sentDat d (sentCmd c s))))
    ∧ (txOk s (s.txCount + 1) = true → txOk s (s.txCount + 2) = false →
      finish (do sendCmd c; sendDat d) s = .next (lostDat d (sentCmd c s)))
    ∧ (txOk s (s.txCount + 1) = false → finish (do sendCmd c; sendDat d) s = .next (lostCmd c s)) := by
  refine ⟨fun h h' => ?_, fun h h' => ?_, fun h => ?_⟩
  · exact finish_ok ((bind_ok (sendCmd_ok c h)).trans (sendDat_ok (s := sentCmd c s) d h'))
  · exact finish_ended ((bind_ok (sendCmd_ok c h)).trans (sendDat_lost (s := sentCmd c s) d h'))
  · exact finish_ended (bind_error (sendCmd_lost c h))

/-- Settles O53: both are a command and one data byte (`finish_sendCmd_sendDat`), which brightness masks. -/
theorem contrastAndBrightnessSend : Obligations.ContrastAndBrightnessSend := by
  intro s v
  obtain ⟨hc, hc', hc''⟩ := finish_sendCmd_sendDat s s.cfg.cmd.setContrast v
  obtain ⟨hb, hb', hb''⟩ := finish_sendCmd_sendDat s s.cfg.cmd.setBrightness (brightnessByte v)
  exact ⟨fun h h' => ⟨hc h h', (hb h h').trans (by rw [brightnessByte_eq]; rfl)⟩,
    fun h h' => ⟨hc' h h', (hb' h h').trans (by rw [brightnessByte_eq])⟩, fun h => ⟨hc'' h, hb'' h⟩⟩

end Sys2Proof.Machine
end

section
/-! ## Proofs: acts of the wire. An operation from 0x40 up is a list of acts, framings and what comes between them, of
which the bus takes all or fails at one framing, and then an end (R203, R209, R217, R220, R222, R240, R256). -/

namespace Sys2Proof.Machine

open Sys2Proof.Statement

/-! ## Lists of acts -/

/-- One act of an operation of the wire: a framing, an event that transmits nothing, or a display register's write. -/
inductive WireAct where
  | framing (f : Framing)
  | event (e : TransportEvent)
  | pstate (p : PState)
  | mode (m : Mode)

namespace WireAct

/-- The pseudocode of an act. -/
def op : WireAct → Op Unit
  | framing f => sendFraming f
  | event e => emit e
  | pstate p => setPState p
  | mode m => setModeReg m

/-- The state after an act that the bus does not stop. -/
def done : WireAct → State → State
  | framing f, s => framed f s
  | event e, s => emitted e s
  | pstate p, s => { s with pstate := p }
  | mode m, s => { s with mode := m }

/-- Framings transmit, and other events do not. -/
def Sound : WireAct → Prop
  | framing f => isTransmit f.2 = true
  | event e => isTransmit e = false
  | pstate _ | mode _ => True

/-- The events of an act. -/
def events : WireAct → List TransportEvent
  | framing f => framingEvents f
  | event e => [e]
  | pstate _ | mode _ => []

end WireAct

/-- Acts in order. -/
def runActs (l : List WireAct) : Op Unit := forEach l WireAct.op

/-- The state after acts that the bus does not stop. -/
def allDone (l : List WireAct) (s : State) : State := l.foldl (fun s a => a.done s) s

theorem allDone_append (l l' : List WireAct) (s : State) : allDone (l ++ l') s = allDone l' (allDone l s) :=
  List.foldl_append

theorem allDone_framings (l : List Framing) (s : State) : allDone (l.map .framing) s = framedAll l s := by
  rw [allDone, List.foldl_map]
  rfl

theorem runActs_append (l l' : List WireAct) : runActs (l ++ l') = (runActs l >>= fun _ => runActs l') := by
  funext s
  rw [bind_apply, runActs, forEach_append]
  unfold runActs
  cases forEach l WireAct.op s <;> rfl

theorem runActs_singleton (a : WireAct) : runActs [a] = a.op := forEach_singleton a _

theorem runActs_framings (l : List Framing) (s : State) : runActs (l.map .framing) s = forEach l sendFraming s :=
  forEach_map ..

/-! ## What a list of acts does -/

/-- The state without what acts write when the bus takes them. -/
def actsFrame (s : State) : State :=
  { s with wire := [], txCount := 0, cs := true, dc := true, rst := true, pstate := .reset, mode := .normal }

theorem actsFrame_done (a : WireAct) (s : State) : actsFrame (a.done s) = actsFrame s := by
  cases a with
  | event e => cases e <;> rfl
  | framing | pstate | mode => rfl

theorem actsFrame_allDone (l : List WireAct) (s : State) : actsFrame (allDone l s) = actsFrame s := by
  induction l generalizing s with
  | nil => rfl
  | cons a l ih => exact (ih (a.done s)).trans (actsFrame_done a s)

@[simp] theorem allDone_txFails (l : List WireAct) (s : State) : (allDone l s).txFails = s.txFails :=
  (congrArg State.txFails (actsFrame_allDone l s) :)
@[simp] theorem allDone_cfg (l : List WireAct) (s : State) : (allDone l s).cfg = s.cfg :=
  (congrArg State.cfg (actsFrame_allDone l s) :)
@[simp] theorem allDone_fb (l : List WireAct) (s : State) : (allDone l s).fb = s.fb :=
  (congrArg State.fb (actsFrame_allDone l s) :)
@[simp] theorem allDone_status (l : List WireAct) (s : State) : (allDone l s).status = s.status :=
  (congrArg State.status (actsFrame_allDone l s) :)
@[simp] theorem allDone_faulted (l : List WireAct) (s : State) : (allDone l s).faulted = s.faulted :=
  (congrArg State.faulted (actsFrame_allDone l s) :)
@[simp] theorem allDone_fcause (l : List WireAct) (s : State) : (allDone l s).fcause = s.fcause :=
  (congrArg State.fcause (actsFrame_allDone l s) :)
@[simp] theorem allDone_draws (l : List WireAct) (s : State) : (allDone l s).draws = s.draws :=
  (congrArg State.draws (actsFrame_allDone l s) :)

@[simp] theorem allDone_txOk (l : List WireAct) (s : State) (k : Nat) : txOk (allDone l s) k = txOk s k := by
  rw [txOk, allDone_txFails, txOk]

theorem allDone_wire (l : List WireAct) (s : State) : (allDone l s).wire = s.wire ++ l.flatMap WireAct.events := by
  induction l generalizing s with
  | nil => simp [allDone]
  | cons a l ih =>
    have ha : (a.done s).wire = s.wire ++ a.events := by
      cases a with
      | event e => exact emitted_wire e s
      | framing => rfl
      | pstate | mode => exact (List.append_nil _).symm
    rw [List.flatMap_cons, ← List.append_assoc, ← ha]
    exact ih (a.done s)

/-- The next transmits, up to number `k`, succeed. -/
def BusTakes (s : State) (k : Nat) : Prop := ∀ j, s.txCount < j → j ≤ k → txOk s j = true

theorem txCount_le_done (a : WireAct) (s : State) : s.txCount ≤ (a.done s).txCount := by
  cases a with
  | event e =>
    rw [WireAct.done, emitted_txCount]
    exact Nat.le_add_right ..
  | framing f => exact Nat.le_succ _
  | pstate | mode => exact Nat.le_refl _

/-- Acts run to their end, every transmit of theirs taken, or stop at the first framing whose transmit fails (R203). -/
theorem runActs_cases {l : List WireAct} (hl : ∀ a ∈ l, a.Sound) (s : State) :
    (runActs l s = .ok () (allDone l s) ∧ BusTakes s (allDone l s).txCount)
      ∨ ∃ before f after, l = before ++ .framing f :: after ∧ isTransmit f.2 = true
        ∧ runActs l s = .error .ended (lostIn (framingEvents f) 1 (allDone before s))
        ∧ BusTakes s (allDone before s).txCount ∧ txOk s ((allDone before s).txCount + 1) = false := by
  induction l generalizing s with
  | nil => exact .inl ⟨rfl, fun j hj hj' => absurd hj (Nat.not_lt.mpr hj')⟩
  | cons a l ih =>
    have hsound : a.Sound := hl a (List.mem_cons_self ..)
    have hhead : (a.op s = .ok () (a.done s) ∧ BusTakes s (a.done s).txCount)
        ∨ ∃ f, a = .framing f ∧ a.op s = .error .ended (lostIn (framingEvents f) 1 s)
          ∧ txOk s (s.txCount + 1) = false := by
      cases a with
      | framing f =>
        cases h : txOk s (s.txCount + 1) with
        | true =>
          refine .inl ⟨sendFraming_ok hsound h, fun j hj hj' => ?_⟩
          obtain rfl : j = s.txCount + 1 := Nat.le_antisymm hj' hj
          exact h
        | false => exact .inr ⟨f, rfl, sendFraming_lost hsound h, rfl⟩
      | event e =>
        refine .inl ⟨rfl, fun j hj hj' => ?_⟩
        rw [WireAct.done, emitted_txCount, show isTransmit e = false from hsound] at hj'
        exact absurd hj (Nat.not_lt.mpr hj')
      | pstate | mode => exact .inl ⟨rfl, fun j hj hj' => absurd hj (Nat.not_lt.mpr hj')⟩
    rcases hhead with ⟨hrun, htakes⟩ | ⟨f, rfl, hrun, hlost⟩
    · have hok : ∀ j, txOk (a.done s) j = txOk s j := allDone_txOk [a] s
      have hrest : ∀ k, BusTakes (a.done s) k → BusTakes s k := fun k hk j hj hj' =>
        (Nat.lt_or_ge (a.done s).txCount j).elim (fun h => (hok j).symm.trans (hk j h hj')) (htakes j hj)
      rcases ih (fun b hb => hl b (List.mem_cons_of_mem _ hb)) (a.done s) with
        ⟨hl, ht⟩ | ⟨before, f, after, rfl, hf, hl, ht, hlost⟩
      · exact .inl ⟨(forEach_cons_ok hrun).trans hl, hrest _ ht⟩
      · exact .inr ⟨a :: before, f, after, rfl, hf, (forEach_cons_ok hrun).trans hl, hrest _ ht,
          (hok _).symm.trans hlost⟩
    · exact .inr ⟨[], f, l, rfl, hsound, forEach_cons_error hrun, fun j hj hj' => absurd hj (Nat.not_lt.mpr hj'),
        hlost⟩

/-! ## The end of an operation -/

/-- How an operation of the wire ends when the bus takes all its acts. -/
inductive WireEnd where
  | ok
  | fault (c : Cause)
  | grayRange

/-- The pseudocode of an end. -/
def WireEnd.op : WireEnd → Op Unit
  | ok => pure ()
  | fault c => raiseFault c
  | grayRange => endWith .errGrayRange

/-- The next state of an operation that has come to its end. -/
def WireEnd.final : WireEnd → State → State
  | ok, s => complete .ok s
  | fault c, s => latchFault c s
  | grayRange, s => complete .errGrayRange s

/-- Acts, and then an end. -/
def wireThen (l : List WireAct) (e : WireEnd) : Op Unit := runActs l >>= fun _ => e.op

theorem wireThen_ok (l : List WireAct) : wireThen l .ok = runActs l := by
  funext s
  rw [wireThen, bind_apply]
  cases runActs l s <;> rfl

theorem wireThen_append (l l' : List WireAct) (e : WireEnd) :
    wireThen (l ++ l') e = (runActs l >>= fun _ => wireThen l' e) := by
  rw [wireThen, runActs_append, bind_assoc]
  rfl

theorem finish_wireThen_ok {l : List WireAct} {e : WireEnd} {s t : State} (h : runActs l s = .ok () t) :
    finish (wireThen l e) s = .next (e.final t) := by
  have hrun : wireThen l e s = e.op t := bind_ok h
  cases e with
  | ok => exact finish_ok hrun
  | fault | grayRange => exact finish_ended hrun

theorem finish_wireThen_ended {l : List WireAct} {e : WireEnd} {s t : State} (h : runActs l s = .error .ended t) :
    finish (wireThen l e) s = .next t :=
  finish_ended (bind_error h)

/-! ## The acts of each operation -/

/-- What INITIALIZE does before its body (R209). -/
def initOpening : List WireAct :=
  [.pstate .reset, .event .pinResetLow, .event (.delayMs tResetLowMs), .event .pinResetHigh,
    .event (.delayMs tSettleMs)]

/-- What INITIALIZE does after its body (R209). -/
def initClosing (c : Config) : List WireAct :=
  [.mode .normal, .event (.delayMs c.tStabMs), .framing (cmdFraming c.cmd.displayOn), .pstate .awake,
    .event (.delayMs tPostMs)]

def initActs (c : Config) : List WireAct :=
  initOpening ++ ((c.initBody.map initFraming).map .framing ++ initClosing c)

/-- The framings of a transfer, up to the fault of a byte that does not exist (R222). -/
def transferActs (c : Config) (m : Memory) (p n : Nat) : List Framing :=
  if n = 0 ∨ p + n ≤ c.fbBytes then transferFramings c m p n else [cmdFraming c.cmd.writeRam]

def transferEnd (c : Config) (p n : Nat) : WireEnd :=
  if n = 0 ∨ p + n ≤ c.fbBytes then .ok else .fault .storageOverrun

/-- The table UPLOAD_GRAYSCALE reads, as far as ASSET goes (R217). -/
def grayTable (c : Config) (p : Word32) : List Byte := (c.asset.drop p.toNat).take 16

/-- The window PUSH programs (R240). -/
def fullWindowFramings (c : Config) : List Framing :=
  windowFramings c.fullWindow.startCol c.fullWindow.endCol c.fullWindow.startRow c.fullWindow.endRow

/-- The acts of an operation when the bus takes all of them; what draws has none. -/
def wireActs (i : Instr) (s : State) : List WireAct :=
  match i with
  | .sendCommand v => [.framing (cmdFraming v)]
  | .sendData v => [.framing (datFraming v)]
  | .initDisplay => initActs s.cfg
  | .setMode m => [.framing (cmdFraming (modeCommand s.cfg.cmd (modeOf m))), .mode (modeOf m)]
  | .sleepOn => [.framing (cmdFraming s.cfg.cmd.sleepOn), .pstate .asleep]
  | .sleepOff => [.framing (cmdFraming s.cfg.cmd.sleepOff), .pstate .awake]
  | .setContrast v => [.framing (cmdFraming s.cfg.cmd.setContrast), .framing (datFraming v)]
  | .setBrightness v => [.framing (cmdFraming s.cfg.cmd.setBrightness), .framing (datFraming (brightnessByte v))]
  | .uploadGrayscale p =>
    if (grayTable s.cfg p).length = 16 ∧ ∀ b ∈ grayTable s.cfg p, b.toNat ≤ grayMax then
      (uploadFramings s.cfg (grayTable s.cfg p)).map .framing
    else []
  | .resetGrayscale => [.framing (cmdFraming s.cfg.cmd.defaultGray)]
  | .setWindow sc ec sr er => (windowFramings sc ec sr er).map .framing
  | .transfer p n => (transferActs s.cfg s.fb p.toNat n.toNat).map .framing
  | .push ox oy =>
    (fullWindowFramings s.cfg
      ++ transferActs s.cfg s.fb (pushOffset s.cfg ox oy) (panelBytes s.cfg)).map .framing
  | .configure .. | .clear .. | .setPixel .. | .drawVLine .. | .drawHLine .. | .drawLine .. | .drawAaLine ..
  | .drawRect .. | .drawRectFilled .. | .drawCircle .. | .drawBitmap8bpp .. | .drawBitmap4bpp .. | .selectFont ..
  | .drawChar .. | .drawText .. => []

/-- How an operation of the wire ends when the bus takes all its acts (R217, R218, R222). -/
def wireEnd (i : Instr) (s : State) : WireEnd :=
  match i with
  | .uploadGrayscale p =>
    if (grayTable s.cfg p).length = 16 then
      if ∀ b ∈ grayTable s.cfg p, b.toNat ≤ grayMax then .ok else .grayRange
    else .fault .assetOverrun
  | .transfer p n => transferEnd s.cfg p.toNat n.toNat
  | .push ox oy => transferEnd s.cfg (pushOffset s.cfg ox oy) (panelBytes s.cfg)
  | _ => .ok

theorem sound_framings {l : List Framing} (h : transmits l) : ∀ a ∈ l.map WireAct.framing, a.Sound := by
  intro a ha
  obtain ⟨f, hf, rfl⟩ := List.mem_map.mp ha
  exact h f hf

theorem transmits_append {l l' : List Framing} (h : transmits l) (h' : transmits l') : transmits (l ++ l') :=
  fun f hf => (List.mem_append.mp hf).elim (h f) (h' f)

theorem transmits_windowFramings (sc ec sr er : Byte) : transmits (windowFramings sc ec sr er) := by
  simp [transmits, windowFramings, cmdFraming, datFraming, isTransmit]

theorem transmits_uploadFramings (c : Config) (t : List Byte) : transmits (uploadFramings c t) := by
  simp [transmits, uploadFramings, cmdFraming, datFraming, isTransmit]

theorem transmits_transferActs (c : Config) (m : Memory) (p n : Nat) : transmits (transferActs c m p n) := by
  unfold transferActs
  split <;> simp [transmits, transferFramings, cmdFraming, bulkFraming, isTransmit]

theorem transmits_initFramings (body : List InitItem) : transmits (body.map initFraming) := by
  simp [transmits, initFraming, isTransmit]

theorem sound_append {l l' : List WireAct} (h : ∀ a ∈ l, a.Sound) (h' : ∀ a ∈ l', a.Sound) :
    ∀ a ∈ l ++ l', a.Sound :=
  fun a ha => (List.mem_append.mp ha).elim (h a) (h' a)

theorem sound_initActs (c : Config) : ∀ a ∈ initActs c, a.Sound := by
  refine sound_append ?_ (sound_append (sound_framings (transmits_initFramings _)) ?_)
  · simp [initOpening, WireAct.Sound, isTransmit]
  · simp [initClosing, WireAct.Sound, isTransmit, cmdFraming]

theorem wireActs_sound (i : Instr) (s : State) : ∀ a ∈ wireActs i s, a.Sound := by
  cases i with
  | initDisplay => exact sound_initActs s.cfg
  | uploadGrayscale p =>
    simp only [wireActs]
    split
    · exact sound_framings (transmits_uploadFramings _ _)
    · nofun
  | setWindow sc ec sr er => exact sound_framings (transmits_windowFramings sc ec sr er)
  | transfer p n => exact sound_framings (transmits_transferActs _ _ _ _)
  | push ox oy =>
    exact sound_framings (transmits_append (transmits_windowFramings _ _ _ _) (transmits_transferActs _ _ _ _))
  | _ => simp [wireActs, WireAct.Sound, cmdFraming, datFraming, isTransmit]

/-- A transfer from a state with the given parameters and FB (R222). -/
theorem transferSequence_eq_wireThen {c : Config} {s : State} (hc : s.cfg.fbBytes = c.fbBytes) (p n : Nat) :
    transferSequence c p n s
      = wireThen ((transferActs c s.fb p n).map .framing) (transferEnd c p n) s := by
  unfold transferActs transferEnd
  by_cases hr : n = 0 ∨ p + n ≤ c.fbBytes
  · rw [if_pos hr, if_pos hr, wireThen_ok, runActs_framings]
    exact transferSequence_eq c (by rwa [hc])
  · rw [if_neg hr, if_neg hr]
    have hrun := runActs_framings [cmdFraming c.cmd.writeRam] s
    rw [forEach_singleton] at hrun
    cases h : txOk s (s.txCount + 1) with
    | true =>
      rw [transferSequence_fault c h (by rwa [hc])]
      rw [sendFraming_ok (f := cmdFraming c.cmd.writeRam) rfl h] at hrun
      exact (bind_ok (f := fun _ => (WireEnd.fault .storageOverrun).op) hrun).symm
    | false =>
      rw [transferSequence_lost c h]
      rw [sendFraming_lost (f := cmdFraming c.cmd.writeRam) rfl h] at hrun
      exact (bind_error hrun).symm

theorem runActs_pair (a b : WireAct) : runActs [a, b] = (a.op >>= fun _ => b.op) := by
  change (a.op >>= fun _ => runActs [b]) = _
  rw [runActs_singleton]

theorem runActs_cons (a : WireAct) (l : List WireAct) : runActs (a :: l) = (a.op >>= fun _ => runActs l) := rfl

theorem initSequence_eq_runActs (c : Config) : initSequence c = runActs (initActs c) := by
  have hbody : forEach c.initBody sendInitItem = runActs ((c.initBody.map initFraming).map .framing) := by
    funext s
    rw [forEach_sendInitItem, runActs_framings]
  have hclosing : runActs (initClosing c) = (do
      setModeReg .normal
      emit (.delayMs c.tStabMs)
      sendCmd c.cmd.displayOn
      setPState .awake
      emit (.delayMs tPostMs)) := by
    simp only [initClosing, runActs_cons _ (_ :: _), runActs_singleton]
    rfl
  simp only [initActs, initOpening, List.cons_append, List.nil_append, runActs_cons, runActs_append, hclosing, ← hbody]
  rfl

/-- UPLOAD_GRAYSCALE reads its table, checks it, and sends (R217, R218). -/
theorem exec_uploadGrayscale_wire (p : Word32) (s : State) :
    exec (.uploadGrayscale p) s
      = finish (wireThen (wireActs (.uploadGrayscale p) s) (wireEnd (.uploadGrayscale p) s)) s := by
  change finish (assetReadOut 16 p.toNat >>= fun t => uploadTable s.cfg t) s = _
  have htake : grayTable s.cfg p = (s.cfg.asset.drop p.toNat).take 16 := rfl
  simp only [wireActs, wireEnd]
  refine finish_congr ?_
  by_cases hlen : (grayTable s.cfg p).length = 16
  · rw [bind_ok (assetReadOut_ok 16 p.toNat s hlen), ← htake]
    by_cases hgray : ∀ b ∈ grayTable s.cfg p, b.toNat ≤ grayMax
    · rw [if_pos ⟨hlen, hgray⟩, if_pos hlen, if_pos hgray, uploadTable_eq hgray, wireThen_ok, runActs_framings]
    · rw [if_neg (fun h => hgray h.2), if_pos hlen, if_neg hgray, uploadTable, if_pos (by simpa using hgray)]
      rfl
  · have hshort : (grayTable s.cfg p).length < 16 := by
      have := List.length_take_le 16 (s.cfg.asset.drop p.toNat)
      rw [htake] at hlen ⊢
      omega
    rw [bind_error (assetReadOut_fault 16 p.toNat s hshort), if_neg (fun h => hlen h.1), if_neg hlen]
    rfl

/-- PUSH is the framings of its window and a transfer (R240). -/
theorem exec_push_wire (ox oy : Coord) (s : State) :
    exec (.push ox oy) s = finish (wireThen (wireActs (.push ox oy) s) (wireEnd (.push ox oy) s)) s := by
  change finish (windowSequence _ _ _ _ >>= fun _ => transferSequence s.cfg _ _) s = _
  refine finish_congr ?_
  rw [wireActs, List.map_append, wireThen_append, bind_apply, bind_apply, windowSequence_eq, ← fullWindowFramings,
    ← runActs_framings]
  rcases runActs_cases (sound_framings (transmits_windowFramings _ _ _ _)) s with ⟨hrun, -⟩ | ⟨_, _, _, -, -, hrun, -⟩
  · rw [fullWindowFramings, hrun, wireEnd]
    dsimp only
    rw [transferSequence_eq_wireThen (by rw [allDone_cfg]), allDone_fb]
  · rw [fullWindowFramings, hrun]

theorem exec_wire_of_ok {i : Instr} {s : State} (he : wireEnd i s = .ok)
    (h : exec i s = finish (runActs (wireActs i s)) s) :
    exec i s = finish (wireThen (wireActs i s) (wireEnd i s)) s := by
  rw [he, wireThen_ok, h]

/-- Every operation from 0x40 up is its acts and its end. -/
theorem exec_wire {i : Instr} (hi : 0x40 ≤ i.opcode.toNat) (s : State) :
    exec i s = finish (wireThen (wireActs i s) (wireEnd i s)) s := by
  cases i with
  | sendCommand | sendData | resetGrayscale =>
    refine exec_wire_of_ok rfl ?_
    rw [wireActs, runActs_singleton]
    rfl
  | setMode | sleepOn | sleepOff | setContrast | setBrightness =>
    refine exec_wire_of_ok rfl ?_
    rw [wireActs, runActs_pair]
    rfl
  | initDisplay =>
    refine exec_wire_of_ok rfl ?_
    rw [wireActs, ← initSequence_eq_runActs]
    rfl
  | uploadGrayscale p => exact exec_uploadGrayscale_wire p s
  | setWindow sc ec sr er =>
    refine exec_wire_of_ok rfl (finish_congr ?_)
    rw [wireActs, windowSequence_eq, runActs_framings]
  | transfer p n => exact finish_congr (transferSequence_eq_wireThen rfl p.toNat n.toNat)
  | push ox oy => exact exec_push_wire ox oy s
  | configure | clear | setPixel | drawVLine | drawHLine | drawLine | drawAaLine | drawRect | drawRectFilled
  | drawCircle | drawBitmap8bpp | drawBitmap4bpp | selectFont | drawChar | drawText =>
    exact absurd hi (by simp [Instr.opcode])

end Sys2Proof.Machine
end

section
/-! ## Proofs: what the operations of the wire send, and where a failed transmit ends them (O54 to O60). -/

namespace Sys2Proof.Machine

open Sys2Proof.Statement

/-! ## Framings, and then an end -/

/-- Framings that the bus takes all, and then the end of the operation. -/
theorem finish_framings_ok {l : List Framing} {s : State} (hl : transmits l) (hb : busOk s l.length = true)
    (e : WireEnd) : finish (wireThen (l.map .framing) e) s = .next (e.final (framedAll l s)) :=
  finish_wireThen_ok ((runActs_framings l s).trans (framings_ok hl hb))

/-- Framings whose `k`-th transmit is the first to fail. -/
theorem finish_framings_lost {l : List Framing} {s : State} {k : Nat} (hl : transmits l) (hk : 1 ≤ k)
    (hkl : k ≤ l.length) (hb : busOk s (k - 1) = true) (hx : txOk s (s.txCount + k) = false) (e : WireEnd) :
    finish (wireThen (l.map .framing) e) s = .next (lostIn (l.flatMap framingEvents) k s) := by
  obtain ⟨j, rfl⟩ := Nat.exists_eq_add_of_le' hk
  exact finish_wireThen_ended ((runActs_framings l s).trans (framings_lost hl hkl hb hx))

theorem finish_framings_lost_first {f : Framing} {l : List Framing} {s : State} (hl : transmits (f :: l))
    (hx : txOk s (s.txCount + 1) = false) (e : WireEnd) :
    finish (wireThen ((f :: l).map .framing) e) s = .next (lostIn (framingEvents f) 1 s) := by
  rw [finish_framings_lost hl (Nat.le_refl 1) (by simp) rfl hx, List.flatMap_cons,
    lostIn_append (Nat.le_refl 1) (by rfl)]

/-! ## INITIALIZE -/

/-- The events before the body of INITIALIZE (R209). -/
def resetPulse : List TransportEvent := [.pinResetLow, .delayMs 1, .pinResetHigh, .delayMs 50]

/-- The state before the body of INITIALIZE. -/
def initOpened (s : State) : State := { s with pstate := .reset, wire := s.wire ++ resetPulse, rst := true }

theorem runActs_initOpening (s : State) : runActs initOpening s = .ok () (initOpened s) := by
  have h : allDone initOpening s = initOpened s := by
    simp [allDone, initOpening, WireAct.done, emitted, driveLatch, initOpened, resetPulse, tResetLowMs, tSettleMs]
  rw [← h]
  rfl

theorem finish_initActs (c : Config) (s : State) : finish (runActs (initActs c)) s
    = finish (runActs ((c.initBody.map initFraming).map .framing) >>= fun _ => runActs (initClosing c))
      (initOpened s) := by
  unfold finish
  rw [initActs, runActs_append, bind_ok (runActs_initOpening s), runActs_append]

/-- The state before the power-on of INITIALIZE. -/
def initStable (c : Config) (s : State) : State := { s with wire := s.wire ++ [.delayMs c.tStabMs], mode := .normal }

/-- What INITIALIZE does after the power-on. -/
def initDone : List WireAct := [.pstate .awake, .event (.delayMs tPostMs)]

theorem runActs_initClosing_ok (c : Config) {s : State} (h : txOk s (s.txCount + 1) = true) :
    runActs (initClosing c) s = .ok () { s with
      wire := s.wire ++ [.delayMs c.tStabMs] ++ cmdEvents c.cmd.displayOn ++ [.delayMs 50]
      txCount := s.txCount + 1, mode := .normal, pstate := .awake, cs := true, dc := false } :=
  bind_ok (m := sendFraming (cmdFraming c.cmd.displayOn)) (f := fun _ => runActs initDone)
    (s := initStable c s) (sendFraming_ok rfl h)

theorem runActs_initClosing_lost (c : Config) {s : State} (h : txOk s (s.txCount + 1) = false) :
    runActs (initClosing c) s = .error .ended
      (lostIn (cmdEvents c.cmd.displayOn) 1 (initStable c s)) :=
  bind_error (m := sendFraming (cmdFraming c.cmd.displayOn)) (f := fun _ => runActs initDone)
    (s := initStable c s) (sendFraming_lost rfl h)

theorem initFramings_events (body : List InitItem) : (body.map initFraming).flatMap framingEvents
    = body.flatMap fun i => if i.isData then datEvents i.byte else cmdEvents i.byte := by
  rw [List.flatMap_map]
  congr 1
  funext ⟨d, b, _⟩
  cases d <;> rfl

/-- Settles O54: INITIALIZE opens with no transmit, sends its body, and closes with one (`finish_initActs`). -/
theorem initializeSendsItsSequence : Obligations.InitializeSendsItsSequence := by
  rintro s pulse body rfl rfl
  have hrun : exec .initDisplay s = _ := (congrArg (finish · s) (initSequence_eq_runActs s.cfg)).trans
    (finish_initActs s.cfg s)
  have hsound := transmits_initFramings s.cfg.initBody
  have hlen : (s.cfg.initBody.map initFraming).length = s.cfg.initBody.length := List.length_map ..
  have hbody : busOk s s.cfg.initBody.length = true →
      runActs ((s.cfg.initBody.map initFraming).map .framing) (initOpened s)
        = .ok () (framedAll (s.cfg.initBody.map initFraming) (initOpened s)) := fun h =>
    (runActs_framings ..).trans (framings_ok (s := initOpened s) hsound (hlen ▸ h))
  have hnext : ∀ b, txOk s (s.txCount + s.cfg.initBody.length + 1) = b →
      txOk (framedAll (s.cfg.initBody.map initFraming) (initOpened s))
        ((framedAll (s.cfg.initBody.map initFraming) (initOpened s)).txCount + 1) = b := by
    rintro b rfl
    rw [framedAll_eq, hlen]
    rfl
  rw [hrun, ← initFramings_events]
  refine ⟨fun h => ?_, fun k hk hkl hb hx => ?_, fun hb hx => ?_⟩
  · have hx := busOk_iff.mp h (s.txCount + s.cfg.initBody.length + 1) (by omega) (by omega)
    rw [finish_ok ((bind_ok (hbody (busOk_mono h (Nat.le_succ _)))).trans (runActs_initClosing_ok s.cfg (hnext _ hx))),
      framedAll_eq, hlen]
    rfl
  · obtain ⟨j, rfl⟩ := Nat.exists_eq_add_of_le' hk
    refine finish_ended (bind_error ((runActs_framings ..).trans ?_))
    rw [framings_lost (s := initOpened s) hsound (hlen.symm ▸ hkl) hb hx]
    rfl
  · rw [finish_ended ((bind_ok (hbody hb)).trans (runActs_initClosing_lost s.cfg (hnext _ hx))), framedAll_eq, hlen]
    rfl

/-! ## UPLOAD_GRAYSCALE -/

theorem uploadFramings_events (c : Config) (t : List Byte) : (uploadFramings c t).flatMap framingEvents
    = cmdEvents c.cmd.setGrayTable ++ t.flatMap datEvents ++ cmdEvents c.cmd.enableGrayTable := by
  rw [uploadFramings, List.flatMap_cons, List.flatMap_append, List.flatMap_map, List.flatMap_singleton,
    List.append_assoc]
  rfl

theorem uploadFramings_getLast? (c : Config) (t : List Byte) :
    (uploadFramings c t).getLast? = some (cmdFraming c.cmd.enableGrayTable) :=
  List.getLast?_concat (l := cmdFraming c.cmd.setGrayTable :: t.map datFraming)

/-- Settles O55: the upload is the framings of its table. -/
theorem grayscaleUploadSends : Obligations.GrayscaleUploadSends := by
  rintro s p t ev ht hlen hgray rfl
  obtain rfl : grayTable s.cfg p = t := ht
  rw [← uploadFramings_events, exec_uploadGrayscale_wire]
  simp only [wireActs, wireEnd]
  have hgray' : ∀ b ∈ grayTable s.cfg p, b.toNat ≤ grayMax := hgray
  rw [if_pos ⟨hlen, hgray'⟩, if_pos hlen, if_pos hgray']
  have hsends := transmits_uploadFramings s.cfg (grayTable s.cfg p)
  have hcount : (uploadFramings s.cfg (grayTable s.cfg p)).length = 18 := by
    rw [uploadFramings, List.length_cons, List.length_append, List.length_map, hlen]
    rfl
  refine ⟨fun hb => ?_, fun k hk hk18 hb hx => finish_framings_lost hsends hk (hcount.symm ▸ hk18) hb hx _⟩
  rw [finish_framings_ok hsends (hcount.symm ▸ hb), framedAll_eq, hcount, uploadFramings_getLast?]
  rfl

/-- Settles O56: a table with an entry out of range, or too short, sends nothing. -/
theorem grayscaleUploadRejects : Obligations.GrayscaleUploadRejects := by
  intro s p t ht
  obtain rfl : grayTable s.cfg p = t := ht
  rw [exec_uploadGrayscale_wire]
  simp only [wireActs, wireEnd]
  refine ⟨fun hlen hgray => ?_, fun hlen => ?_⟩
  · obtain ⟨b, hb, hbig⟩ := hgray
    have hbad : ¬∀ b ∈ grayTable s.cfg p, b.toNat ≤ grayMax := fun h => absurd (h b hb) (Nat.not_le.mpr hbig)
    rw [if_neg fun h => hbad h.2, if_pos hlen, if_neg hbad]
    rfl
  · rw [if_neg fun h => absurd h.1 (Nat.ne_of_lt hlen), if_neg (Nat.ne_of_lt hlen)]
    rfl

/-! ## SET_WINDOW -/

/-- Settles O57: SET_WINDOW is the six framings of a window. -/
theorem setWindowSends : Obligations.SetWindowSends := by
  intro s sc ec sr er
  rw [exec_wire (by simp [Instr.opcode]) s]
  have hsends := transmits_windowFramings sc ec sr er
  refine ⟨fun hb => ?_, fun k hk hk6 hb hx => finish_framings_lost hsends hk hk6 hb hx _⟩
  rw [wireActs, finish_framings_ok hsends hb, framedAll_eq]
  rfl

/-! ## TRANSFER -/

theorem transferActs_of_fits {c : Config} {p n : Nat} (h : n = 0 ∨ p + n ≤ c.fbBytes) (m : Memory) :
    transferActs c m p n = transferFramings c m p n ∧ transferEnd c p n = .ok :=
  ⟨if_pos h, if_pos h⟩

theorem transferActs_of_overrun {c : Config} {p n : Nat} (hn : n ≠ 0) (h : c.fbBytes < p + n) (m : Memory) :
    transferActs c m p n = [cmdFraming c.cmd.writeRam] ∧ transferEnd c p n = .fault .storageOverrun :=
  have h' : ¬(n = 0 ∨ p + n ≤ c.fbBytes) := by omega
  ⟨if_neg h', if_neg h'⟩

/-- A transfer begins with the RAM-write command. -/
theorem transferActs_eq_cons (c : Config) (m : Memory) (p n : Nat) :
    ∃ rest, transferActs c m p n = cmdFraming c.cmd.writeRam :: rest := by
  unfold transferActs
  split
  · exact ⟨_, rfl⟩
  · exact ⟨[], rfl⟩

/-- Settles O58: the cases of `transferActs` and `transferEnd`, and the transmit that fails. -/
theorem transferSendsTheBytes : Obligations.TransferSendsTheBytes := by
  intro s p n
  have hexec : exec (.transfer p n) s = finish (wireThen ((transferActs s.cfg s.fb p.toNat n.toNat).map .framing)
    (transferEnd s.cfg p.toNat n.toNat)) s := exec_wire (by simp [Instr.opcode]) s
  have hsends := transmits_transferActs s.cfg s.fb p.toNat n.toNat
  refine ⟨fun hx => ?_, fun hn hover hx => ?_, fun hfits ev hev => ?_⟩
  · obtain ⟨rest, hrest⟩ := transferActs_eq_cons s.cfg s.fb p.toNat n.toNat
    rw [hrest] at hexec hsends
    rw [hexec, finish_framings_lost_first hsends hx]
    rfl
  · have hn' : n.toNat ≠ 0 := fun h => hn (BitVec.eq_of_toNat_eq h)
    obtain ⟨hl, he⟩ := transferActs_of_overrun hn' hover s.fb
    rw [hl] at hsends
    rw [hexec, hl, he, finish_framings_ok hsends (by simpa [busOk] using hx)]
    rfl
  · have hfits' : n.toNat = 0 ∨ p.toNat + n.toNat ≤ s.cfg.fbBytes := hfits.imp_left (congrArg BitVec.toNat)
    obtain ⟨hl, he⟩ := transferActs_of_fits hfits' s.fb
    rw [hl] at hsends
    subst hev
    rw [hexec, hl, he]
    refine ⟨fun hb => ?_, fun hx hx' => ?_⟩
    · rw [finish_framings_ok hsends hb, framedAll_eq]
      rfl
    · rw [finish_framings_lost hsends (by decide) (Nat.le_refl 2) (by simpa [busOk] using hx) hx']
      rfl

/-! ## PUSH -/

/-- Settles O59: PUSH is the framings of the full window, and then a transfer's. -/
theorem pushSendsTheWindowAndTheBytes : Obligations.PushSendsTheWindowAndTheBytes := by
  rintro s ox oy off n ev hoff hn rfl
  have hexec : exec (.push ox oy) s = finish (wireThen
      ((fullWindowFramings s.cfg ++ transferActs s.cfg s.fb off n).map .framing) (transferEnd s.cfg off n)) s := by
    rw [hoff, hn]
    exact exec_push_wire ox oy s
  have hsends : transmits (fullWindowFramings s.cfg ++ transferActs s.cfg s.fb off n) :=
    transmits_append (transmits_windowFramings _ _ _ _) (transmits_transferActs _ _ _ _)
  refine ⟨fun k hk hk7 hb hx => ?_, fun hn hover hb => ?_, fun hfits => ⟨fun hb => ?_, fun hb hx => ?_⟩⟩
  · obtain ⟨rest, hrest⟩ := transferActs_eq_cons s.cfg s.fb off n
    have hsplit : fullWindowFramings s.cfg ++ transferActs s.cfg s.fb off n
        = (fullWindowFramings s.cfg ++ [cmdFraming s.cfg.cmd.writeRam]) ++ rest := by rw [hrest]; simp
    rw [hsplit] at hexec hsends
    have hlen : k ≤ ((fullWindowFramings s.cfg ++ [cmdFraming s.cfg.cmd.writeRam]) ++ rest).length := by
      rw [List.length_append]
      exact Nat.le_trans hk7 (Nat.le_add_right 7 _)
    have hcut := lostIn_append (ev := (fullWindowFramings s.cfg ++ [cmdFraming s.cfg.cmd.writeRam]).flatMap
      framingEvents) (ev' := rest.flatMap framingEvents) hk (Nat.mul_le_mul_left 4 hk7) s
    rw [hexec, finish_framings_lost hsends hk hlen hb hx, List.flatMap_append, hcut]
    rfl
  · obtain ⟨hl, he⟩ := transferActs_of_overrun hn hover s.fb
    rw [hl] at hsends
    rw [hexec, hl, he, finish_framings_ok hsends hb, framedAll_eq]
    rfl
  · obtain ⟨hl, he⟩ := transferActs_of_fits hfits s.fb
    rw [hl] at hsends
    rw [hexec, hl, he, finish_framings_ok hsends hb, framedAll_eq, List.append_assoc]
    rfl
  · obtain ⟨hl, he⟩ := transferActs_of_fits hfits s.fb
    rw [hl] at hsends
    rw [hexec, hl, he, finish_framings_lost hsends (by decide) (Nat.le_refl 8) hb hx]
    rfl

theorem exec_transfer (p n : Word32) (s : State) :
    exec (.transfer p n) s = finish (transferSequence s.cfg p.toNat n.toNat) s := rfl

theorem complete_status_restored {s t : State} (h : t.status = s.status) (c : StatusCode) :
    { complete c t with status := s.status } = t := by
  rw [← h]
  rfl

/-- Settles O60: the window either goes out whole, and what PUSH does then is a transfer, or a transmit fails and both
end there. -/
theorem pushIsWindowThenTransfer : Obligations.PushIsWindowThenTransfer := by
  intro s t ox oy p n hp hn hwin
  have hpush : exec (.push ox oy) s = finish (windowSequence s.cfg.fullWindow.startCol s.cfg.fullWindow.endCol
      s.cfg.fullWindow.startRow s.cfg.fullWindow.endRow >>= fun _ => transferSequence s.cfg p.toNat n.toNat) s := by
    rw [hp, hn]
    rfl
  have hset : finish (windowSequence s.cfg.fullWindow.startCol s.cfg.fullWindow.endCol s.cfg.fullWindow.startRow
      s.cfg.fullWindow.endRow) s = .next t := hwin
  rw [windowSequence_eq, ← fullWindowFramings] at hpush hset
  have hwindow : transmits (fullWindowFramings s.cfg) := transmits_windowFramings _ _ _ _
  rcases runActs_cases (sound_framings hwindow) s with ⟨hrun, -⟩ | ⟨_, f, _, -, -, hrun, -⟩
  · rw [runActs_framings] at hrun
    rw [finish_ok hrun] at hset
    obtain rfl := Host.Outcome.next.inj hset
    refine ⟨fun _ => ?_, fun h => absurd (show (0 : Byte) = 2 from h) (by decide)⟩
    rw [complete_status_restored (allDone_status _ s), hpush, exec_transfer, allDone_cfg]
    unfold finish
    rw [bind_ok hrun]
  · rw [runActs_framings] at hrun
    rw [finish_ended hrun] at hset
    obtain rfl := Host.Outcome.next.inj hset
    exact ⟨fun h => absurd (show (2 : Byte) = 0 from h) (by decide),
      fun _ => hpush.trans (finish_ended (bind_error hrun))⟩

end Sys2Proof.Machine
end

section
/-! ## Proofs: how an operation ends. Below 0x40 an operation is its pixel writes and their end, CLEAR's fill, or a
write of registers; from 0x40 up it is its acts and their end (R250 to R256). -/

namespace Sys2Proof.Machine

open Sys2Proof.Statement

/-! ## Operations below 0x40 -/

/-- The opcodes of the operations that write pixels (R84). -/
def pixelOpcodes : List Nat := [0x12, 0x20, 0x21, 0x22, 0x23, 0x24, 0x25, 0x26, 0x27, 0x28, 0x31, 0x32]

/-- The fault of a source that does not exist, which an operation raises after its pixel writes (R172, R185, R187). -/
def lateCause (i : Instr) (s : State) : Option Cause :=
  match i with
  | .drawBitmap8bpp x0 y0 w h p => lateOf .assetOverrun (blit8Sources s x0 y0 w h p)
  | .drawBitmap4bpp x0 y0 w h p => lateOf .assetOverrun (blit4Sources s x0 y0 w h p)
  | .drawChar c x y v => lateOf .fontOverrun (charSources s c x.toNat y.toNat v).1
  | .drawText p x y v => if s.fontValid then textLate s (s.cfg.asset.drop p.toNat) x.toNat y.toNat v else none
  | _ => none

/-- What an operation below 0x40 is. -/
inductive BelowWire (i : Instr) (s : State) : Prop where
  | pixels (hi : i.opcode.toNat ∈ pixelOpcodes)
      (hexec : exec i s = finish (plotThen (pixelWrites i s) (lateCause i s)) s)
  | noFont (hfont : ¬FontReady s) (r : Refusal) (hexec : exec i s = .refused r)
  | clear (v : Byte) (hi : i = .clear v)
  | configure (a b : Coord) (hi : i = .configure a b)
  | selectFont (p : Word32) (hi : i = .selectFont p) (sel : Word32) (valid : Bool)
      (hexec : exec i s = .next (complete .ok { s with fontSel := sel, fontValid := valid }))
  | illegal (hi : i.opcode = 0x23) (haa : s.cfg.hasAaLine = false) (hpixels : pixelWrites i s = [])
      (hexec : exec i s = .next (complete .errIllegal s))

/-- Pixels with one brightness, as pixel writes with no fault after them. -/
theorem finish_plotAll (ps : List (Int × Int)) (v : Byte) (s : State) :
    finish (plotAll ps v) s = finish (plotThen (flatLevels ps v) none) s :=
  finish_congr ((plotAll_eq ps v s).trans (plotThen_none _ s).symm)

theorem exec_setPixel (x y : Coord) (v : Byte) (s : State) :
    exec (.setPixel x y v) s = finish (plotAll [((x.toNat : Int), (y.toNat : Int))] v) s := by
  refine finish_congr ?_
  rw [plotAll, forEach_singleton, plot_natCast]

theorem exec_selectFont_of_lt {s : State} {p : Word32} (hp : p.toNat < s.cfg.fontRom.length) :
    exec (.selectFont p) s = .next (complete .ok { s with fontSel := p, fontValid := true }) := if_pos hp

theorem exec_selectFont_of_ge {s : State} {p : Word32} (hp : s.cfg.fontRom.length ≤ p.toNat) :
    exec (.selectFont p) s = .next (complete .ok { s with fontValid := false }) := if_neg (Nat.not_lt.mpr hp)

/-- Settles O46: the two branches of SELECT_FONT. -/
theorem selectFontSelectsOrDeselects : Obligations.SelectFontSelectsOrDeselects :=
  fun _ _ => ⟨exec_selectFont_of_lt, exec_selectFont_of_ge⟩

/-- Settles O28: CONFIGURE is the write of the two registers and the status code OK. -/
theorem configureRecordsTheDimensions : Obligations.ConfigureRecordsTheDimensions := fun _ _ _ => rfl

theorem belowWire_drawAaLine (x0 y0 x1 y1 : Coord) (v : Byte) (s : State) :
    BelowWire (.drawAaLine x0 y0 x1 y1 v) s := by
  cases haa : s.cfg.hasAaLine with
  | false => exact .illegal rfl haa (if_neg (by simp [haa])) (exec_drawAaLine_illegal haa ..)
  | true =>
    refine .pixels (by simp [Instr.opcode, pixelOpcodes]) ?_
    have hstraight : x0 = x1 ∨ y0 = y1 → pixelWrites (.drawAaLine x0 y0 x1 y1 v) s
        = flatLevels (linePixels x0.toNat y0.toNat x1.toNat y1.toNat) v := fun h => (if_pos haa).trans (if_pos h)
    by_cases hx : x0 = x1
    · subst hx
      rw [hstraight (.inl rfl), exec_drawAaLine_vertical haa, linePixels_of_vertical]
      exact finish_plotAll _ v s
    · by_cases hy : y0 = y1
      · subst hy
        rw [hstraight (.inr rfl), exec_drawAaLine_horizontal haa hx, linePixels_horizontal]
        exact finish_plotAll _ v s
      · rw [exec_drawAaLine haa hx hy, pixelWrites_drawAaLine haa hx hy]
        exact finish_congr (plotThen_none _ s).symm

theorem belowWire_drawText (p : Word32) (x y : Coord) (v : Byte) (s : State) : BelowWire (.drawText p x y v) s := by
  cases hv : s.fontValid with
  | false =>
    refine .pixels (by simp [Instr.opcode, pixelOpcodes]) ?_
    rw [exec_drawText_of_noFont hv, pixelWrites, lateCause, if_neg (by simp [hv]), if_neg (by simp [hv])]
    rfl
  | true =>
    rcases exec_drawText_cases hv p x y v with h | ⟨hno, r, h⟩
    · refine .pixels (by simp [Instr.opcode, pixelOpcodes]) ?_
      rw [h, pixelWrites, lateCause, if_pos hv, if_pos hv]
    · exact .noFont hno r h

theorem exec_belowWire {i : Instr} (hi : i.opcode.toNat < 0x40) (s : State) : BelowWire i s := by
  cases i with
  | configure a b => exact .configure a b rfl
  | clear v => exact .clear v rfl
  | selectFont p =>
    by_cases hp : p.toNat < s.cfg.fontRom.length
    · exact .selectFont p rfl p true (exec_selectFont_of_lt hp)
    · exact .selectFont p rfl s.fontSel false (exec_selectFont_of_ge (Nat.not_lt.mp hp))
  | setPixel x y v =>
    exact .pixels (by simp [Instr.opcode, pixelOpcodes]) ((exec_setPixel x y v s).trans (finish_plotAll ..))
  | drawVLine | drawHLine | drawLine | drawRect | drawRectFilled | drawCircle =>
    exact .pixels (by simp [Instr.opcode, pixelOpcodes]) (finish_plotAll ..)
  | drawAaLine x0 y0 x1 y1 v => exact belowWire_drawAaLine x0 y0 x1 y1 v s
  | drawBitmap8bpp x0 y0 w h p =>
    exact .pixels (by simp [Instr.opcode, pixelOpcodes]) (exec_drawBitmap8bpp x0 y0 w h p s)
  | drawBitmap4bpp x0 y0 w h p =>
    exact .pixels (by simp [Instr.opcode, pixelOpcodes]) (exec_drawBitmap4bpp x0 y0 w h p s)
  | drawChar c x y v =>
    rcases exec_drawChar_cases c x y v s with h | ⟨hno, r, h⟩
    · exact .pixels (by simp [Instr.opcode, pixelOpcodes]) h
    · exact .noFont hno r h
  | drawText p x y v => exact belowWire_drawText p x y v s
  | sendCommand | sendData | initDisplay | setMode | sleepOn | sleepOff | setContrast | setBrightness
  | uploadGrayscale | resetGrayscale | setWindow | transfer | push =>
    exact absurd hi (by simp [Instr.opcode])

/-- The ways a list of pixel writes and its end can come out. -/
theorem finish_plotThen_cases (l : List LevelPixel) (late : Option Cause) (s : State) :
    ∃ t, Painted s t ∧ (finish (plotThen l late) s = .next (endedWith late t)
      ∨ finish (plotThen l late) s = .next (latchFault .storageOverrun t)) := by
  obtain ⟨t, ht, hrun | hrun⟩ := plotLevels_cases l s
  · exact ⟨t, ht, .inl (finish_plotThen_ok hrun)⟩
  · exact ⟨t, ht, .inr (finish_plotThen_ended hrun)⟩

/-- The two ways CLEAR can come out (R111). -/
theorem exec_clear_cases (v : Byte) (s : State) :
    (pixelBytes s.w s.h ≤ s.cfg.fbBytes
      ∧ exec (.clear v) s = .next (complete .ok { s with fb := s.fb.fill (pixelBytes s.w s.h) (fillByte v) }))
    ∨ (s.cfg.fbBytes < pixelBytes s.w s.h
      ∧ exec (.clear v) s
        = .next (latchFault .storageOverrun { s with fb := s.fb.fill s.cfg.fbBytes (fillByte v) })) := by
  rcases Nat.lt_or_ge s.cfg.fbBytes (pixelBytes s.w s.h) with h | h
  · exact .inr ⟨h, finish_ended (fbFill_fault (Nat.not_le.mpr h))⟩
  · exact .inl ⟨h, finish_ok (fbFill_ok h)⟩

/-! ## Operations from 0x40 up -/

/-- The ways an operation of the wire can come out: all its acts and its end, or the first failed transmit. -/
inductive OnWire (i : Instr) (s : State) : Prop where
  | taken (hexec : exec i s = .next ((wireEnd i s).final (allDone (wireActs i s) s)))
      (hbus : BusTakes s (allDone (wireActs i s) s).txCount)
  | lost (before : List WireAct) (f : Framing) (after : List WireAct)
      (hacts : wireActs i s = before ++ .framing f :: after) (hf : isTransmit f.2 = true)
      (hexec : exec i s = .next (lostIn (framingEvents f) 1 (allDone before s)))
      (hbus : BusTakes s (allDone before s).txCount) (hlost : txOk s ((allDone before s).txCount + 1) = false)

theorem exec_onWire {i : Instr} (hi : 0x40 ≤ i.opcode.toNat) (s : State) : OnWire i s := by
  rcases runActs_cases (wireActs_sound i s) s with ⟨hrun, hbus⟩ | ⟨before, f, after, hacts, hf, hrun, hbus, hlost⟩
  · exact .taken ((exec_wire hi s).trans (finish_wireThen_ok hrun)) hbus
  · exact .lost before f after hacts hf ((exec_wire hi s).trans (finish_wireThen_ended hrun)) hbus hlost

/-! ## Completion and faults -/

/-- The opcodes of the operations that raise a fault (R254). -/
def raisedBy : Cause → List Nat
  | .storageOverrun => 0x11 :: 0x4B :: 0x50 :: pixelOpcodes
  | .assetOverrun => [0x27, 0x28, 0x32, 0x48]
  | .fontOverrun => [0x31, 0x32]

/-- The ways an operation ends (R250): with a status code and no new fault, or with a fault and `STATUS` unwritten. -/
inductive Ending (i : Instr) (s t : State) : Prop where
  | ok (hf : t.faulted = s.faulted) (hs : t.status = 0)
  | grayRange (p : Word32) (hi : i = .uploadGrayscale p) (hf : t.faulted = s.faulted) (hs : t.status = 1)
  | bus (hi : 0x40 ≤ i.opcode.toNat) (hf : t.faulted = s.faulted) (hs : t.status = 2)
  | illegal (hi : i.opcode = 0x23) (haa : s.cfg.hasAaLine = false) (hf : t.faulted = s.faulted) (hs : t.status = 3)
  | fault (c : Cause) (hi : i.opcode.toNat ∈ raisedBy c) (hf : t.faulted = true) (hs : t.status = s.status)
      (hc : t.fcause = causeByte c)

theorem textLate_ne_storageOverrun (s : State) (l : List Byte) (cx y : Int) (v : Byte) :
    ¬textLate s l cx y v = some .storageOverrun := by
  induction l generalizing cx with
  | nil => simp [textLate]
  | cons ch l ih =>
    rw [textLate]
    split
    · simp
    · split
      · simp
      · exact ih _

theorem lateOf_eq_some {c c' : Cause} {l : List Source} (h : lateOf c l = some c') : c' = c := by
  unfold lateOf at h
  split at h
  · exact (Option.some.inj h).symm
  · cases h

theorem mem_raisedBy_of_lateCause {i : Instr} {s : State} {c : Cause} (h : lateCause i s = some c) :
    i.opcode.toNat ∈ raisedBy c := by
  cases i with
  | drawBitmap8bpp | drawBitmap4bpp | drawChar =>
    obtain rfl := lateOf_eq_some h
    simp [Instr.opcode, raisedBy]
  | drawText p x y v =>
    cases c with
    | storageOverrun =>
      rw [lateCause] at h
      split at h
      · exact absurd h (textLate_ne_storageOverrun _ _ _ _ _)
      · cases h
    | assetOverrun | fontOverrun => simp [Instr.opcode, raisedBy]
  | _ => cases h

theorem ending_of_pixels {i : Instr} {s t : State} (hi : i.opcode.toNat ∈ pixelOpcodes)
    (h : finish (plotThen (pixelWrites i s) (lateCause i s)) s = .next t) : Ending i s t := by
  obtain ⟨u, ⟨m, rfl, -⟩, hrun | hrun⟩ := finish_plotThen_cases (pixelWrites i s) (lateCause i s) s
  · obtain rfl := Host.Outcome.next.inj (hrun.symm.trans h)
    cases hlate : lateCause i s with
    | none => exact .ok rfl rfl
    | some c => exact .fault c (mem_raisedBy_of_lateCause hlate) rfl rfl rfl
  · obtain rfl := Host.Outcome.next.inj (hrun.symm.trans h)
    exact .fault .storageOverrun (by simp [raisedBy, hi]) rfl rfl rfl

theorem mem_raisedBy_of_wireEnd {i : Instr} {s : State} {c : Cause} (h : wireEnd i s = .fault c) :
    i.opcode.toNat ∈ raisedBy c := by
  have htransfer : ∀ {p n : Nat}, transferEnd s.cfg p n = .fault c → c = .storageOverrun := by
    intro p n h
    unfold transferEnd at h
    split at h
    · cases h
    · exact (WireEnd.fault.inj h).symm
  cases i with
  | uploadGrayscale p =>
    simp only [wireEnd] at h
    split at h
    · split at h <;> cases h
    · cases h
      simp [Instr.opcode, raisedBy]
  | transfer | push =>
    obtain rfl := htransfer h
    simp [Instr.opcode, raisedBy]
  | _ => cases h

theorem wireEnd_grayRange {i : Instr} {s : State} (h : wireEnd i s = .grayRange) : ∃ p, i = .uploadGrayscale p := by
  have htransfer : ∀ {p n : Nat}, transferEnd s.cfg p n ≠ .grayRange := by
    intro p n h
    unfold transferEnd at h
    split at h <;> cases h
  cases i with
  | uploadGrayscale p => exact ⟨p, rfl⟩
  | transfer | push => exact absurd h htransfer
  | _ => cases h

theorem ending_of_onWire {i : Instr} {s t : State} (hi : 0x40 ≤ i.opcode.toNat) (hexec : exec i s = .next t) :
    Ending i s t := by
  rcases exec_onWire hi s with ⟨h, -⟩ | ⟨before, f, after, -, -, h, -, -⟩
  · obtain rfl := Host.Outcome.next.inj (h.symm.trans hexec)
    cases hend : wireEnd i s with
    | ok => exact .ok (allDone_faulted ..) rfl
    | fault c => exact .fault c (mem_raisedBy_of_wireEnd hend) rfl (allDone_status ..) rfl
    | grayRange =>
      obtain ⟨p, hp⟩ := wireEnd_grayRange hend
      exact .grayRange p hp (allDone_faulted ..) rfl
  · obtain rfl := Host.Outcome.next.inj (h.symm.trans hexec)
    exact .bus hi (allDone_faulted ..) rfl

theorem exec_ending {i : Instr} {s t : State} (hexec : exec i s = .next t) : Ending i s t := by
  rcases opcode_lt_or_ge i with hi | hi
  · rcases exec_belowWire hi s with ⟨hop, h⟩ | ⟨-, r, h⟩ | ⟨v, rfl⟩ | ⟨a, b, rfl⟩ | ⟨p, -, sel, valid, h⟩ |
      ⟨hop, haa, -, h⟩
    · exact ending_of_pixels hop (h.symm.trans hexec)
    · cases h.symm.trans hexec
    · rcases exec_clear_cases v s with ⟨-, h⟩ | ⟨-, h⟩
      · obtain rfl := Host.Outcome.next.inj (h.symm.trans hexec)
        exact .ok rfl rfl
      · obtain rfl := Host.Outcome.next.inj (h.symm.trans hexec)
        exact .fault .storageOverrun (by simp [Instr.opcode, raisedBy]) rfl rfl rfl
    · obtain rfl := Host.Outcome.next.inj hexec
      exact .ok rfl rfl
    · obtain rfl := Host.Outcome.next.inj (h.symm.trans hexec)
      exact .ok rfl rfl
    · obtain rfl := Host.Outcome.next.inj (h.symm.trans hexec)
      exact .illegal hop haa rfl rfl
  · exact ending_of_onWire hi hexec

/-- An operation runs unless a font is missing. -/
theorem exists_exec_of_fontReady {s : State} (hfont : FontReady s) (i : Instr) : ∃ t, exec i s = .next t := by
  rcases opcode_lt_or_ge i with hi | hi
  · rcases exec_belowWire hi s with ⟨-, h⟩ | ⟨hno, -, -⟩ | ⟨v, rfl⟩ | ⟨a, b, rfl⟩ |
      ⟨-, -, _, _, h⟩ | ⟨-, -, -, h⟩
    · obtain ⟨u, -, hrun | hrun⟩ := finish_plotThen_cases (pixelWrites i s) (lateCause i s) s
      · exact ⟨_, h.trans hrun⟩
      · exact ⟨_, h.trans hrun⟩
    · exact absurd hfont hno
    · rcases exec_clear_cases v s with ⟨-, h⟩ | ⟨-, h⟩
      · exact ⟨_, h⟩
      · exact ⟨_, h⟩
    · exact ⟨_, rfl⟩
    · exact ⟨_, h⟩
    · exact ⟨_, h⟩
  · rcases exec_onWire hi s with ⟨h, -⟩ | ⟨_, _, _, -, -, h, -, -⟩
    · exact ⟨_, h⟩
    · exact ⟨_, h⟩

/-- Settles O17: an operation that runs (`exists_exec_of_fontReady`) ends in one of the ways of `Ending`. -/
theorem everyOperationCompletesOrFaults : Obligations.EveryOperationCompletesOrFaults := by
  intro i s hwf hfaulted hsel
  obtain ⟨t, hexec⟩ := exists_exec_of_fontReady (fontReady_of_wf hwf hsel) i
  refine ⟨t, hexec, ?_⟩
  rcases exec_ending hexec with ⟨hf, hs⟩ | ⟨-, -, hf, hs⟩ | ⟨-, hf, hs⟩ | ⟨-, -, hf, hs⟩ | ⟨c, -, hf, hs, hc⟩
  · exact .inl ⟨hf.trans hfaulted, .inl hs⟩
  · exact .inl ⟨hf.trans hfaulted, .inr (.inl hs)⟩
  · exact .inl ⟨hf.trans hfaulted, .inr (.inr (.inl hs))⟩
  · exact .inl ⟨hf.trans hfaulted, .inr (.inr (.inr hs))⟩
  · refine .inr ⟨hf, hs, ?_⟩
    rw [hc]
    cases c <;> simp [causeByte]

/-- Settles O18: each code but 0 comes from one of the ways of `Ending`. -/
theorem statusCodesByOperation : Obligations.StatusCodesByOperation := by
  intro i s t hexec hfaulted hfine
  rcases exec_ending hexec with ⟨-, hs⟩ | ⟨p, hp, -, hs⟩ | ⟨hi, -, hs⟩ | ⟨hi, haa, -, hs⟩ | ⟨c, -, hf, -⟩
  · simp [hs]
  · simp [hs, hp]
  · simp [hs, hi]
  · simp [hs, hi, haa]
  · simp [hf] at hfine

/-- Settles O19: the operations of a fault are those of `raisedBy`. -/
theorem faultCausesByOperation : Obligations.FaultCausesByOperation := by
  intro i s t hexec hfaulted hfault
  have hnew : t.faulted ≠ s.faulted := by rw [hfault, hfaulted]; decide
  rcases exec_ending hexec with ⟨hf, -⟩ | ⟨-, -, hf, -⟩ | ⟨-, hf, -⟩ | ⟨-, -, hf, -⟩ | ⟨c, hi, -, -, hc⟩
  · exact absurd hf hnew
  · exact absurd hf hnew
  · exact absurd hf hnew
  · exact absurd hf hnew
  · rw [hc]
    cases c with
    | storageOverrun =>
      simp only [raisedBy, pixelOpcodes, List.mem_cons, List.not_mem_nil, or_false] at hi
      exact .inl ⟨rfl, by omega⟩
    | assetOverrun =>
      simp only [raisedBy, List.mem_cons, List.not_mem_nil, or_false] at hi
      exact .inr (.inl ⟨rfl, by omega⟩)
    | fontOverrun =>
      simp only [raisedBy, List.mem_cons, List.not_mem_nil, or_false] at hi
      exact .inr (.inr ⟨rfl, by omega⟩)

end Sys2Proof.Machine
end

section
/-! ## Proofs: what every operation keeps. The caller's contract (R254), the display registers (R206), the picture
(R51), the wire after a failed transmit (R203), and FB after an abandoned operation (R281). -/

namespace Sys2Proof.Machine

open Sys2Proof.Statement

/-! ## The caller's contract -/

/-- Whether the contract covers the framebuffer: it does wherever pixels are written. -/
theorem fits_of_callerContract {i : Instr} {s : State} (hi : i.opcode.toNat ∈ pixelOpcodes ∨ ∃ v, i = .clear v)
    (h : callerContract i s = true) : s.fits = true := by
  cases i with
  | clear | setPixel | drawVLine | drawHLine | drawLine | drawAaLine | drawRect | drawRectFilled | drawCircle => exact h
  | drawBitmap8bpp | drawBitmap4bpp | drawChar => exact (Bool.and_eq_true_iff.mp h).1
  | drawText => exact (Bool.and_eq_true_iff.mp (Bool.and_eq_true_iff.mp h).1).1
  | _ => simp [Instr.opcode, pixelOpcodes] at hi

/-- Sound fonts hold the bits of all their glyphs (R187). -/
theorem glyphInBlob_of_fontsSound {s : State} {f : Font} {c : Byte} {g : Glyph} (hsound : fontsSound s.cfg = true)
    (hf : s.cfg.fontRom[s.fontSel.toNat]? = some f) (hg : glyphOf f c = some g) : glyphInBlob f g = true := by
  simp only [fontsSound, List.all_eq_true, Bool.and_eq_true] at hsound
  refine (hsound f (List.mem_of_getElem? hf)).2 g ?_
  unfold glyphOf at hg
  split at hg
  · exact List.mem_of_getElem? hg
  · cases hg

/-- A character draws no more bits than its font has. -/
theorem none_not_mem_charSources_of_fontsSound {s : State} (hfont : FontReady s) (hsound : fontsSound s.cfg = true)
    (c : Byte) (x y : Int) (v : Byte) : none ∉ (charSources s c x y v).1 := by
  cases hv : s.fontValid with
  | false => simp [charSources, activeGlyph, hv]
  | true =>
    obtain ⟨f, hf, hwf⟩ := hfont hv
    have hactive : ActiveFont s f := ⟨hv, hf, hwf⟩
    exact hactive.none_not_mem_charSources (fun g hg => glyphInBlob_of_fontsSound hsound hf hg) x y v

/-- A string with a zero byte ends there. -/
theorem textLate_of_mem_zero {s : State} (hfont : FontReady s) (hsound : fontsSound s.cfg = true) {l : List Byte}
    (hz : 0 ∈ l) (cx y : Int) (v : Byte) : textLate s l cx y v = none := by
  induction l generalizing cx with
  | nil => cases hz
  | cons ch l ih =>
    rw [textLate]
    split
    · rfl
    · next hne =>
      rw [if_neg (none_not_mem_charSources_of_fontsSound hfont hsound ch cx y v)]
      exact ih ((List.mem_cons.mp hz).resolve_left (Ne.symm hne)) _

theorem lateCause_of_callerContract {i : Instr} {s : State} (hfont : FontReady s) (h : callerContract i s = true) :
    lateCause i s = none := by
  cases i with
  | drawBitmap8bpp x0 y0 w h' p =>
    refine lateOf_of_not_mem fun hmem => ?_
    obtain ⟨hsize, hover⟩ := none_mem_blit8Sources.mp hmem
    simp only [callerContract, Bool.and_eq_true, Bool.or_eq_true, beq_iff_eq, decide_eq_true_eq] at h
    omega
  | drawBitmap4bpp x0 y0 w h' p =>
    refine lateOf_of_not_mem fun hmem => ?_
    obtain ⟨hsize, hover⟩ := none_mem_blit4Sources.mp hmem
    simp only [callerContract, Bool.and_eq_true, Bool.or_eq_true, beq_iff_eq, decide_eq_true_eq] at h
    omega
  | drawChar c x y v =>
    have hsound := (Bool.and_eq_true_iff.mp h).2
    exact lateOf_of_not_mem (none_not_mem_charSources_of_fontsSound hfont hsound c _ _ v)
  | drawText p x y v =>
    obtain ⟨hfirst, hz⟩ := Bool.and_eq_true_iff.mp h
    rw [lateCause]
    split
    · exact textLate_of_mem_zero hfont (Bool.and_eq_true_iff.mp hfirst).2 (by simpa using hz) _ _ v
    · rfl
  | _ => rfl

theorem wireEnd_ne_fault_of_callerContract {i : Instr} {s : State} (h : callerContract i s = true) (c : Cause) :
    wireEnd i s ≠ .fault c := by
  cases i with
  | uploadGrayscale p =>
    have hlen : (grayTable s.cfg p).length = 16 := by
      have hp : p.toNat + 16 ≤ s.cfg.asset.length := by simpa [callerContract] using h
      rw [grayTable, List.length_take, List.length_drop]
      omega
    simp only [wireEnd]
    rw [if_pos hlen]
    split <;> nofun
  | transfer p n =>
    have hfits : n.toNat = 0 ∨ p.toNat + n.toNat ≤ s.cfg.fbBytes := by simpa [callerContract] using h
    rw [wireEnd, (transferActs_of_fits hfits s.fb).2]
    nofun
  | push ox oy =>
    have hfits : panelBytes s.cfg = 0 ∨ pushOffset s.cfg ox oy + panelBytes s.cfg ≤ s.cfg.fbBytes := by
      simpa [callerContract] using h
    rw [wireEnd, (transferActs_of_fits hfits s.fb).2]
    nofun
  | _ => nofun

/-- Settles O20: under the contract FB has every pixel, every source exists, and a transfer has its bytes, so that no
way to a fault is left. -/
theorem callerContractKeepsTheBlockFaultFree : Obligations.CallerContractKeepsTheBlockFaultFree := by
  intro i s hwf hsel hcontract
  have hfont := fontReady_of_wf hwf hsel
  rcases opcode_lt_or_ge i with hi | hi
  · rcases exec_belowWire hi s with ⟨hop, h⟩ | ⟨hno, -, -⟩ | ⟨v, rfl⟩ | ⟨a, b, rfl⟩ | ⟨-, -, _, _, h⟩ | ⟨-, -, -, h⟩
    · obtain ⟨t, ⟨m, rfl, -⟩, hrun⟩ :=
        plotLevels_of_fits (fits_of_callerContract (.inl hop) hcontract) (pixelWrites i s)
      rw [lateCause_of_callerContract hfont hcontract] at h
      exact ⟨_, h.trans (finish_plotThen_ok hrun), rfl⟩
    · exact absurd hfont hno
    · have hfits : pixelBytes s.w s.h ≤ s.cfg.fbBytes := by
        simpa [State.fits] using fits_of_callerContract (.inr ⟨v, rfl⟩) hcontract
      rcases exec_clear_cases v s with ⟨-, h⟩ | ⟨hover, -⟩
      · exact ⟨_, h, rfl⟩
      · exact absurd hfits (Nat.not_le.mpr hover)
    · exact ⟨_, rfl, rfl⟩
    · exact ⟨_, h, rfl⟩
    · exact ⟨_, h, rfl⟩
  · rcases exec_onWire hi s with ⟨h, -⟩ | ⟨_, _, _, -, -, h, -, -⟩
    · refine ⟨_, h, ?_⟩
      cases hend : wireEnd i s with
      | ok | grayRange => exact allDone_faulted ..
      | fault c => exact absurd hend (wireEnd_ne_fault_of_callerContract hcontract c)
    · exact ⟨_, h, allDone_faulted ..⟩

/-! ## The display registers -/

/-- The end of an operation leaves the display registers and the wire alone. -/
theorem WireEnd.final_display (e : WireEnd) (s : State) :
    (e.final s).pstate = s.pstate ∧ (e.final s).mode = s.mode ∧ (e.final s).txCount = s.txCount
      ∧ (e.final s).wire = s.wire := by
  cases e <;> exact ⟨rfl, rfl, rfl, rfl⟩

/-- Framings leave the display registers alone. -/
theorem allDone_framings_display (l : List Framing) (s : State) :
    (allDone (l.map .framing) s).pstate = s.pstate ∧ (allDone (l.map .framing) s).mode = s.mode := by
  rw [allDone_framings, framedAll_eq]
  exact ⟨rfl, rfl⟩

/-- `PSTATE` after an operation, by the table of R206. -/
def pstateAfter (i : Instr) (s : State) : PState :=
  match i with
  | .initDisplay => .awake
  | .sleepOn => .asleep
  | .sleepOff => .awake
  | _ => s.pstate

/-- `MODE` after an operation, by the table of R206. -/
def modeAfter (i : Instr) (s : State) : Mode :=
  match i with
  | .initDisplay => .normal
  | .setMode m => modeOf m
  | _ => s.mode

theorem allDone_wireActs_display (i : Instr) (s : State) :
    (allDone (wireActs i s) s).pstate = pstateAfter i s ∧ (allDone (wireActs i s) s).mode = modeAfter i s := by
  cases i with
  | initDisplay =>
    rw [wireActs, initActs, allDone_append, allDone_append]
    exact ⟨rfl, rfl⟩
  | uploadGrayscale p =>
    simp only [wireActs]
    split
    · exact allDone_framings_display _ s
    · exact ⟨rfl, rfl⟩
  | setWindow | transfer | push => exact allDone_framings_display _ s
  | _ => exact ⟨rfl, rfl⟩

theorem txCount_le_allDone (l : List WireAct) (s : State) : s.txCount ≤ (allDone l s).txCount := by
  induction l generalizing s with
  | nil => exact Nat.le_refl _
  | cons a l ih => exact Nat.le_trans (txCount_le_done a s) (ih (a.done s))

theorem display_of_lt {i : Instr} (hi : i.opcode.toNat < 0x40) (s : State) :
    pstateAfter i s = s.pstate ∧ modeAfter i s = s.mode := by
  cases i with
  | initDisplay | setMode | sleepOn | sleepOff => exact absurd hi (by simp [Instr.opcode])
  | _ => exact ⟨rfl, rfl⟩

/-- Settles O22: what draws keeps the display registers (O23), and acts that the bus takes leave them as the table says
(`allDone_wireActs_display`). -/
theorem displayRegistersFollowTheTable : Obligations.DisplayRegistersFollowTheTable := by
  intro i s t hexec hbus
  change t.pstate = pstateAfter i s ∧ t.mode = modeAfter i s
  rcases opcode_lt_or_ge i with hi | hi
  · obtain ⟨hpstate, hmode⟩ := display_of_lt hi s
    obtain ⟨-, -, -, -, -, hpstate', hmode', -⟩ := (drawingAndTransportAreSeparate i s t hexec).1 hi
    exact ⟨hpstate'.trans hpstate.symm, hmode'.trans hmode.symm⟩
  · rcases exec_onWire hi s with ⟨h, -⟩ | ⟨before, f, after, -, -, h, -, hlost⟩
    · obtain rfl := Host.Outcome.next.inj (h.symm.trans hexec)
      obtain ⟨hpstate, hmode, -, -⟩ := (wireEnd i s).final_display (allDone (wireActs i s) s)
      rw [hpstate, hmode]
      exact allDone_wireActs_display i s
    · obtain rfl := Host.Outcome.next.inj (h.symm.trans hexec)
      have htaken := hbus _ (Nat.lt_succ_of_le (txCount_le_allDone before s)) (Nat.le_refl _)
      exact absurd (htaken.symm.trans hlost) (by decide)

/-! ## The picture -/

/-- A memory that differs in the picture only has the same bytes beyond it. -/
theorem read_eq_of_withinPicture {s : State} {m : Memory} (hs : s.fb.wf = true) (h : WithinPicture s m) {a : Nat}
    (ha : (s.w.toNat * s.h.toNat + 1) / 2 ≤ a) : m.read a = s.fb.read a := by
  obtain ⟨-, hrest⟩ := h hs
  exact read_eq_of_nibbleAt_eq (hrest _ (by omega)) (hrest _ (by omega))

theorem withinPicture_of_fb_eq {s t : State} (h : t.fb = s.fb) : WithinPicture s t.fb := by
  rw [h]
  exact fun hs => ⟨hs, fun _ _ => rfl⟩

/-- Every operation but CLEAR writes within the picture. -/
theorem exec_withinPicture {i : Instr} {s t : State} (hclear : ∀ v, i ≠ .clear v) (hexec : exec i s = .next t) :
    WithinPicture s t.fb := by
  rcases opcode_lt_or_ge i with hi | hi
  · rcases exec_belowWire hi s with ⟨-, h⟩ | ⟨-, r, h⟩ | ⟨v, hv⟩ | ⟨a, b, rfl⟩ | ⟨-, -, _, _, h⟩ | ⟨-, -, -, h⟩
    · obtain ⟨u, ⟨m, rfl, hm⟩, hrun | hrun⟩ := finish_plotThen_cases (pixelWrites i s) (lateCause i s) s
      · obtain rfl := Host.Outcome.next.inj ((h.trans hrun).symm.trans hexec)
        cases hlate : lateCause i s <;> exact hm
      · obtain rfl := Host.Outcome.next.inj ((h.trans hrun).symm.trans hexec)
        exact hm
    · cases h.symm.trans hexec
    · exact absurd hv (hclear v)
    · obtain rfl := Host.Outcome.next.inj hexec
      exact withinPicture_of_fb_eq rfl
    · obtain rfl := Host.Outcome.next.inj (h.symm.trans hexec)
      exact withinPicture_of_fb_eq rfl
    · obtain rfl := Host.Outcome.next.inj (h.symm.trans hexec)
      exact withinPicture_of_fb_eq rfl
  · exact withinPicture_of_fb_eq (congrArg State.fb (exec_sendFrame hi hexec).1 :)

/-- Settles O24: CLEAR fills the bytes of the picture (`Memory.read_fill`), and every other operation writes nibbles of
its pixels (`exec_withinPicture`). -/
theorem nothingBeyondThePictureIsWritten : Obligations.NothingBeyondThePictureIsWritten := by
  intro i s t hexec hs
  refine ⟨fun a ha => ?_, fun hclear n hn => ((exec_withinPicture hclear hexec) hs).2 n hn⟩
  by_cases hclear : ∀ v, i ≠ .clear v
  · exact read_eq_of_withinPicture hs (exec_withinPicture hclear hexec) ha
  · obtain ⟨v, hv⟩ := not_forall.mp hclear
    obtain rfl := not_not.mp hv
    have ha' : pixelBytes s.w s.h ≤ a := ha
    rcases exec_clear_cases v s with ⟨-, h⟩ | ⟨hover, h⟩
    · obtain rfl := Host.Outcome.next.inj (h.symm.trans hexec)
      exact (Memory.read_fill hs _ a _).trans (if_neg (Nat.not_lt.mpr ha'))
    · obtain rfl := Host.Outcome.next.inj (h.symm.trans hexec)
      exact (Memory.read_fill hs _ a _).trans (if_neg (by omega))

/-! ## A failed transmit -/

/-- A bus that does not fail. -/
def onGoodBus (s : State) : State := { s with txFails := [] }

theorem txOk_onGoodBus (s : State) (k : Nat) : txOk (onGoodBus s) k = true := rfl

/-- On a bus that does not fail the whole operation is sent. -/
theorem exec_onGoodBus {i : Instr} (hi : 0x40 ≤ i.opcode.toNat) (s : State) :
    ∃ u, exec i (onGoodBus s) = .next u ∧ u.wire = s.wire ++ (wireActs i s).flatMap WireAct.events := by
  rcases exec_onWire hi (onGoodBus s) with ⟨h, -⟩ | ⟨_, _, _, -, -, -, -, hlost⟩
  · refine ⟨_, h, ?_⟩
    obtain ⟨-, -, -, hwire⟩ :=
      (wireEnd i (onGoodBus s)).final_display (allDone (wireActs i (onGoodBus s)) (onGoodBus s))
    rw [hwire, allDone_wire]
    cases i <;> rfl
  · exact absurd ((txOk_onGoodBus s _).symm.trans hlost) (by decide)

/-- What is on `WIRE` after a framing whose transmit fails. -/
theorem lostIn_framing_wire (f : Framing) (s : State) : (lostIn (framingEvents f) 1 s).wire
    = s.wire ++ [.pinSelectLow, if f.1 then .pinModeData else .pinModeCommand] ++ [f.2] := by
  rw [List.append_assoc]
  rfl

/-- Settles O27: an operation of the wire has all its transmits taken, or ends at the first that fails (`OnWire`). -/
theorem nothingFollowsAFailedTransmit : Obligations.NothingFollowsAFailedTransmit := by
  intro i s t hexec hi
  obtain ⟨u, hgood, hwire⟩ := exec_onGoodBus hi s
  rcases exec_onWire hi s with ⟨h, hbus⟩ | ⟨before, f, after, hacts, hf, h, hbus, hlost⟩
  · obtain rfl := Host.Outcome.next.inj (h.symm.trans hexec)
    obtain ⟨-, -, hcount, hsent⟩ := (wireEnd i s).final_display (allDone (wireActs i s) s)
    rw [hcount]
    refine ⟨fun k hk hk' => hbus k hk (Nat.le_of_lt hk'), fun hk hlost => ?_, ⟨u, hgood, ?_⟩, fun _ hfine hstatus => ?_⟩
    · exact absurd ((hbus _ hk (Nat.le_refl _)).symm.trans hlost) (by decide)
    · rw [hsent, hwire, allDone_wire]
    · cases hend : wireEnd i s with
      | ok | grayRange => rw [hend] at hstatus; exact absurd hstatus (by simp [WireEnd.final, complete, statusByte])
      | fault c => rw [hend] at hfine; cases hfine
  · obtain rfl := Host.Outcome.next.inj (h.symm.trans hexec)
    have hcount : s.txCount < (allDone before s).txCount + 1 := Nat.lt_succ_of_le (txCount_le_allDone before s)
    refine ⟨fun k hk hk' => hbus k hk (Nat.le_of_lt_succ hk'), fun _ _ => ?_, ⟨u, hgood, ?_⟩,
      fun _ _ _ => ⟨hcount, hlost⟩⟩
    · refine ⟨rfl, rfl, allDone_faulted .., allDone_fcause .., congrArg (· + 1) (allDone_draws ..),
        congrArg Config.freePState (allDone_draws ..), congrArg Config.freeMode (allDone_draws ..), _, f.2,
        (lostIn_framing_wire f _).trans (by rw [allDone_wire, List.append_assoc s.wire]), hf⟩
    · rw [lostIn_framing_wire, hwire, hacts, allDone_wire, List.flatMap_append, List.flatMap_cons]
      exact ⟨.pinSelectHigh :: after.flatMap WireAct.events, by simp [WireAct.events, framingEvents]⟩

/-! ## An abandoned operation -/

/-- FB after an operation is what its pseudocode leaves. -/
theorem fbLeftBy_of_finish {m : Op Unit} {s t : State} (h : finish m s = .next t) : fbLeftBy m s = t.fb := by
  unfold finish at h
  unfold fbLeftBy
  cases hrun : m s with
  | ok u v =>
    rw [hrun] at h
    obtain rfl := Host.Outcome.next.inj h
    rfl
  | error e v =>
    rw [hrun] at h
    cases e with
    | ended =>
      obtain rfl := Host.Outcome.next.inj h
      rfl
    | refused r => cases h

/-- The fault after the last pixel write leaves FB alone. -/
theorem fbLeftBy_plotThen (l : List LevelPixel) (late : Option Cause) (s : State) :
    fbLeftBy (plotThen l late) s = fbLeftBy (plotLevels l) s := by
  unfold fbLeftBy plotThen
  rw [bind_apply]
  cases plotLevels l s with
  | error e t => rfl
  | ok u t => cases late <;> rfl

theorem fbAbandoned_of_ne_clear {i : Instr} (h : ∀ v, i ≠ .clear v) (n : Nat) (s : State) :
    fbAbandoned n i s = fbLeftBy (plotLevels ((pixelWrites i s).take n)) s := by
  cases i with
  | clear v => exact absurd rfl (h v)
  | _ => rfl

theorem writeCount_of_ne_clear {i : Instr} (h : ∀ v, i ≠ .clear v) (s : State) :
    writeCount i s = (pixelWrites i s).length := by
  cases i with
  | clear v => exact absurd rfl (h v)
  | _ => rfl

/-- An operation without pixel writes that is abandoned leaves FB alone. -/
theorem fbAbandoned_of_pixelWrites_eq_nil {i : Instr} {s : State} (hclear : ∀ v, i ≠ .clear v)
    (h : pixelWrites i s = []) (n : Nat) : fbAbandoned n i s = s.fb := by
  rw [fbAbandoned_of_ne_clear hclear, h, List.take_nil]
  rfl

theorem pixelWrites_eq_nil {i : Instr} (s : State)
    (h : 0x40 ≤ i.opcode.toNat ∨ i.opcode = 0x10 ∨ i.opcode = 0x30) :
    (∀ v, i ≠ .clear v) ∧ pixelWrites i s = [] := by
  cases i with
  | clear | setPixel | drawVLine | drawHLine | drawLine | drawAaLine | drawRect | drawRectFilled | drawCircle
  | drawBitmap8bpp | drawBitmap4bpp | drawChar | drawText => simp [Instr.opcode] at h
  | _ => exact ⟨nofun, rfl⟩

/-- Abandoned after its last write an operation has written all it writes. -/
theorem fbAbandoned_eq_of_exec {i : Instr} {s t : State} {n : Nat} (hexec : exec i s = .next t)
    (hn : writeCount i s ≤ n) : fbAbandoned n i s = t.fb := by
  have hall : (∀ v, i ≠ .clear v) → fbAbandoned n i s = fbLeftBy (plotLevels (pixelWrites i s)) s := fun h => by
    rw [fbAbandoned_of_ne_clear h, List.take_of_length_le ((writeCount_of_ne_clear h s).symm.trans_le hn)]
  rcases opcode_lt_or_ge i with hi | hi
  · rcases exec_belowWire hi s with ⟨hop, h⟩ | ⟨-, r, h⟩ | ⟨v, rfl⟩ | ⟨a, b, rfl⟩ |
      ⟨p, rfl, _, _, h⟩ | ⟨hop, -, hpix, h⟩
    · rw [hall (by rintro v rfl; simp [Instr.opcode, pixelOpcodes] at hop), ← fbLeftBy_plotThen _ (lateCause i s)]
      exact fbLeftBy_of_finish (h.symm.trans hexec)
    · cases h.symm.trans hexec
    · refine Eq.trans ?_ (fbLeftBy_of_finish ((exec_clear v s).symm.trans hexec))
      rw [fbAbandoned, Nat.min_eq_right (show pixelBytes s.w s.h ≤ n from hn)]
    · obtain rfl := Host.Outcome.next.inj hexec
      exact hall nofun
    · obtain rfl := Host.Outcome.next.inj (h.symm.trans hexec)
      exact hall nofun
    · obtain rfl := Host.Outcome.next.inj (h.symm.trans hexec)
      exact fbAbandoned_of_pixelWrites_eq_nil (by rintro v rfl; cases hop) hpix n
  · obtain ⟨hclear, hpix⟩ := pixelWrites_eq_nil s (.inl hi)
    rw [fbAbandoned_of_pixelWrites_eq_nil hclear hpix]
    exact (congrArg State.fb (exec_sendFrame hi hexec).1 :).symm

theorem wf_fbAbandoned {s : State} (hs : s.fb.wf = true) (n : Nat) (i : Instr) : (fbAbandoned n i s).wf = true := by
  by_cases hclear : ∀ v, i ≠ .clear v
  · obtain ⟨done, -, hwf, -⟩ := fbLeftBy_plotLevels hs ((pixelWrites i s).take n)
    rwa [fbAbandoned_of_ne_clear hclear]
  · obtain ⟨v, hv⟩ := not_forall.mp hclear
    obtain rfl := not_not.mp hv
    rw [fbAbandoned, fbLeftBy]
    by_cases hn : min n (pixelBytes s.w s.h) ≤ s.cfg.fbBytes
    · rw [fbFill_ok hn]
      exact Memory.wf_fill hs _ _
    · rw [fbFill_fault hn]
      exact Memory.wf_fill hs _ _

theorem step_of_resetDuring {s : State} {d : Descriptor} {n : Nat} (hreset : s.resetIn = false)
    (hfaulted : s.faulted = false) (hwf : s.cfg.wf = true) (hd : s.program[s.pos]? = some d)
    (hduring : s.resetDuring = some n) : step s = abandonDescriptor n d s := by
  simp [step, sequenceStep, hreset, hfaulted, nextDescriptor, hd, hwf, hduring]

/-- Settles O10: the step is `abandonDescriptor`, and FB after it is `fbAbandoned`: what the first `n` byte writes of
CLEAR (`read_fbLeftBy_fbFill`) or pixel writes (`fbLeftBy_plotLevels`) leave. -/
theorem resetAbandonsTheOperation : Obligations.ResetAbandonsTheOperation := by
  intro s d n hreset hfaulted hwf hs hd hduring
  rw [step_of_resetDuring hreset hfaulted hwf hd hduring]
  refine ⟨fun hillegal => ?_, fun i hi hlegal => ⟨fbAbandoned n i s, ?_, ?_, ?_, ?_, ?_, ?_⟩⟩
  · rw [abandonDescriptor, legalInstr_eq_none hillegal]
  · rw [abandonDescriptor, legalInstr_of_decode hi hlegal]
  · exact wf_fbAbandoned hs n i
  · rintro v rfl a
    rw [fbAbandoned, read_fbLeftBy_fbFill hs, Nat.min_assoc]
    rfl
  · intro hclear
    rw [fbAbandoned_of_ne_clear hclear]
    exact fbLeftBy_plotLevels hs _
  · intro hop
    obtain ⟨hclear, hpix⟩ := pixelWrites_eq_nil s hop
    exact fbAbandoned_of_pixelWrites_eq_nil hclear hpix n
  · exact fun u hexec hn => fbAbandoned_eq_of_exec hexec hn

end Sys2Proof.Machine
end
